-- ==== Sys2Proof/Word.lean ====
section
/-! DEFINITION. The word types of the HBP: the 32-bit port word, the byte, the 12-bit read address and the
255-bit codeword register (spec/00_scope.md R6, R8; spec/20_memory.md R51, R52). -/

namespace Sys2Proof

/-- A command word or a read-port word: 32 bits (R8, R59). -/
abbrev Word := BitVec 32

/-- A byte value 0 to 255: a symbol, a payload byte or a decoded byte (R7, R12). -/
abbrev Byte := BitVec 8

/-- A word address of the read port: 12 bits (R52). -/
abbrev ReadAddr := BitVec 12

/-- A codeword or the decoder's accumulator, right-aligned in CW_MAX = 255 bits (R6, R57). -/
abbrev CodeBits := BitVec 255

end Sys2Proof
end

