-- ==== Sys2Proof/Config.lean ====
section
/-! DEFINITION. The constants of the block and its free values. The free values are the three draws the spec
leaves open (spec/00_scope.md R9; spec/70_reset_and_hazards.md R190, R191; spec/93_implementation_defined.md S1, S2).
They have no body, so nothing in Lean can compute one or prove a value of it. -/

namespace Sys2Proof

/-- The identification constant, read address 0x00A (spec/10_state.md R45, D27). -/
def Config.idWord : Word := 0x48425031#32

/-- CW_MAX, the longest codeword in bits (R6). -/
def Config.cwMax : Nat := 255

/-- What CT[sym].LEN holds after hardware reset number `draw`: unspecified, one independent draw per
entry (R191; log entry 2). -/
opaque Config.resetLen (draw : Nat) (sym : Byte) : BitVec 8

/-- What CT[sym].BITS holds after hardware reset number `draw`: unspecified, one independent draw per
entry (R191; log entry 2). -/
opaque Config.resetBits (draw : Nat) (sym : Byte) : CodeBits

/-- How many of the interrupted command's bytes had reached their channel when hardware reset number `draw`
struck. Only its residue modulo (number of bytes + 1) is used, so every length is possible
(R190, S2; log entry 3). -/
opaque Config.abortedBytes (draw : Nat) : Nat

end Sys2Proof
end

