-- ==== Sys2Proof/Syntax.lean ====
section
/-! DEFINITION. The commands of the block (one constructor per row of spec/opcode_table.json) and the assembler's
source lines, pseudo-commands among them (spec/30_encoding.md R71 to R82). -/

namespace Sys2Proof

/-- The eleven commands of R74 with the fields of their formats (R71, R72). Each field has exactly its
width, so every term is a command the port accepts. DLAST keeps its byte although its rule ignores it, because
ECMD records the whole word (R28). -/
inductive Instr where
  /-- OP 0x0, format Z (R93). -/
  | nop
  /-- OP 0x1, format K (R92). -/
  | init (keep : Bool)
  /-- OP 0x2, format SL (R101). -/
  | cwlen (sym : Byte) (len : BitVec 8)
  /-- OP 0x3, format NB (R102). -/
  | cwbits (n : BitVec 5) (data : BitVec 16)
  /-- OP 0x4, format S (R103). -/
  | cwinv (sym : Byte)
  /-- OP 0x5, format TL (R106). -/
  | tailset (tlen : BitVec 4) (tbits : BitVec 8)
  /-- OP 0x6, format B (R121). -/
  | enc (sym : Byte)
  /-- OP 0x7, format Z (R126). -/
  | eflush
  /-- OP 0x8, format B (R143). -/
  | dbyte (b : Byte)
  /-- OP 0x9, format B (R144). -/
  | dlast (b : Byte)
  /-- OP 0xA, format Z (R145). -/
  | dend
  deriving DecidableEq, Repr

/-- The row's mnemonic (R74). -/
def Instr.mnemonic : Instr → String
  | .nop => "NOP"
  | .init _ => "INIT"
  | .cwlen _ _ => "CWLEN"
  | .cwbits _ _ => "CWBITS"
  | .cwinv _ => "CWINV"
  | .tailset _ _ => "TAILSET"
  | .enc _ => "ENC"
  | .eflush => "EFLUSH"
  | .dbyte _ => "DBYTE"
  | .dlast _ => "DLAST"
  | .dend => "DEND"

/-- A line of assembler source: a command with its operands as written, or one of the four pseudo-commands
(R78 to R82). The operands are plain numbers and bit strings, first bit first; whether they fit is
`Source.wellFormed`'s question. -/
inductive Source where
  | nop
  | init (keep : Nat)
  | cwlen (sym len : Nat)
  | cwbits (n data : Nat)
  | cwinv (sym : Nat)
  | tailset (tlen tbits : Nat)
  | enc (sym : Nat)
  | eflush
  | dbyte (b : Nat)
  | dlast (b : Nat)
  | dend
  /-- `CW sym, "c"` (R79). -/
  | cw (sym : Nat) (code : List Bool)
  /-- `TAIL "t"` (R80). -/
  | tail (t : List Bool)
  /-- `ENCODE s_0, …` (R81). -/
  | encode (syms : List Nat)
  /-- `DECODE p_0, …` (R82). -/
  | decode (payload : List Nat)
  deriving DecidableEq, Repr

end Sys2Proof
end

