-- ==== Sys2Proof/WellFormed.lean ====
section
/-! DEFINITION. What the assembler accepts (spec/30_encoding.md R78 to R82) and which operand values a command
rule accepts (R76). A term of `Instr` always fits its word, because its fields have the format's widths; the
checks on fitting are therefore on the source line. -/

namespace Sys2Proof

/-- The assembler "refuses an operand that does not fit its field" (R78), a codeword that is not 1 to 255 bits
long (R79) and a tail of more than 8 bits (R80). It does not refuse the out-of-range values of R76. -/
def Source.wellFormed : Source → Bool
  | .nop => true
  | .init keep => decide (keep ≤ 1)
  | .cwlen sym len => decide (sym ≤ 255) && decide (len ≤ 255)
  | .cwbits n data => decide (n ≤ 31) && decide (data ≤ 0xFFFF)
  | .cwinv sym => decide (sym ≤ 255)
  | .tailset tlen tbits => decide (tlen ≤ 15) && decide (tbits ≤ 255)
  | .enc sym => decide (sym ≤ 255)
  | .eflush => true
  | .dbyte b => decide (b ≤ 255)
  | .dlast b => decide (b ≤ 255)
  | .dend => true
  | .cw sym code => decide (sym ≤ 255) && decide (1 ≤ code.length) && decide (code.length ≤ Config.cwMax)
  | .tail t => decide (t.length ≤ 8)
  | .encode syms => syms.all fun x => decide (x ≤ 255)
  | .decode payload => payload.all fun x => decide (x ≤ 255)

/-- The legal operand ranges of R76. A command outside its range is well encoded and is executed: its rule
raises EBADLEN. -/
def Instr.operandsLegal : Instr → Bool
  | .nop => true
  | .init _ => true
  | .cwlen _ len => decide (1 ≤ len.toNat)
  | .cwbits n _ => decide (1 ≤ n.toNat) && decide (n.toNat ≤ 16)
  | .cwinv _ => true
  | .tailset tlen _ => decide (tlen.toNat ≤ 8)
  | .enc _ => true
  | .eflush => true
  | .dbyte _ => true
  | .dlast _ => true
  | .dend => true

end Sys2Proof
end

