-- ==== Sys2Proof/Decode.lean ====
section
/-! DEFINITION. The decoder, total on every 32-bit word, and the encoder, both written from the opcode map and the
formats of spec/30_encoding.md (R70 to R77). -/

namespace Sys2Proof

/-- One row of the opcode map R74. `ofWord` reads the fields of the row's format out of a word (R72). -/
structure OpcodeRow where
  mnemonic : String
  pattern : Word
  mask : Word
  ofWord : Word → Instr

/-- `cmd[hi:lo]` with `hi = lo + n - 1` (R12). -/
def field (cmd : Word) (lo n : Nat) : BitVec n := cmd.extractLsb' lo n

/-- The opcode map, in the order of R74; `mask` covers OP and every reserved bit. -/
def opcodeRows : List OpcodeRow := [
  ⟨"NOP", 0x00000000#32, 0xFFFFFFFF#32, fun _ => .nop⟩,
  ⟨"INIT", 0x10000000#32, 0xFFFFFFFE#32, fun c => .init (c.getLsbD 0)⟩,
  ⟨"CWLEN", 0x20000000#32, 0xFF00FF00#32, fun c => .cwlen (field c 16 8) (field c 0 8)⟩,
  ⟨"CWBITS", 0x30000000#32, 0xFFE00000#32, fun c => .cwbits (field c 16 5) (field c 0 16)⟩,
  ⟨"CWINV", 0x40000000#32, 0xFF00FFFF#32, fun c => .cwinv (field c 16 8)⟩,
  ⟨"TAILSET", 0x50000000#32, 0xFFFFF000#32, fun c => .tailset (field c 8 4) (field c 0 8)⟩,
  ⟨"ENC", 0x60000000#32, 0xFFFFFF00#32, fun c => .enc (field c 0 8)⟩,
  ⟨"EFLUSH", 0x70000000#32, 0xFFFFFFFF#32, fun _ => .eflush⟩,
  ⟨"DBYTE", 0x80000000#32, 0xFFFFFF00#32, fun c => .dbyte (field c 0 8)⟩,
  ⟨"DLAST", 0x90000000#32, 0xFFFFFF00#32, fun c => .dlast (field c 0 8)⟩,
  ⟨"DEND", 0xA0000000#32, 0xFFFFFFFF#32, fun _ => .dend⟩]

/-- "A word selects a command when `(cmd & mask) == match`" (R74). -/
def OpcodeRow.selects (r : OpcodeRow) (cmd : Word) : Bool := (cmd &&& r.mask) == r.pattern

/-- Why a word is ILLEGAL (R77): its opcode is reserved (R75), or its opcode is assigned and a reserved bit is
set (R73). -/
inductive Illegal where
  | reservedOpcode (op : BitVec 4)
  | reservedBits (op : BitVec 4)
  deriving DecidableEq, Repr

/-- The name of an illegal word's defect. -/
def illegalKind (cmd : Word) : Illegal :=
  let op := field cmd 28 4
  if 0xB ≤ op.toNat then .reservedOpcode op else .reservedBits op

/-- `Decode` of R77: the first row that selects the word, with its fields, or ILLEGAL. -/
def decode (cmd : Word) : Except Illegal Instr :=
  match opcodeRows.find? fun r => r.selects cmd with
  | some r => .ok (r.ofWord cmd)
  | none => .error (illegalKind cmd)

/-- A value at bits `lo` and up of a word, 0 elsewhere: `v << lo` (R71). -/
def place {n : Nat} (lo : Nat) (v : BitVec n) : Word := v.setWidth 32 <<< lo

/-- The word of a command: the row's pattern with the fields at their places, 0 in every reserved bit
(R71, R74, R78). -/
def encode : Instr → Word
  | .nop => 0x00000000#32
  | .init keep => 0x10000000#32 ||| place 0 (BitVec.ofBool keep)
  | .cwlen sym len => 0x20000000#32 ||| place 16 sym ||| place 0 len
  | .cwbits n data => 0x30000000#32 ||| place 16 n ||| place 0 data
  | .cwinv sym => 0x40000000#32 ||| place 16 sym
  | .tailset tlen tbits => 0x50000000#32 ||| place 8 tlen ||| place 0 tbits
  | .enc sym => 0x60000000#32 ||| place 0 sym
  | .eflush => 0x70000000#32
  | .dbyte b => 0x80000000#32 ||| place 0 b
  | .dlast b => 0x90000000#32 ||| place 0 b
  | .dend => 0xA0000000#32

/-- The word given by the low `nbits` bits of `w`, as the opcode table numbers them: one 32-bit word, bit 0
least significant (R70). -/
def tableWord (nbits w : Nat) : Word := BitVec.ofNat 32 (w % 2 ^ nbits)

/-- What the decoder reads from a word numbered as spec/opcode_table.json numbers it. -/
def decodeTableWord (nbits w : Nat) : Option Instr :=
  match decode (tableWord nbits w) with
  | .ok i => some i
  | .error _ => none

end Sys2Proof
end

