-- ==== Sys2Proof/Machine/State.lean ====
section
/-! DEFINITION. The state of the block: every element of spec/10_state.md R23, the two output channels R36, and
the model's own bookkeeping of the host's side (log entries 1 to 5). -/

namespace Sys2Proof.Machine

/-- MODE (R24). Values 5, 6 and 7 are never written, so the type leaves them out (S3). -/
inductive Mode where
  /-- No stream started. -/
  | idle
  /-- At least one ENC executed, no EFLUSH yet. -/
  | encoding
  /-- EFLUSH executed. -/
  | encDone
  /-- At least one DBYTE executed, stream not ended. -/
  | decoding
  /-- DLAST or DEND executed. -/
  | decDone
  deriving DecidableEq, Repr

/-- ECODE (R26, R171). Values 10 to 15 are never raised, so the type leaves them out (S3). -/
inductive ErrCode where
  /-- No error recorded. -/
  | none
  /-- EILLEGAL: reserved opcode, or reserved bit set. -/
  | illegal
  /-- ESEQ: command not allowed in the current MODE. -/
  | seq
  /-- EBADLEN: operand outside its legal range. -/
  | badLen
  /-- ELOAD: CWBITS with no entry selected, or past the entry's LEN. -/
  | load
  /-- EMISS: ENC of a symbol with no valid codeword. -/
  | miss
  /-- ENOTAIL: DLAST with the tail entry absent. -/
  | noTail
  /-- EDUP: accumulator equal to two or more valid codewords. -/
  | dup
  /-- EACCOVF: a 256th unmatched bit. -/
  | accOvf
  /-- EDANGLE: accumulator not empty at the end of the stream. -/
  | dangle
  deriving DecidableEq, Repr

/-- One entry CT[s] of the code table (R29). -/
structure CodeEntry where
  valid : Bool
  len : BitVec 8
  bits : CodeBits
  deriving DecidableEq, Repr

/-- What the host, or the board around the block, does next (R20, R50, R190). -/
inductive HostAccess where
  /-- A write of one word to the command port (R51). -/
  | command (w : Word)
  /-- A read of one word from the read port (R52). -/
  | read (a : ReadAddr)
  /-- Hardware reset asserted between two commands (R190). -/
  | reset
  /-- Hardware reset asserted while this command is executing (R190). -/
  | resetDuring (w : Word)
  deriving DecidableEq, Repr

/-- The block's state (R23), its two channels (R36) and the host's side of the ports. -/
structure State where
  /-- MODE, phase of the current invocation (R24). -/
  mode : Mode
  /-- ERR, sticky error flag (R25). -/
  err : Bool
  /-- ECODE, code of the recorded error (R26). -/
  ecode : ErrCode
  /-- EPOS, bit position of the recorded error (R27). -/
  epos : BitVec 4
  /-- ECMD, the command word that raised the recorded error (R28). -/
  ecmd : Word
  /-- CT[0..255], the code table (R29). -/
  ct : Vector CodeEntry 256
  /-- TVALID, the sentinel tail entry is present (R30). -/
  tvalid : Bool
  /-- TLEN, tail length in bits (R30). -/
  tlen : BitVec 4
  /-- TBITS, tail bits, right-aligned (R30). -/
  tbits : BitVec 8
  /-- LSEL, an entry is selected for loading (R31). -/
  lsel : Bool
  /-- LSYM, the selected entry (R31). -/
  lsym : Byte
  /-- LCNT, bits loaded so far into it (R31). -/
  lcnt : BitVec 8
  /-- PBUF, the packer's partial group, right-aligned (R32). -/
  pbuf : BitVec 8
  /-- PCNT, number of bits in PBUF (R32). -/
  pcnt : BitVec 3
  /-- PANY, a stream bit has been packed in this invocation (R33). -/
  pany : Bool
  /-- PLAST, the last full group emitted (R33). -/
  plast : BitVec 8
  /-- ACC, the decoder's accumulator, right-aligned (R34). -/
  acc : CodeBits
  /-- ACCLEN, its length (R34). -/
  acclen : BitVec 8
  /-- PBITS, stream bits packed, mod 2^32 (R35). -/
  pbits : BitVec 32
  /-- PBYTES, payload bytes emitted, mod 2^32 (R35). -/
  pbytes : BitVec 32
  /-- DBITS, bits consumed by the decoder, mod 2^32 (R35). -/
  dbits : BitVec 32
  /-- DSYMS, symbols emitted on channel S, mod 2^32 (R35). -/
  dsyms : BitVec 32
  /-- Channel P: every payload byte emitted so far, oldest first (R36). -/
  chanP : List Byte
  /-- Channel S: every decoded byte emitted so far, oldest first (R36). -/
  chanS : List Byte
  /-- The MODEL's own: the host's accesses still to come, in the host's order (log entry 1). -/
  host : List HostAccess
  /-- The MODEL's own: the words the read port has returned, oldest first (log entry 4). -/
  reads : List Word
  /-- The MODEL's own: how many hardware resets have drawn their free values (log entry 2). -/
  draws : Nat
  deriving DecidableEq, Repr

/-- Why a step can stop with a fault: never. Every error the spec gives the block is a state (R172), so the
type is empty (safe: nothing is left out, see log entry 7). -/
inductive Fault where
  deriving DecidableEq, Repr

/-- Why a step can be refused. -/
inductive Refusal where
  /-- Raised by `exec`'s arm of a command that has no meaning yet (safe); no arm does so now. -/
  | notModelled (mnemonic : String)
  deriving DecidableEq, Repr

/-- The code table after hardware reset number `draw`: every entry invalid, LEN and BITS drawn (R190, R191). -/
def resetTable (draw : Nat) : Vector CodeEntry 256 :=
  Vector.ofFn fun k => ⟨false, Config.resetLen draw (BitVec.ofFin k), Config.resetBits draw (BitVec.ofFin k)⟩

/-- The state after hardware reset number `draw`, with the bytes already delivered on the channels (R192) and
the host's side as given (R190). -/
def State.afterReset (draw : Nat) (chanP chanS : List Byte) (host : List HostAccess) (reads : List Word) : State where
  mode := .idle
  err := false
  ecode := .none
  epos := 0
  ecmd := 0
  ct := resetTable draw
  tvalid := false
  tlen := 0
  tbits := 0
  lsel := false
  lsym := 0
  lcnt := 0
  pbuf := 0
  pcnt := 0
  pany := false
  plast := 0
  acc := 0
  acclen := 0
  pbits := 0
  pbytes := 0
  dbits := 0
  dsyms := 0
  chanP := chanP
  chanS := chanS
  host := host
  reads := reads
  draws := draw + 1

/-- The block right after its first hardware reset: the values of R23's last column, empty channels, and a host
that has not yet done anything. -/
def State.reset : State := State.afterReset 0 [] [] [] []

end Sys2Proof.Machine
end

