-- ==== Sys2Proof/Machine/Operands.lean ====
section
/-! DEFINITION. Bit strings and the operand forms of the commands (spec/00_scope.md R10, R11; spec/30_encoding.md
R72). A bit string is a `List Bool`, first bit in the stream first. -/

namespace Sys2Proof.Machine

/-- `str_n(v)`: the n low bits of v, most significant first (R11). -/
def str : Nat → Nat → List Bool
  | 0, _ => []
  | n + 1, v => v.testBit n :: str n v

/-- `val(s)`: the number whose big-endian binary spelling is s (R11). -/
def val (s : List Bool) : Nat := s.foldl (fun v b => 2 * v + b.toNat) 0

/-- `zext_255(DATA[N-1:0])`: the chunk of CWBITS; DATA[15:N] is ignored (R72, R102). -/
def chunkBits (n : BitVec 5) (data : BitVec 16) : CodeBits := BitVec.ofNat 255 (data.toNat % 2 ^ n.toNat)

/-- `zext_8(TBITS[TLEN-1:0])`: the tail of TAILSET; TBITS[7:TLEN] is ignored (R72, R106). -/
def tailBits (tlen : BitVec 4) (tbits : BitVec 8) : BitVec 8 := BitVec.ofNat 8 (tbits.toNat % 2 ^ tlen.toNat)

/-- The payload byte as a bit string, `str_8(B)`: bit 7 first (R55, R72). -/
def byteString (b : Byte) : List Bool := str 8 b.toNat

/-- The codeword an entry holds, `str_LEN(BITS)` (R29, R57). -/
def CodeEntry.codeword (e : CodeEntry) : List Bool := str e.len.toNat e.bits.toNat

/-- The tail string `str_TLEN(TBITS)` (R30). -/
def State.tailString (s : State) : List Bool := str s.tlen.toNat s.tbits.toNat

/-- The packer's pending bits `str_PCNT(PBUF)` (R32). -/
def State.pendingString (s : State) : List Bool := str s.pcnt.toNat s.pbuf.toNat

/-- The accumulator string `str_ACCLEN(ACC)` (R34). -/
def State.accString (s : State) : List Bool := str s.acclen.toNat s.acc.toNat

/-- A bit shifted into a right-aligned register: `(R << 1) | b` (R120, R141). -/
def shiftIn {w : Nat} (r : BitVec w) (b : Bool) : BitVec w := (r <<< 1) ||| (BitVec.ofBool b).setWidth w

end Sys2Proof.Machine
end

