-- ==== Sys2Proof/Machine/Flags.lean ====
section
/-! DEFINITION. The numbers software sees for MODE and ECODE, the error flags as a group, and the interrupt line.
The block has no condition codes: its flags are ERR, ECODE, EPOS and ECMD (spec/40_control.md, preamble;
spec/60_exceptions.md R171, R177). -/

namespace Sys2Proof.Machine

/-- The MODE field's number (R24). -/
def Mode.code : Mode → BitVec 3
  | .idle => 0
  | .encoding => 1
  | .encDone => 2
  | .decoding => 3
  | .decDone => 4

/-- The ECODE field's number (R171). -/
def ErrCode.code : ErrCode → BitVec 4
  | .none => 0
  | .illegal => 1
  | .seq => 2
  | .badLen => 3
  | .load => 4
  | .miss => 5
  | .noTail => 6
  | .dup => 7
  | .accOvf => 8
  | .dangle => 9

/-- The output line IRQ, "equal at all times to ERR" (R37, R177). -/
def State.irq (s : State) : Bool := s.err

/-- The four error fields as `raise` writes them (R172). -/
def State.recordError (e : ErrCode) (epos : BitVec 4) (cmd : Word) (s : State) : State :=
  { s with err := true, ecode := e, epos := epos, ecmd := cmd }

/-- The four error fields as INIT clears them (R92, R179). -/
def State.clearError (s : State) : State :=
  { s with err := false, ecode := .none, epos := 0, ecmd := 0 }

end Sys2Proof.Machine
end

