-- ==== Sys2Proof/Machine/Ops.lean ====
section
/-! DEFINITION. The shared operations: table accessors, the channels, raising an error and leaving the error state,
the dispatch rule around every command, the packing primitive and the decoder's primitives
(spec/00_scope.md R13; spec/40_control.md R90, R91; spec/42_pack.md R120; spec/43_decode.md R140 to R142;
spec/60_exceptions.md R172; spec/70_reset_and_hazards.md R190). -/

namespace Sys2Proof.Machine

/-- CT[sym] (R29). -/
def State.entry (s : State) (sym : Byte) : CodeEntry := s.ct[sym.toNat]'sym.isLt

/-- CT[sym] <- e. -/
def State.setEntry (sym : Byte) (e : CodeEntry) (s : State) : State :=
  { s with ct := s.ct.set sym.toNat e sym.isLt }

/-- `EmitP(b)` (R13, R36). -/
def State.emitP (b : Byte) (s : State) : State := { s with chanP := s.chanP ++ [b] }

/-- `EmitS(b)` (R13, R36). -/
def State.emitS (b : Byte) (s : State) : State := { s with chanS := s.chanS ++ [b] }

/-- LSEL <- 0; LSYM <- 0; LCNT <- 0 (R31). -/
def State.clearLoader (s : State) : State := { s with lsel := false, lsym := 0, lcnt := 0 }

/-- LSEL <- 1; LSYM <- sym; LCNT <- cnt (R31). -/
def State.selectLoader (sym : Byte) (cnt : BitVec 8) (s : State) : State :=
  { s with lsel := true, lsym := sym, lcnt := cnt }

/-- The tail entry present with these bits (R30). -/
def State.setTail (len : BitVec 4) (bits : BitVec 8) (s : State) : State :=
  { s with tvalid := true, tlen := len, tbits := bits }

/-- The tail entry absent (R30). -/
def State.clearTail (s : State) : State := { s with tvalid := false, tlen := 0, tbits := 0 }

/-- MODE <- m (R24). -/
def State.setMode (m : Mode) (s : State) : State := { s with mode := m }

/-- How far a command's pseudocode has come: still running, or ended by a raise, after which "no later
statement of its rule executes" (R172). -/
inductive Flow where
  | running (s : State)
  | ended (s : State)
  deriving DecidableEq, Repr

/-- The state either way: what was done before a raise stands (R176). -/
def Flow.state : Flow → State
  | .running s => s
  | .ended s => s

/-- Statement sequencing. -/
def Flow.andThen (f : Flow) (k : State → Flow) : Flow :=
  match f with
  | .running s => k s
  | .ended s => .ended s

/-- TAKING AN ERROR, `raise E(epos)` (R172): ERR, ECODE, EPOS and ECMD are written and the command ends. No control
is transferred and nothing else is saved (R178). `cmd` is "the whole command word being executed". -/
def raiseError (e : ErrCode) (epos : Nat) (cmd : Word) (s : State) : Flow :=
  .ended (s.recordError e (BitVec.ofNat 4 epos) cmd)

/-- LEAVING THE ERROR STATE and starting an invocation: the assignments of INIT that do not depend on KEEP, the
only way out of the error state but reset (R92, R179). -/
def startInvocation (s : State) : State :=
  { s.clearLoader.clearError with
    pbuf := 0, pcnt := 0, pany := false, plast := 0
    acc := 0, acclen := 0
    pbits := 0, pbytes := 0, dbits := 0, dsyms := 0
    mode := .idle }

/-- Every CT[s].VALID <- 0; LEN and BITS unchanged (R92). -/
def invalidateTable (s : State) : State := { s with ct := s.ct.map fun e => { e with valid := false } }

/-- `Allowed(d)`: may the command execute in this MODE (R91)? -/
def permitted : Instr → Mode → Bool
  | .nop, _ => true
  | .init _, _ => true
  | .cwlen _ _, m => m == .idle
  | .cwbits _ _, m => m == .idle
  | .cwinv _, m => m == .idle
  | .tailset _ _, m => m == .idle
  | .enc _, m => m == .idle || m == .encoding
  | .eflush, m => m == .idle || m == .encoding
  | .dbyte _, m => m == .idle || m == .decoding
  | .dlast _, m => m == .idle || m == .decoding
  | .dend, m => m == .idle

/-- The commands that are performed while ERR = 1 (R90). -/
def runsInError : Instr → Bool
  | .nop => true
  | .init _ => true
  | .cwlen _ _ => false
  | .cwbits _ _ => false
  | .cwinv _ => false
  | .tailset _ _ => false
  | .enc _ => false
  | .eflush => false
  | .dbyte _ => false
  | .dlast _ => false
  | .dend => false

/-- `Execute` of R90 for a decoded command, around the command's own rule `body`: dropped while ERR = 1, ESEQ in a
MODE that does not allow it, performed otherwise. A raise is no stop of the machine, so the answer is always a
next state. -/
def perform (i : Instr) (body : State → Flow) (s : State) : Host.Outcome State Fault Refusal :=
  .next <|
    if s.err then
      if runsInError i then (body s).state else s
    else if permitted i s.mode then (body s).state
    else (raiseError .seq 0 (encode i) s).state

/-! ## The packing primitive -/

/-- `PackBit(b)` (R120). -/
def packBit (s : State) (b : Bool) : State :=
  let v := shiftIn s.pbuf b
  let n := s.pcnt.toNat + 1
  let s := { s with pbits := s.pbits + 1, pany := true }
  if n = 8 then
    { s.emitP v with plast := v, pbytes := s.pbytes + 1, pbuf := 0, pcnt := 0 }
  else
    { s with pbuf := v, pcnt := BitVec.ofNat 3 n }

/-- `for i in 0..|c|-1: PackBit(c[i])` (R121). -/
def packBits (s : State) (c : List Bool) : State := c.foldl packBit s

/-! ## The decoder's primitives -/

/-- Does the entry hold exactly the accumulator (R140)? -/
def CodeEntry.hits (e : CodeEntry) (len : BitVec 8) (bits : CodeBits) : Bool :=
  e.valid && (e.len == len && e.bits == bits)

/-- `Match()`: the symbols whose valid entry equals the accumulator, in increasing order (R140). The tail entry
takes no part. -/
def matchSet (s : State) : List Byte :=
  (s.ct.toList.zipIdx.filter fun p => p.1.hits s.acclen s.acc).map fun p => BitVec.ofNat 8 p.2

/-- `DecodeBit(b, i)` (R141), in the command word `cmd`. -/
def decodeBit (cmd : Word) (i : Nat) (b : Bool) (s : State) : Flow :=
  if s.acclen = 255 then raiseError .accOvf i cmd s
  else
    let s := { s with acc := shiftIn s.acc b, acclen := s.acclen + 1, dbits := s.dbits + 1 }
    match matchSet s with
    | [] => .running s
    | [x] => .running { s.emitS x with dsyms := s.dsyms + 1, acc := 0, acclen := 0 }
    | _ :: _ :: _ => raiseError .dup i cmd s

/-- `for i in 0..: DecodeBit(u[i], i)`, ended by the first raise (R143 to R145). -/
def feedBits (cmd : Word) : Nat → List Bool → State → Flow
  | _, [], s => .running s
  | i, b :: u, s => (decodeBit cmd i b s).andThen (feedBits cmd (i + 1) u)

/-- `EndCheck(n)` (R142). -/
def endCheck (cmd : Word) (n : Nat) (s : State) : Flow :=
  if s.acclen = 0 then .running s else raiseError .dangle n cmd s

/-- The tail fed in place of the last payload byte, then the end-of-stream test: the shared close of DLAST and
DEND (R144, R145). -/
def feedTail (cmd : Word) (s : State) : Flow :=
  (feedBits cmd 0 s.tailString s).andThen (endCheck cmd s.tlen.toNat)

/-! ## Hardware reset -/

/-- A hardware reset between two commands (R190): every register takes its reset value, the free values are
drawn anew (R191), and the bytes already on the channels stay (R192). -/
def hardReset (s : State) : State := State.afterReset s.draws s.chanP s.chanS s.host s.reads

/-- A prefix of the emitted bytes, its length given by `draw` (R190, S2). -/
def abortedOutput (draw : Nat) (emitted : List Byte) : List Byte :=
  emitted.take (Config.abortedBytes draw % (emitted.length + 1))

/-- A hardware reset that strikes while a command is executing: `s` is the state before the command and `t` the
state it would have left. The command is discarded, and a drawn prefix of its bytes stands on the channels
(R190). -/
def resetInside (s t : State) : State :=
  hardReset { s with
    chanP := s.chanP ++ abortedOutput s.draws (t.chanP.drop s.chanP.length)
    chanS := s.chanS ++ abortedOutput s.draws (t.chanS.drop s.chanS.length) }

end Sys2Proof.Machine
end

