-- ==== Sys2Proof/Machine/Control.lean ====
section
/-! DEFINITION. The control commands (spec/40_control.md). Each command's own rule answers how far its
pseudocode came; `perform` puts the dispatch rule R90 around it. -/

namespace Sys2Proof.Machine

/-- NOP's pseudocode: nothing (R93). -/
def ruleNop (s : State) : Flow := .running s

/-- NOP: no operation (R93). -/
def execNop (s : State) : Host.Outcome State Fault Refusal :=
  perform .nop ruleNop s

/-- INIT's pseudocode (R92). -/
def ruleInit (keep : Bool) (s : State) : Flow :=
  .running (startInvocation (if keep then s else (invalidateTable s).clearTail))

/-- INIT: start a new invocation (R92). -/
def execInit (keep : Bool) (s : State) : Host.Outcome State Fault Refusal :=
  perform (.init keep) (ruleInit keep) s


end Sys2Proof.Machine
end

