-- ==== Sys2Proof/Machine/Pack.lean ====
section
/-! DEFINITION. The bit packer commands (spec/42_pack.md). Each command's own rule answers how far its
pseudocode came; `perform` puts the dispatch rule R90 around it. -/

namespace Sys2Proof.Machine

/-- ENC's pseudocode (R121). -/
def ruleEnc (sym : Byte) (s : State) : Flow :=
  if (s.entry sym).valid = false then raiseError .miss 0 (encode (.enc sym)) s
  else .running (packBits (s.setMode .encoding) (s.entry sym).codeword)

/-- ENC: pack the codeword of one input byte (R121). -/
def execEnc (sym : Byte) (s : State) : Host.Outcome State Fault Refusal :=
  perform (.enc sym) (ruleEnc sym) s

/-- EFLUSH's pseudocode (R126): a partial last group; a length that is a non-zero multiple of 8; an empty
stream. -/
def ruleEflush (s : State) : Flow :=
  let t :=
    if s.pcnt ≠ 0 then { (s.emitP s.pbuf).setTail (s.pcnt.setWidth 4) s.pbuf with pbytes := s.pbytes + 1 }
    else if s.pany then s.setTail 8 s.plast
    else s.clearTail
  .running { t with mode := .encDone, pbuf := 0, pcnt := 0 }

/-- EFLUSH: end the stream, emit the last group and write the tail entry (R126). -/
def execEflush (s : State) : Host.Outcome State Fault Refusal :=
  perform .eflush ruleEflush s


end Sys2Proof.Machine
end

