-- ==== Sys2Proof/Machine/Table.lean ====
section
/-! DEFINITION. The code-table commands (spec/41_table.md). Each command's own rule answers how far its
pseudocode came; `perform` puts the dispatch rule R90 around it. -/

namespace Sys2Proof.Machine

/-- CWLEN's pseudocode (R101). -/
def ruleCwlen (sym : Byte) (len : BitVec 8) (s : State) : Flow :=
  if len = 0 then raiseError .badLen 0 (encode (.cwlen sym len)) s
  else .running ((s.setEntry sym ⟨false, len, 0⟩).selectLoader sym 0)

/-- CWLEN: begin loading the codeword of a symbol (R101). -/
def execCwlen (sym : Byte) (len : BitVec 8) (s : State) : Host.Outcome State Fault Refusal :=
  perform (.cwlen sym len) (ruleCwlen sym len) s

/-- CWBITS's pseudocode (R102). -/
def ruleCwbits (n : BitVec 5) (data : BitVec 16) (s : State) : Flow :=
  let cmd := encode (.cwbits n data)
  let e := s.entry s.lsym
  let cnt := s.lcnt.toNat + n.toNat
  let bits := (e.bits <<< n.toNat) ||| chunkBits n data
  if n = 0 ∨ 16 < n.toNat then raiseError .badLen 0 cmd s
  else if s.lsel = false then raiseError .load 0 cmd s
  else if e.len.toNat < cnt then raiseError .load 0 cmd s
  else if cnt = e.len.toNat then .running (s.setEntry s.lsym ⟨true, e.len, bits⟩).clearLoader
  else .running ((s.setEntry s.lsym { e with bits := bits }).selectLoader s.lsym (BitVec.ofNat 8 cnt))

/-- CWBITS: append bits to the codeword being loaded (R102). -/
def execCwbits (n : BitVec 5) (data : BitVec 16) (s : State) : Host.Outcome State Fault Refusal :=
  perform (.cwbits n data) (ruleCwbits n data) s

/-- CWINV's pseudocode (R103). -/
def ruleCwinv (sym : Byte) (s : State) : Flow :=
  let t := s.setEntry sym { s.entry sym with valid := false }
  .running (if s.lsel = true ∧ s.lsym = sym then t.clearLoader else t)

/-- CWINV: remove a symbol's codeword from the mapping (R103). -/
def execCwinv (sym : Byte) (s : State) : Host.Outcome State Fault Refusal :=
  perform (.cwinv sym) (ruleCwinv sym) s

/-- TAILSET's pseudocode (R106). -/
def ruleTailset (tlen : BitVec 4) (tbits : BitVec 8) (s : State) : Flow :=
  if 8 < tlen.toNat then raiseError .badLen 0 (encode (.tailset tlen tbits)) s
  else .running (if tlen = 0 then s.clearTail else s.setTail tlen (tailBits tlen tbits))

/-- TAILSET: write or remove the sentinel tail entry (R106). -/
def execTailset (tlen : BitVec 4) (tbits : BitVec 8) (s : State) : Host.Outcome State Fault Refusal :=
  perform (.tailset tlen tbits) (ruleTailset tlen tbits) s


end Sys2Proof.Machine
end

