-- ==== Sys2Proof/Machine/Unpack.lean ====
section
/-! DEFINITION. The bit unpacker and prefix-match decoder commands (spec/43_decode.md). Each command's own rule answers how far its
pseudocode came; `perform` puts the dispatch rule R90 around it. -/

namespace Sys2Proof.Machine

/-- DBYTE's pseudocode (R143). -/
def ruleDbyte (b : Byte) (s : State) : Flow :=
  feedBits (encode (.dbyte b)) 0 (byteString b) (s.setMode .decoding)

/-- DBYTE: feed one payload byte that is not the last (R143). -/
def execDbyte (b : Byte) (s : State) : Host.Outcome State Fault Refusal :=
  perform (.dbyte b) (ruleDbyte b) s

/-- DLAST's pseudocode (R144). -/
def ruleDlast (b : Byte) (s : State) : Flow :=
  if s.tvalid = false then raiseError .noTail 0 (encode (.dlast b)) s
  else feedTail (encode (.dlast b)) (s.setMode .decDone)

/-- DLAST: the last payload byte; its value is ignored and the tail is fed in its place (R144). -/
def execDlast (b : Byte) (s : State) : Host.Outcome State Fault Refusal :=
  perform (.dlast b) (ruleDlast b) s

/-- DEND's pseudocode (R145). -/
def ruleDend (s : State) : Flow :=
  if s.tvalid then feedTail (encode .dend) (s.setMode .decDone)
  else endCheck (encode .dend) 0 (s.setMode .decDone)

/-- DEND: end of a payload that has zero bytes (R145). -/
def execDend (s : State) : Host.Outcome State Fault Refusal :=
  perform .dend ruleDend s


end Sys2Proof.Machine
end

