-- ==== Sys2Proof/Machine/Dispatch.lean ====
section
/-! DEFINITION. `exec`: one arm per command. -/

namespace Sys2Proof.Machine

def exec (i : Instr) (s : State) : Host.Outcome State Fault Refusal :=
  match i with
  -- control (spec/40_control.md)
  | .nop => Sys2Proof.Machine.execNop s
  | .init keep => Sys2Proof.Machine.execInit keep s
  -- code table (spec/41_table.md)
  | .cwlen sym len => Sys2Proof.Machine.execCwlen sym len s
  | .cwbits n data => Sys2Proof.Machine.execCwbits n data s
  | .cwinv sym => Sys2Proof.Machine.execCwinv sym s
  | .tailset tlen tbits => Sys2Proof.Machine.execTailset tlen tbits s
  -- bit packer (spec/42_pack.md)
  | .enc sym => Sys2Proof.Machine.execEnc sym s
  | .eflush => Sys2Proof.Machine.execEflush s
  -- bit unpacker and decoder (spec/43_decode.md)
  | .dbyte b => Sys2Proof.Machine.execDbyte b s
  | .dlast b => Sys2Proof.Machine.execDlast b s
  | .dend => Sys2Proof.Machine.execDend s

end Sys2Proof.Machine
end

