-- ==== Sys2Proof/Machine/ReadPort.lean ====
section
/-! DEFINITION. The read port: the words of spec/10_state.md R40 to R49 and the map of spec/20_memory.md R56. Every
word is a function of the state, so a read has no side effect (R52). -/

namespace Sys2Proof.Machine

/-- STATUS (R40). -/
def statusWord (s : State) : Word :=
  place 0 (BitVec.ofBool s.err) ||| place 4 s.ecode.code ||| place 8 s.epos ||| place 12 s.mode.code |||
    place 15 (BitVec.ofBool s.lsel) ||| place 16 (BitVec.ofBool s.tvalid)

/-- TAIL (R42). -/
def tailWord (s : State) : Word := place 31 (BitVec.ofBool s.tvalid) ||| place 8 s.tlen ||| place 0 s.tbits

/-- LOADER (R43). -/
def loaderWord (s : State) : Word := place 31 (BitVec.ofBool s.lsel) ||| place 16 s.lsym ||| place 0 s.lcnt

/-- PSTATE (R44). -/
def pstateWord (s : State) : Word :=
  place 31 (BitVec.ofBool s.pany) ||| place 16 s.pcnt ||| place 8 s.plast ||| place 0 s.pbuf

/-- DSTATE (R46). -/
def dstateWord (s : State) : Word := place 0 s.acclen

/-- Word k of a 255-bit register, `R[32k+31:32k]`, bit 255 taken as 0 (R46, R49). -/
def codeWord32 (r : CodeBits) (k : Nat) : Word := r.extractLsb' (32 * k) 32

/-- CTLEN[s] (R48). -/
def ctlenWord (e : CodeEntry) : Word := place 31 (BitVec.ofBool e.valid) ||| place 0 e.len

/-- `ReadPort(a)`: the read map R56; an unassigned address reads 0 (R53). -/
def readPort (s : State) (a : ReadAddr) : Word :=
  let n := a.toNat
  if n = 0x000 then statusWord s
  else if n = 0x001 then s.ecmd
  else if n = 0x002 then tailWord s
  else if n = 0x003 then loaderWord s
  else if n = 0x004 then pstateWord s
  else if n = 0x005 then dstateWord s
  else if n = 0x006 then s.pbits
  else if n = 0x007 then s.pbytes
  else if n = 0x008 then s.dbits
  else if n = 0x009 then s.dsyms
  else if n = 0x00A then Config.idWord
  else if 0x010 ≤ n ∧ n ≤ 0x017 then codeWord32 s.acc (n - 0x010)
  else if 0x100 ≤ n ∧ n ≤ 0x1FF then ctlenWord (s.entry (BitVec.ofNat 8 (n - 0x100)))
  else if 0x200 ≤ n ∧ n ≤ 0x9FF then
    codeWord32 (s.entry (BitVec.ofNat 8 ((n - 0x200) / 8))).bits ((n - 0x200) % 8)
  else 0

/-- A read transaction: the word is returned to the host, and nothing else changes (R52). -/
def serveRead (a : ReadAddr) (s : State) : State := { s with reads := s.reads ++ [readPort s a] }

end Sys2Proof.Machine
end

