-- ==== Sys2Proof/Machine/HostPort.lean ====
section
/-! DEFINITION. What the block does with one access of its host: a word on the command port (spec/40_control.md
R90), a read (spec/20_memory.md R52), a hardware reset (spec/70_reset_and_hazards.md R190). -/

namespace Sys2Proof.Machine

/-- An ILLEGAL word: dropped while ERR = 1, EILLEGAL otherwise (R77, R90). -/
def executeIllegal (w : Word) (s : State) : State :=
  if s.err then s else (raiseError .illegal 0 w s).state

/-- `Execute(cmd)` (R90). -/
def executeWord (w : Word) (s : State) : Host.Outcome State Fault Refusal :=
  match decode w with
  | .ok i => exec i s
  | .error _ => .next (executeIllegal w s)

/-- A reset asserted while the word's command is executing (R190). -/
def resetDuringWord (w : Word) (s : State) : Host.Outcome State Fault Refusal :=
  match executeWord w s with
  | .next t => .next (resetInside s t)
  | .fault r => .fault r
  | .refused r => .refused r

/-- One access of the host, served whole before the next (R51, R61). -/
def serve (a : HostAccess) (s : State) : Host.Outcome State Fault Refusal :=
  match a with
  | .command w => executeWord w s
  | .read addr => .next (serveRead addr s)
  | .reset => .next (hardReset s)
  | .resetDuring w => resetDuringWord w s

/-- The host's next access, taken in the host's order; with none waiting the block holds its state (R183). -/
def stepHost (s : State) : Host.Outcome State Fault Refusal :=
  match s.host with
  | [] => .next s
  | a :: rest => serve a { s with host := rest }

/-- Commands executed one after another, as the host issues them (R61), stopping if one does not answer a next
state. -/
def execAll : List Instr → State → Host.Outcome State Fault Refusal
  | [], s => .next s
  | i :: rest, s =>
    match exec i s with
    | .next t => execAll rest t
    | .fault r => .fault r
    | .refused r => .refused r

end Sys2Proof.Machine
end

