-- ==== Sys2Proof/Machine/Step.lean ====
section
/-! DEFINITION. One step: one access of the host. The block has no program counter and fetches nothing
(spec/10_state.md R22), so the next command is the next word the host writes (log entry 1). -/

namespace Sys2Proof.Machine

/-- One step of the block. -/
def step (s : State) : Host.Outcome State Fault Refusal := stepHost s

/-- `s` with the table word `w` as the host's next write to the command port, so that the next step executes
it (log entry 1). -/
def State.withFetchWord (s : State) (nbits w : Nat) : State :=
  { s with host := .command (tableWord nbits w) :: s.host }

end Sys2Proof.Machine
end

