-- ==== Sys2Proof/Machine/Assembler.lean ====
section
/-! DEFINITION. The assembler of spec/30_encoding.md R78 to R82: a text line is read into a source line, and a source
line is expanded into commands. The block never sees either; the host writes the encoded commands (log entry 8). -/

namespace Sys2Proof.Machine

/-! ## Expansion into commands -/

/-- The chunks c_0, …, c_{m-1} of R79: sixteen bits each, the last one the rest, cut from the left. -/
def chunks16 (c : List Bool) : List (List Bool) :=
  (List.range ((c.length + 15) / 16)).map fun j => (c.drop (16 * j)).take 16

/-- `CWBITS n_j, val(c_j)` (R79). -/
def chunkCommand (c : List Bool) : Instr := .cwbits (BitVec.ofNat 5 c.length) (BitVec.ofNat 16 (val c))

/-- `CW sym, "c"` (R79). -/
def loadCodeword (sym : Byte) (c : List Bool) : List Instr :=
  .cwlen sym (BitVec.ofNat 8 c.length) :: (chunks16 c).map chunkCommand

/-- `TAIL "t"` (R80). -/
def loadTail (t : List Bool) : Instr := .tailset (BitVec.ofNat 4 t.length) (BitVec.ofNat 8 (val t))

/-- `ENCODE s_0, …, s_{n-1}` (R81). -/
def encodeSequence (syms : List Byte) : List Instr := syms.map .enc ++ [.eflush]

/-- `DECODE p_0, …, p_{n-1}` (R82). -/
def decodeSequence : List Byte → List Instr
  | [] => [.dend]
  | [p] => [.dlast p]
  | p :: q :: rest => .dbyte p :: decodeSequence (q :: rest)

/-- The commands a source line stands for (R78 to R82). -/
def expand : Source → List Instr
  | .nop => [.nop]
  | .init keep => [.init (keep == 1)]
  | .cwlen sym len => [.cwlen (BitVec.ofNat 8 sym) (BitVec.ofNat 8 len)]
  | .cwbits n data => [.cwbits (BitVec.ofNat 5 n) (BitVec.ofNat 16 data)]
  | .cwinv sym => [.cwinv (BitVec.ofNat 8 sym)]
  | .tailset tlen tbits => [.tailset (BitVec.ofNat 4 tlen) (BitVec.ofNat 8 tbits)]
  | .enc sym => [.enc (BitVec.ofNat 8 sym)]
  | .eflush => [.eflush]
  | .dbyte b => [.dbyte (BitVec.ofNat 8 b)]
  | .dlast b => [.dlast (BitVec.ofNat 8 b)]
  | .dend => [.dend]
  | .cw sym code => loadCodeword (BitVec.ofNat 8 sym) code
  | .tail t => [loadTail t]
  | .encode syms => encodeSequence (syms.map (BitVec.ofNat 8))
  | .decode payload => decodeSequence (payload.map (BitVec.ofNat 8))

/-- The words of a source line, or nothing where the assembler refuses it (R78). -/
def assemble (src : Source) : Option (List Word) :=
  if src.wellFormed then some ((expand src).map encode) else none

/-! ## Reading a text line -/

/-- The characters without the blanks at both ends. -/
def trimBlanks (cs : List Char) : List Char :=
  ((cs.dropWhile (· == ' ')).reverse.dropWhile (· == ' ')).reverse

/-- A digit's value in a base of at most 16. -/
def digitValue (base : Nat) (c : Char) : Option Nat :=
  let v :=
    if 48 ≤ c.toNat ∧ c.toNat ≤ 57 then c.toNat - 48
    else if 97 ≤ c.toNat ∧ c.toNat ≤ 102 then c.toNat - 87
    else if 65 ≤ c.toNat ∧ c.toNat ≤ 70 then c.toNat - 55
    else 16
  if v < base then some v else none

/-- A non-empty run of digits as a number. -/
def digitsValue (base : Nat) : List Char → Option Nat
  | [] => none
  | cs => cs.foldl (fun v c => v.bind fun v => (digitValue base c).map fun d => base * v + d) (some 0)

/-- "Numbers are decimal, `0x` hex or `0b` binary" (R78). -/
def readNumber : List Char → Option Nat
  | '0' :: 'x' :: cs => digitsValue 16 cs
  | '0' :: 'b' :: cs => digitsValue 2 cs
  | cs => digitsValue 10 cs

/-- "Bit strings are in double quotes" (R78). -/
def readBits : List Char → Option (List Bool)
  | '"' :: cs =>
    match cs.reverse with
    | '"' :: rev =>
      rev.reverse.mapM fun c => if c = '0' then some false else if c = '1' then some true else none
    | _ => none
  | _ => none

/-- The operands of a line: separated by commas, blanks around each ignored. -/
def splitOperands (cs : List Char) : List (List Char) :=
  if trimBlanks cs = [] then []
  else (cs.splitOn ',').map trimBlanks

/-- A command or pseudo-command applied to its operands, in the order of R78. -/
def readCommand (mnemonic : List Char) (ops : List (List Char)) : Option Source :=
  if mnemonic = ['E', 'N', 'C', 'O', 'D', 'E'] then (ops.mapM readNumber).map .encode
  else if mnemonic = ['D', 'E', 'C', 'O', 'D', 'E'] then (ops.mapM readNumber).map .decode
  else
    match ops with
    | [] =>
      if mnemonic = ['N', 'O', 'P'] then some .nop
      else if mnemonic = ['E', 'F', 'L', 'U', 'S', 'H'] then some .eflush
      else if mnemonic = ['D', 'E', 'N', 'D'] then some .dend
      else none
    | [a] =>
      if mnemonic = ['I', 'N', 'I', 'T'] then (readNumber a).map .init
      else if mnemonic = ['C', 'W', 'I', 'N', 'V'] then (readNumber a).map .cwinv
      else if mnemonic = ['E', 'N', 'C'] then (readNumber a).map .enc
      else if mnemonic = ['D', 'B', 'Y', 'T', 'E'] then (readNumber a).map .dbyte
      else if mnemonic = ['D', 'L', 'A', 'S', 'T'] then (readNumber a).map .dlast
      else if mnemonic = ['T', 'A', 'I', 'L'] then (readBits a).map .tail
      else none
    | [a, b] =>
      if mnemonic = ['C', 'W'] then (readNumber a).bind fun x => (readBits b).map fun y => .cw x y
      else
        (readNumber a).bind fun x => (readNumber b).bind fun y =>
          if mnemonic = ['C', 'W', 'L', 'E', 'N'] then some (.cwlen x y)
          else if mnemonic = ['C', 'W', 'B', 'I', 'T', 'S'] then some (.cwbits x y)
          else if mnemonic = ['T', 'A', 'I', 'L', 'S', 'E', 'T'] then some (.tailset x y)
          else none
    | _ => none

/-- "One command per line, written `MNEMONIC operand, operand`" (R78). -/
def readLine (line : List Char) : Option Source :=
  let cs := trimBlanks line
  readCommand (cs.takeWhile (· != ' ')) (splitOperands (cs.dropWhile (· != ' ')))

end Sys2Proof.Machine
end

