-- ==== Sys2Proof/Machine/Reference.lean ====
section
/-! DEFINITION. The source's own whole-buffer algorithms, on bit strings: the 8-bit split of the packer
(spec/42_pack.md R122), the unpacked string (spec/43_decode.md R146), the greedy scan with its reverse map (R147), and
a walk of a code tree (R149). The machine does not use them; the laws compare it with them. -/

namespace Sys2Proof.Machine

/-- Every byte value, in increasing order (R7). -/
def symbols : List Byte := (List.range 256).map (BitVec.ofNat 8)

/-- The codeword of a symbol in the table of `s` (R29). -/
def State.codewordOf (s : State) (sym : Byte) : List Bool := (s.entry sym).codeword

/-- The stream: "the concatenation of all codewords for the input, in input order" (R58, R122). -/
def State.stream (s : State) (syms : List Byte) : List Bool := syms.flatMap s.codewordOf

/-- The full groups g_0, … of the 8-bit split, g_j = S[8j .. 8j+7] (R122). -/
def fullGroups (S : List Bool) : List (List Bool) :=
  (List.range (S.length / 8)).map fun j => (S.drop (8 * j)).take 8

/-- The final group shorter than 8 bits, S[8q .. L-1], possibly empty (R122). -/
def lastPart (S : List Bool) : List Bool := S.drop (8 * (S.length / 8))

/-- The byte of a group, `val(g)` (R55). -/
def groupByte (g : List Bool) : Byte := BitVec.ofNat 8 (val g)

/-- The payload of a stream: every group, the last one of 1 to 8 bits among them (R128). -/
def payloadOf (S : List Bool) : List Byte :=
  (fullGroups S).map groupByte ++ (if lastPart S = [] then [] else [groupByte (lastPart S)])

/-- The tail string of a non-empty stream: its last group, of 1 to 8 bits (R128). -/
def tailOf (S : List Bool) : List Bool := if lastPart S = [] then S.drop (S.length - 8) else lastPart S

/-- The unpacked string of a payload whose last byte's value is replaced by the tail (R146). -/
def unpack (payload : List Byte) (tail : List Bool) : List Bool := payload.dropLast.flatMap byteString ++ tail

/-- The reverse map: the symbol whose valid entry holds this bit string, the tail entry excluded (R140). -/
def State.reverseMap (s : State) (a : List Bool) : Option Byte :=
  symbols.find? fun x => (s.entry x).valid && decide (s.codewordOf x = a)

/-- The source's scan of the bit string `u` from the accumulator string `a`: the bytes emitted and the
accumulator string left at the end (R141, R147). -/
def greedyScan (map : List Bool → Option Byte) : List Bool → List Bool → List Byte × List Bool
  | a, [] => ([], a)
  | a, b :: u =>
    match map (a ++ [b]) with
    | some x => let r := greedyScan map [] u; (x :: r.1, r.2)
    | none => greedyScan map (a ++ [b]) u

/-- The scan of `u` by the table and the accumulator of `s`. -/
def State.scan (s : State) (u : List Bool) : List Byte × List Bool := greedyScan s.reverseMap s.accString u

/-- A binary code tree; a leaf "represents exactly one distinct input byte value" (R15, R149). -/
inductive CodeTree where
  | leaf (sym : Byte)
  | node (zero one : CodeTree)
  deriving DecidableEq, Repr

/-- The leaves with their root-to-leaf paths, "0" to the first child and "1" to the second (R16). -/
def CodeTree.paths : CodeTree → List (List Bool × Byte)
  | .leaf sym => [([], sym)]
  | .node zero one =>
    zero.paths.map (fun p => (false :: p.1, p.2)) ++ one.paths.map (fun p => (true :: p.1, p.2))

/-- The tree walk: one node per bit, a byte at each leaf, then again from the root (R149). The second component
is the path walked since the last leaf. -/
def CodeTree.walk (root : CodeTree) : CodeTree → List Bool → List Bool → List Byte × List Bool
  | _, a, [] => ([], a)
  | .leaf _, a, _ :: _ => ([], a)
  | .node zero one, a, b :: u =>
    match if b then one else zero with
    | .leaf sym => let r := walk root root [] u; (sym :: r.1, r.2)
    | .node z o => walk root (.node z o) (a ++ [b]) u

end Sys2Proof.Machine
end

