-- ==== Sys2Proof/Safety.lean ====
section
/-! DEFINITION. What a sound state is (spec/10_state.md R29 to R34, R38; spec/43_decode.md R150) and what the laws ask of a
code table (spec/00_scope.md R15). -/

namespace Sys2Proof.Machine

/-- The state invariants of the spec. Every rule of the block preserves them (R38). -/
structure Sound (s : State) : Prop where
  /-- A valid entry holds 1 to 255 bits, right-aligned (R29). -/
  entries : ∀ x, (s.entry x).valid = true →
    1 ≤ (s.entry x).len.toNat ∧ (s.entry x).bits.toNat < 2 ^ (s.entry x).len.toNat
  /-- A tail entry holds 1 to 8 bits, right-aligned (R30). -/
  tailPresent : s.tvalid = true → 1 ≤ s.tlen.toNat ∧ s.tlen.toNat ≤ 8 ∧ s.tbits.toNat < 2 ^ s.tlen.toNat
  /-- An absent tail entry reads 0 (R30). -/
  tailAbsent : s.tvalid = false → s.tlen = 0 ∧ s.tbits = 0
  /-- The entry being loaded is short of its length, not valid, and holds LCNT bits (R31, R102). -/
  loading : s.lsel = true → s.lcnt.toNat < (s.entry s.lsym).len.toNat ∧ (s.entry s.lsym).valid = false ∧
    (s.entry s.lsym).bits.toNat < 2 ^ s.lcnt.toNat
  /-- With no entry selected, LSYM and LCNT are 0 (R31). -/
  notLoading : s.lsel = false → s.lsym = 0 ∧ s.lcnt = 0
  /-- PBUF holds PCNT bits, right-aligned (R32). -/
  packer : s.pbuf.toNat < 2 ^ s.pcnt.toNat
  /-- Nothing packed: nothing pending, no last group, counters 0 (R33, R35). -/
  nothingPacked : s.pany = false → s.pcnt = 0 ∧ s.plast = 0 ∧ s.pbits = 0 ∧ s.pbytes = 0
  /-- ENCODING: at least one ENC executed (R24), and a valid codeword is not empty. -/
  somePacked : s.mode = .encoding → s.pany = true
  /-- Packing happens only in ENCODING, and EFLUSH empties PBUF (R38). -/
  packerIdle : s.mode ≠ .encoding → s.pcnt = 0
  /-- Until EFLUSH, PCNT is PBITS modulo 8 (R120, R122). -/
  packCount : s.mode = .encoding → s.pcnt.toNat = s.pbits.toNat % 8
  /-- No stream bit was packed in an invocation that is not an encode (R24). -/
  decodeOnly : s.mode = .idle ∨ s.mode = .decoding ∨ s.mode = .decDone → s.pany = false
  /-- ACC holds ACCLEN bits, right-aligned (R34). -/
  accumulator : s.acc.toNat < 2 ^ s.acclen.toNat
  /-- In IDLE the accumulator is empty (R150). -/
  accIdle : s.mode = .idle → s.acc = 0 ∧ s.acclen = 0
  /-- No error: no error recorded (R26, R27, R28, R38). -/
  noError : s.err = false → s.ecode = .none ∧ s.epos = 0 ∧ s.ecmd = 0
  /-- An error: a code of R171, and a position 0 to 8 (R26, R27). -/
  someError : s.err = true → s.ecode ≠ .none ∧ s.epos.toNat ≤ 8

/-- The bits that the format of an assigned opcode marks "0" (R71, R73). -/
def reservedMask (op : Nat) : Word :=
  if op = 0x1 then 0x0FFFFFFE#32
  else if op = 0x2 then 0x0F00FF00#32
  else if op = 0x3 then 0x0FE00000#32
  else if op = 0x4 then 0x0F00FFFF#32
  else if op = 0x5 then 0x0FFFF000#32
  else if op = 0x6 ∨ op = 0x8 ∨ op = 0x9 then 0x0FFFFF00#32
  else 0x0FFFFFFF#32

/-- The registers at the reset values of R23's last column; LEN and BITS are not among them (R190, R191). -/
def RegistersAtReset (s : State) : Prop :=
  s.mode = .idle ∧ s.err = false ∧ s.ecode = .none ∧ s.epos = 0 ∧ s.ecmd = 0 ∧ (∀ x, (s.entry x).valid = false) ∧
  s.tvalid = false ∧ s.tlen = 0 ∧ s.tbits = 0 ∧ s.lsel = false ∧ s.lsym = 0 ∧ s.lcnt = 0 ∧
  s.pbuf = 0 ∧ s.pcnt = 0 ∧ s.pany = false ∧ s.plast = 0 ∧ s.acc = 0 ∧ s.acclen = 0 ∧
  s.pbits = 0 ∧ s.pbytes = 0 ∧ s.dbits = 0 ∧ s.dsyms = 0

/-- "No codeword is a prefix of another" (R15): of two valid entries of different symbols. -/
def PrefixFree (s : State) : Prop :=
  ∀ x y, (s.entry x).valid = true → (s.entry y).valid = true → s.codewordOf x <+: s.codewordOf y → x = y

/-- The valid entries hold pairwise distinct codewords (R147). -/
def DistinctCodewords (s : State) : Prop :=
  ∀ x y, (s.entry x).valid = true → (s.entry y).valid = true → s.codewordOf x = s.codewordOf y → x = y

/-- The valid entries are exactly the leaves of the tree, each with its path as its codeword (R149). -/
def IsTreeTable (s : State) (t : CodeTree) : Prop :=
  ∀ x c, ((s.entry x).valid = true ∧ s.codewordOf x = c) ↔ (c, x) ∈ t.paths

/-- A state in which a new stream may start: IDLE with no error recorded (R193). -/
def Ready (s : State) : Prop := s.mode = .idle ∧ s.err = false

/-- The two states agree in all that a command may read: everything but LEN and BITS of the entries that are
neither valid nor being loaded (R29, R191). The draws counter, which only a reset reads, is left out too. -/
def SameForCommands (s t : State) : Prop :=
  t = { s with ct := t.ct, draws := t.draws } ∧
    ∀ x, (t.entry x).valid = (s.entry x).valid ∧
      ((s.entry x).valid = true ∨ s.lsel = true ∧ s.lsym = x → t.entry x = s.entry x)

end Sys2Proof.Machine
end

