-- ==== Sys2Proof/Certificates/Slice0/Obligations.lean ====
section
/-! DEFINITION. The statements about the block, taken from the spec's numbered rules. None is proved here. A raise is
always written out as the four fields of R172. -/

section

open Sys2Proof Sys2Proof.Machine

/-! ## Encoding (spec/30_encoding.md) -/

/-- R70 to R74: no bit of an encoding is dropped. Every command, at every value of every field, is decoded from its
own word; every `Instr` is well formed, because its fields have the format's widths. -/
def Obligations.DecodeOfEncodeIsTheCommand : Prop :=
  ∀ i : Instr, decode (encode i) = .ok i

/-- R73, R77: a word that decodes is the word of the command it decodes to, so ECMD can be written from the
command. -/
def Obligations.EncodeOfDecodeIsTheWord : Prop :=
  ∀ (w : Word) (i : Instr), decode w = .ok i → encode i = w

/-- R77: every word decodes to exactly one row of the opcode map, with its fields, or to ILLEGAL, which is a reserved
opcode or an assigned one with a reserved bit set. -/
def Obligations.EveryWordSelectsOneRowOrNone : Prop :=
  ∀ w : Word,
    let op := w.toNat / 2 ^ 28
    (∃ r ∈ opcodeRows, r.selects w = true ∧ decode w = .ok (r.ofWord w) ∧ (r.ofWord w).mnemonic = r.mnemonic ∧
      ∀ r' ∈ opcodeRows, r'.selects w = true → r'.mnemonic = r.mnemonic) ∨
    ((∀ r ∈ opcodeRows, r.selects w = false) ∧ (0xB ≤ op ∨ w &&& reservedMask op ≠ 0) ∧
      ∃ e, decode w = .error e)

/-- R73, R75: a word is ILLEGAL exactly when its opcode is 0xB to 0xF or a bit that its format marks "0" is set; and
an ILLEGAL word, written while ERR = 0, raises EILLEGAL with the word in ECMD. -/
def Obligations.ReservedOpcodeOrBitRaisesEillegal : Prop :=
  ∀ (w : Word) (s : State),
    let op := w.toNat / 2 ^ 28
    ((∃ e, decode w = .error e) ↔ 0xB ≤ op ∨ w &&& reservedMask op ≠ 0) ∧
    (s.err = false → 0xB ≤ op ∨ w &&& reservedMask op ≠ 0 →
      executeWord w s = .next { s with err := true, ecode := .illegal, epos := 0, ecmd := w })

/-- R71, R72, R74: words written out bit by bit from the formats decode to the commands they stand for. -/
def Obligations.WrittenOutWordsDecode : Prop :=
  decode 0b00000000000000000000000000000000#32 = .ok .nop ∧
  decode 0b00010000000000000000000000000001#32 = .ok (.init true) ∧
  decode 0b00100000010000010000000000000001#32 = .ok (.cwlen 65 1) ∧
  decode 0b00110000000000100000000000000010#32 = .ok (.cwbits 2 2) ∧
  decode 0b01000000010000110000000000000000#32 = .ok (.cwinv 67) ∧
  decode 0b01010000000000000000011000001011#32 = .ok (.tailset 6 0x0B) ∧
  decode 0b01100000000000000000000001000010#32 = .ok (.enc 66) ∧
  decode 0b01110000000000000000000000000000#32 = .ok .eflush ∧
  decode 0b10000000000000000000000000101100#32 = .ok (.dbyte 0x2C) ∧
  decode 0b10010000000000000000000000001011#32 = .ok (.dlast 0x0B) ∧
  decode 0b10100000000000000000000000000000#32 = .ok .dend

/-- R78: the assembler writes each operand as given where it fits its field, with 0 in every reserved bit, and refuses
it where it does not; a value outside the legal range of R76 is not refused. -/
def Obligations.AssemblerWritesOperandsAsGiven : Prop :=
  (assemble .nop = some [0x00000000#32] ∧ assemble .eflush = some [0x70000000#32] ∧
    assemble .dend = some [0xA0000000#32]) ∧
  (∀ keep, assemble (.init keep) =
    if keep ≤ 1 then some [BitVec.ofNat 32 (0x10000000 + keep)] else none) ∧
  (∀ sym len, assemble (.cwlen sym len) =
    if sym ≤ 255 ∧ len ≤ 255 then some [BitVec.ofNat 32 (0x20000000 + sym * 2 ^ 16 + len)] else none) ∧
  (∀ n data, assemble (.cwbits n data) =
    if n ≤ 31 ∧ data ≤ 0xFFFF then some [BitVec.ofNat 32 (0x30000000 + n * 2 ^ 16 + data)] else none) ∧
  (∀ sym, assemble (.cwinv sym) =
    if sym ≤ 255 then some [BitVec.ofNat 32 (0x40000000 + sym * 2 ^ 16)] else none) ∧
  (∀ tlen tbits, assemble (.tailset tlen tbits) =
    if tlen ≤ 15 ∧ tbits ≤ 255 then some [BitVec.ofNat 32 (0x50000000 + tlen * 2 ^ 8 + tbits)] else none) ∧
  (∀ b, assemble (.enc b) = if b ≤ 255 then some [BitVec.ofNat 32 (0x60000000 + b)] else none) ∧
  (∀ b, assemble (.dbyte b) = if b ≤ 255 then some [BitVec.ofNat 32 (0x80000000 + b)] else none) ∧
  (∀ b, assemble (.dlast b) = if b ≤ 255 then some [BitVec.ofNat 32 (0x90000000 + b)] else none)

/-- R79: the chunks of `CW sym, "c"` are cut from the left, sixteen bits each but the last, and the pseudo-command is
CWLEN followed by one CWBITS for each. -/
def Obligations.CwExpandsIntoSixteenBitChunks : Prop :=
  ∀ (sym : Byte) (c : List Bool), 1 ≤ c.length → c.length ≤ 255 →
    let m := (c.length + 15) / 16
    let chunk := fun j => (c.drop (16 * j)).take 16
    (loadCodeword sym c).length = m + 1 ∧
    (loadCodeword sym c)[0]? = some (.cwlen sym (BitVec.ofNat 8 c.length)) ∧
    (∀ j, j < m → (loadCodeword sym c)[j + 1]? =
      some (.cwbits (BitVec.ofNat 5 (chunk j).length) (BitVec.ofNat 16 (val (chunk j))))) ∧
    (∀ j, j + 1 < m → (chunk j).length = 16) ∧ (chunk (m - 1)).length = c.length - 16 * (m - 1) ∧
    (List.range m).flatMap chunk = c

/-! ## Steps, reset and dispatch (spec/40_control.md, spec/70_reset_and_hazards.md) -/

/-- R51, R90: a step executes the command the host's next word decodes to, on the state with that access taken; a
word that is ILLEGAL is dropped while ERR = 1 and raises EILLEGAL otherwise; with no access waiting the block holds
its state (R183). The list of accesses is the model's (log entry 1). -/
def Obligations.StepRunsTheDecodedCommand : Prop :=
  ∀ s : State,
    (s.host = [] → step s = .next s) ∧
    (∀ w rest, s.host = .command w :: rest →
      (∀ i, decode w = .ok i → step s = exec i { s with host := rest }) ∧
      (∀ e, decode w = .error e →
        (s.err = true → step s = .next { s with host := rest }) ∧
        (s.err = false → step s = .next
          { s with host := rest, err := true, ecode := .illegal, epos := 0, ecmd := w })))

/-- R61: commands take effect one at a time, in the order the host issued them. -/
def Obligations.CommandsTakeEffectInHostOrder : Prop :=
  ∀ (is : List Instr) (rest : List HostAccess) (s t : State),
    s.host = is.map (fun i => HostAccess.command (encode i)) ++ rest →
    execAll is { s with host := rest } = .next t →
    Host.Core.run Sys2Proof.core is.length s = .next t

/-- The model's deduction, not a rule of the spec (log entry 7, DEDUCED): no command and no access of the host stops
the block. It is read from R90, which executes every word, and R172, by which a raise is a state. That a step with no
access waiting also answers a next state is the model's choice (log entry 1). -/
def Obligations.EveryStepAnswersANextState : Prop :=
  (∀ (i : Instr) (s : State), ∃ t, exec i s = .next t) ∧ ∀ s : State, ∃ t, step s = .next t

/-- What a hardware reset leaves. From the spec: every register at its reset value and IRQ = 0 (R23, R190), LEN and
BITS unspecified (R191, S1), bytes already delivered kept (R192), and of the bytes that an interrupted command would
have emitted some prefix (R190, S2). The model's own choices, which no rule states: both channels are empty at
`State.reset` (log entry 5, DESIGN CHOICE, unsafe); the unspecified values are numbered by `draws` (log entry 2, DESIGN
CHOICE); a reset arrives as an access of the list `host` (log entry 1, DESIGN CHOICE). How the prefix is drawn (log
entries 3 and 12) is not said here. -/
def Obligations.ResetLeavesTheTabledValues : Prop :=
  RegistersAtReset State.reset ∧ State.reset.chanP = [] ∧ State.reset.chanS = [] ∧
  (∀ s rest, s.host = .reset :: rest → ∃ t, step s = .next t ∧ RegistersAtReset t ∧
    (∀ x, t.entry x = ⟨false, Config.resetLen s.draws x, Config.resetBits s.draws x⟩) ∧ t.irq = false ∧
    t.chanP = s.chanP ∧ t.chanS = s.chanS ∧ t.host = rest) ∧
  (∀ s w rest u p q, s.host = .resetDuring w :: rest → executeWord w { s with host := rest } = .next u →
    u.chanP = s.chanP ++ p → u.chanS = s.chanS ++ q →
    ∃ t, step s = .next t ∧ RegistersAtReset t ∧
      (∀ x, t.entry x = ⟨false, Config.resetLen s.draws x, Config.resetBits s.draws x⟩) ∧ t.irq = false ∧ t.host = rest ∧
      (∃ p', p' <+: p ∧ t.chanP = s.chanP ++ p') ∧ ∃ q', q' <+: q ∧ t.chanS = s.chanS ++ q')

/-- R90, R173: while ERR = 1 every word but NOP's and a legal INIT's is dropped, ILLEGAL ones too: no state change
and no output. -/
def Obligations.ErrorStateDropsCommands : Prop :=
  ∀ (w : Word) (s : State), s.err = true → w ≠ 0x00000000#32 → w ≠ 0x10000000#32 → w ≠ 0x10000001#32 →
    executeWord w s = .next s

/-- R91: the permission table. A command in a MODE outside its row raises ESEQ and has no other effect; in a MODE of
its row it does not raise ESEQ. -/
def Obligations.DisallowedModeRaisesEseq : Prop :=
  ∀ (i : Instr) (s : State), s.err = false →
    let allowed : List Mode := match i with
      | .nop => [.idle, .encoding, .encDone, .decoding, .decDone]
      | .init _ => [.idle, .encoding, .encDone, .decoding, .decDone]
      | .cwlen _ _ => [.idle]
      | .cwbits _ _ => [.idle]
      | .cwinv _ => [.idle]
      | .tailset _ _ => [.idle]
      | .enc _ => [.idle, .encoding]
      | .eflush => [.idle, .encoding]
      | .dbyte _ => [.idle, .decoding]
      | .dlast _ => [.idle, .decoding]
      | .dend => [.idle]
    (s.mode ∉ allowed → exec i s = .next { s with err := true, ecode := .seq, epos := 0, ecmd := encode i }) ∧
    (s.mode ∈ allowed → s.ecode ≠ .seq → ∀ t, exec i s = .next t → t.ecode ≠ .seq)

/-- R93: NOP leaves every state element and both channels unchanged, in every MODE and while ERR = 1; its word is
0x00000000 exactly, and any other word with OP = 0x0 is ILLEGAL. -/
def Obligations.NopChangesNothing : Prop :=
  (∀ s : State, exec .nop s = .next s) ∧ decode 0x00000000#32 = .ok .nop ∧
    ∀ w : Word, w.toNat < 2 ^ 28 → w ≠ 0x00000000#32 → ∃ e, decode w = .error e

/-- R92: INIT, in every MODE and while ERR = 1. With KEEP = 0 every entry becomes invalid and the tail absent, LEN
and BITS unchanged; with KEEP = 1 table and tail survive; all else is cleared and the channels stand. Its words are
0x10000000 and 0x10000001, and any other word with OP = 0x1 is ILLEGAL. -/
def Obligations.InitStartsAnInvocation : Prop :=
  (decode 0x10000000#32 = .ok (.init false) ∧ decode 0x10000001#32 = .ok (.init true) ∧
    ∀ w : Word, w.toNat / 2 ^ 28 = 0x1 → w ≠ 0x10000000#32 → w ≠ 0x10000001#32 → ∃ e, decode w = .error e) ∧
  ∀ (keep : Bool) (s : State), ∃ t, exec (.init keep) s = .next t ∧
    (∀ x, t.entry x = { s.entry x with valid := keep && (s.entry x).valid }) ∧
    t = { s with
      ct := t.ct
      tvalid := keep && s.tvalid
      tlen := if keep then s.tlen else 0
      tbits := if keep then s.tbits else 0
      lsel := false, lsym := 0, lcnt := 0
      pbuf := 0, pcnt := 0, pany := false, plast := 0
      acc := 0, acclen := 0
      pbits := 0, pbytes := 0, dbits := 0, dsyms := 0
      err := false, ecode := .none, epos := 0, ecmd := 0
      mode := .idle }

/-! ## The code table (spec/41_table.md) -/

/-- R101: CWLEN. -/
def Obligations.CwlenBeginsLoadingAnEntry : Prop :=
  ∀ (sym : Byte) (len : BitVec 8) (s : State), s.err = false →
    let cmd : Word := 0x20000000#32 ||| sym.setWidth 32 <<< 16 ||| len.setWidth 32
    encode (.cwlen sym len) = cmd ∧
    (s.mode = .idle → len ≠ 0 → ∃ t, exec (.cwlen sym len) s = .next t ∧
      t.entry sym = ⟨false, len, 0⟩ ∧ (∀ x, x ≠ sym → t.entry x = s.entry x) ∧
      t = { s with ct := t.ct, lsel := true, lsym := sym, lcnt := 0 }) ∧
    (s.mode = .idle → len = 0 → exec (.cwlen sym len) s = .next
      { s with err := true, ecode := .badLen, epos := 0, ecmd := cmd }) ∧
    (s.mode ≠ .idle → exec (.cwlen sym len) s = .next
      { s with err := true, ecode := .seq, epos := 0, ecmd := cmd })

/-- R102: CWBITS, its effect on the entry as numbers: BITS shifted left by N plus the low N bits of DATA, without
loss. -/
def Obligations.CwbitsAppendsToTheSelectedEntry : Prop :=
  ∀ (n : BitVec 5) (data : BitVec 16) (s : State), Sound s → s.err = false →
    let cmd : Word := 0x30000000#32 ||| n.setWidth 32 <<< 16 ||| data.setWidth 32
    let e := s.entry s.lsym
    let cnt := s.lcnt.toNat + n.toNat
    encode (.cwbits n data) = cmd ∧
    (s.mode = .idle → 1 ≤ n.toNat → n.toNat ≤ 16 → s.lsel = true → cnt ≤ e.len.toNat →
      ∃ t, exec (.cwbits n data) s = .next t ∧
        (t.entry s.lsym).valid = decide (cnt = e.len.toNat) ∧ (t.entry s.lsym).len = e.len ∧
        (t.entry s.lsym).bits.toNat = e.bits.toNat * 2 ^ n.toNat + data.toNat % 2 ^ n.toNat ∧
        (∀ x, x ≠ s.lsym → t.entry x = s.entry x) ∧
        t.lsel = decide (cnt < e.len.toNat) ∧
        t.lsym = (if cnt < e.len.toNat then s.lsym else 0) ∧
        t.lcnt.toNat = (if cnt < e.len.toNat then cnt else 0) ∧
        t = { s with ct := t.ct, lsel := t.lsel, lsym := t.lsym, lcnt := t.lcnt }) ∧
    (s.mode = .idle → n.toNat = 0 ∨ 16 < n.toNat → exec (.cwbits n data) s = .next
      { s with err := true, ecode := .badLen, epos := 0, ecmd := cmd }) ∧
    (s.mode = .idle → 1 ≤ n.toNat → n.toNat ≤ 16 → s.lsel = false ∨ e.len.toNat < cnt →
      exec (.cwbits n data) s = .next { s with err := true, ecode := .load, epos := 0, ecmd := cmd }) ∧
    (s.mode ≠ .idle → exec (.cwbits n data) s = .next
      { s with err := true, ecode := .seq, epos := 0, ecmd := cmd })

/-- R103: CWINV. -/
def Obligations.CwinvRemovesAnEntry : Prop :=
  ∀ (sym : Byte) (s : State), s.err = false →
    let cmd : Word := 0x40000000#32 ||| sym.setWidth 32 <<< 16
    encode (.cwinv sym) = cmd ∧
    (s.mode = .idle → ∃ t, exec (.cwinv sym) s = .next t ∧
      t.entry sym = { s.entry sym with valid := false } ∧ (∀ x, x ≠ sym → t.entry x = s.entry x) ∧
      (s.lsel = true → s.lsym = sym → t = { s with ct := t.ct, lsel := false, lsym := 0, lcnt := 0 }) ∧
      (s.lsel = false ∨ s.lsym ≠ sym → t = { s with ct := t.ct })) ∧
    (s.mode ≠ .idle → exec (.cwinv sym) s = .next
      { s with err := true, ecode := .seq, epos := 0, ecmd := cmd })

/-- R106: TAILSET. -/
def Obligations.TailsetWritesTheTail : Prop :=
  ∀ (tlen : BitVec 4) (tbits : BitVec 8) (s : State), s.err = false →
    let cmd : Word := 0x50000000#32 ||| tlen.setWidth 32 <<< 8 ||| tbits.setWidth 32
    encode (.tailset tlen tbits) = cmd ∧
    (s.mode = .idle → 1 ≤ tlen.toNat → tlen.toNat ≤ 8 → exec (.tailset tlen tbits) s = .next
      { s with tvalid := true, tlen := tlen, tbits := BitVec.ofNat 8 (tbits.toNat % 2 ^ tlen.toNat) }) ∧
    (s.mode = .idle → tlen.toNat = 0 → exec (.tailset tlen tbits) s = .next
      { s with tvalid := false, tlen := 0, tbits := 0 }) ∧
    (s.mode = .idle → 8 < tlen.toNat → exec (.tailset tlen tbits) s = .next
      { s with err := true, ecode := .badLen, epos := 0, ecmd := cmd }) ∧
    (s.mode ≠ .idle → exec (.tailset tlen tbits) s = .next
      { s with err := true, ecode := .seq, epos := 0, ecmd := cmd })

/-- R79 with R57, R101 and R102: the commands of `CW sym, "c"` load exactly the codeword c and change nothing else
but the loader. -/
def Obligations.CwPseudoCommandLoadsTheCodeword : Prop :=
  ∀ (sym : Byte) (c : List Bool) (s : State), Sound s → Ready s → 1 ≤ c.length → c.length ≤ 255 →
    ∃ t, execAll (loadCodeword sym c) s = .next t ∧
      t.entry sym = ⟨true, BitVec.ofNat 8 c.length, BitVec.ofNat 255 (val c)⟩ ∧ t.codewordOf sym = c ∧
      (∀ x, x ≠ sym → t.entry x = s.entry x) ∧
      t = { s with ct := t.ct, lsel := false, lsym := 0, lcnt := 0 }

/-- R193: "Tables written in any order within step 2 are equivalent". -/
def Obligations.LoadOrderDoesNotMatter : Prop :=
  ∀ (x y : Byte) (c d : List Bool) (s : State), Sound s → Ready s → x ≠ y →
    1 ≤ c.length → c.length ≤ 255 → 1 ≤ d.length → d.length ≤ 255 →
    ∃ t, execAll (loadCodeword x c ++ loadCodeword y d) s = .next t ∧
      execAll (loadCodeword y d ++ loadCodeword x c) s = .next t

/-- R80 with R106: `TAIL "t"` makes t the tail string, or removes the tail when t is empty. -/
def Obligations.TailPseudoCommandSetsTheTail : Prop :=
  ∀ (str : List Bool) (s : State), Ready s → str.length ≤ 8 →
    ∃ t, exec (loadTail str) s = .next t ∧ t.tailString = str ∧ t.tvalid = decide (str ≠ []) ∧
      t = { s with tvalid := t.tvalid, tlen := t.tlen, tbits := t.tbits }

/-- R100: no command of the family emits on a channel or changes MODE, the packer, the decoder or the counters. -/
def Obligations.TableCommandsTouchOnlyTheTable : Prop :=
  ∀ (i : Instr) (s t : State),
    (∃ sym len, i = .cwlen sym len) ∨ (∃ n data, i = .cwbits n data) ∨ (∃ sym, i = .cwinv sym) ∨
      (∃ tlen tbits, i = .tailset tlen tbits) →
    exec i s = .next t →
    t = { s with
      ct := t.ct, tvalid := t.tvalid, tlen := t.tlen, tbits := t.tbits
      lsel := t.lsel, lsym := t.lsym, lcnt := t.lcnt
      err := t.err, ecode := t.ecode, epos := t.epos, ecmd := t.ecmd } ∧
    (s.mode ≠ .idle → t.ct = s.ct ∧ t.tvalid = s.tvalid ∧ t.tlen = s.tlen ∧ t.tbits = s.tbits)

/-- R64, R197: one stream, one table. Outside IDLE no command but INIT changes the code table, and none but INIT and
EFLUSH the tail. -/
def Obligations.TableIsStableOutsideIdle : Prop :=
  ∀ (i : Instr) (s t : State), s.mode ≠ .idle → (∀ keep, i ≠ .init keep) → exec i s = .next t →
    t.ct = s.ct ∧ t.lsel = s.lsel ∧ t.lsym = s.lsym ∧ t.lcnt = s.lcnt ∧
    (i ≠ .eflush → t.tvalid = s.tvalid ∧ t.tlen = s.tlen ∧ t.tbits = s.tbits)

/-! ## The packer (spec/42_pack.md) -/

/-- R120: PackBit, as numbers. -/
def Obligations.PackBitEmitsEveryEighthBit : Prop :=
  ∀ (b : Bool) (s : State), s.pbuf.toNat < 2 ^ s.pcnt.toNat →
    let v := 2 * s.pbuf.toNat + b.toNat
    v < 2 ^ (s.pcnt.toNat + 1) ∧
    (s.pcnt.toNat = 7 → packBit s b = { s with
      pbits := s.pbits + 1, pany := true, chanP := s.chanP ++ [BitVec.ofNat 8 v], plast := BitVec.ofNat 8 v
      pbytes := s.pbytes + 1, pbuf := 0, pcnt := 0 }) ∧
    (s.pcnt.toNat ≠ 7 → packBit s b = { s with
      pbits := s.pbits + 1, pany := true, pbuf := BitVec.ofNat 8 v, pcnt := BitVec.ofNat 3 (s.pcnt.toNat + 1) })

/-- R121, R55: ENC appends the codeword to the pending bits; the full groups of the result are emitted, first bit in
bit 7, and the rest stays pending. EMISS and ESEQ change nothing but the error fields. -/
def Obligations.EncPacksTheCodeword : Prop :=
  ∀ (sym : Byte) (s : State), Sound s → s.err = false →
    let cmd : Word := 0x60000000#32 ||| sym.setWidth 32
    let S := s.pendingString ++ s.codewordOf sym
    encode (.enc sym) = cmd ∧
    (s.mode = .idle ∨ s.mode = .encoding → (s.entry sym).valid = true → exec (.enc sym) s = .next { s with
      mode := .encoding
      chanP := s.chanP ++ (fullGroups S).map groupByte
      pbuf := groupByte (lastPart S)
      pcnt := BitVec.ofNat 3 (S.length % 8)
      pany := true
      plast := (((fullGroups S).map groupByte).getLast?).getD s.plast
      pbits := s.pbits + BitVec.ofNat 32 (s.entry sym).len.toNat
      pbytes := s.pbytes + BitVec.ofNat 32 (S.length / 8) }) ∧
    (s.mode = .idle ∨ s.mode = .encoding → (s.entry sym).valid = false → exec (.enc sym) s = .next
      { s with err := true, ecode := .miss, epos := 0, ecmd := cmd }) ∧
    (s.mode ≠ .idle → s.mode ≠ .encoding → exec (.enc sym) s = .next
      { s with err := true, ecode := .seq, epos := 0, ecmd := cmd })

/-- R126: EFLUSH, its three branches: a partial last group, a length that is a non-zero multiple of 8, an empty
stream. -/
def Obligations.EflushEndsTheStream : Prop :=
  ∀ s : State, s.err = false →
    encode .eflush = 0x70000000#32 ∧
    (s.mode = .idle ∨ s.mode = .encoding →
      (s.pcnt ≠ 0 → exec .eflush s = .next { s with
        mode := .encDone, chanP := s.chanP ++ [s.pbuf], pbytes := s.pbytes + 1
        tvalid := true, tlen := BitVec.ofNat 4 s.pcnt.toNat, tbits := s.pbuf, pbuf := 0, pcnt := 0 }) ∧
      (s.pcnt = 0 → s.pany = true → exec .eflush s = .next { s with
        mode := .encDone, tvalid := true, tlen := 8, tbits := s.plast, pbuf := 0, pcnt := 0 }) ∧
      (s.pcnt = 0 → s.pany = false → exec .eflush s = .next { s with
        mode := .encDone, tvalid := false, tlen := 0, tbits := 0, pbuf := 0, pcnt := 0 })) ∧
    (s.mode ≠ .idle → s.mode ≠ .encoding → exec .eflush s = .next
      { s with err := true, ecode := .seq, epos := 0, ecmd := 0x70000000#32 })

/-- R122: an invocation's ENCs give the source's whole-buffer split of the concatenated codewords. -/
def Obligations.PackerEqualsWholeBufferSplit : Prop :=
  ∀ (syms : List Byte) (s : State), Sound s → Ready s → (∀ x ∈ syms, (s.entry x).valid = true) →
    let S := s.stream syms
    ∃ t, execAll (syms.map .enc) s = .next t ∧ t.err = false ∧
      t.chanP = s.chanP ++ (fullGroups S).map groupByte ∧ t.pendingString = lastPart S ∧
      t.pbits = BitVec.ofNat 32 S.length ∧ t.pbytes = BitVec.ofNat 32 (S.length / 8) ∧
      t.ct = s.ct ∧ t.chanS = s.chanS

/-- R127, R128: after EFLUSH the payload has n bytes with L = 8(n - 1) + TLEN; all but its last byte, and then the
tail, spell the stream; its last byte is the value of the tail. An empty stream has no payload and no tail. -/
def Obligations.PackingBitCountLaw : Prop :=
  ∀ (syms : List Byte) (s : State), Sound s → Ready s → (∀ x ∈ syms, (s.entry x).valid = true) →
    let S := s.stream syms
    ∃ t payload, execAll (encodeSequence syms) s = .next t ∧ t.err = false ∧ t.mode = .encDone ∧
      t.chanP = s.chanP ++ payload ∧ payload.length = (S.length + 7) / 8 ∧
      t.pbytes = BitVec.ofNat 32 payload.length ∧
      (S.length = 0 → t.tvalid = false) ∧
      (1 ≤ S.length → t.tvalid = true ∧ 1 ≤ t.tlen.toNat ∧ t.tlen.toNat ≤ 8 ∧
        S.length = 8 * (payload.length - 1) + t.tlen.toNat ∧
        payload.dropLast.flatMap byteString ++ t.tailString = S ∧
        payload.getLast? = some (BitVec.ofNat 8 (val t.tailString)))

/-- R123 and R143: how many bytes a command puts on each channel. One ENC emits (PCNT + LEN) / 8 bytes, at most 32;
one EFLUSH at most 1; one DBYTE, DLAST or DEND at most 8 on S; nothing else emits. -/
def Obligations.OutputBounds : Prop :=
  ∀ (i : Instr) (s t : State), Sound s → exec i s = .next t →
    (∃ p, t.chanP = s.chanP ++ p ∧ p.length ≤ 32 ∧
      (∀ sym, i = .enc sym → t.err = false →
        p.length = (s.pcnt.toNat + (s.entry sym).len.toNat) / 8) ∧
      (i = .eflush → p.length ≤ 1) ∧ ((∀ sym, i ≠ .enc sym) → i ≠ .eflush → p = [])) ∧
    (∃ q, t.chanS = s.chanS ++ q ∧ q.length ≤ 8 ∧
      ((∀ b, i ≠ .dbyte b) → (∀ b, i ≠ .dlast b) → i ≠ .dend → q = []))

/-! ## The decoder (spec/43_decode.md) -/

/-- R141 with R140: DecodeBit, the accumulator and the codewords read as bit strings. The tail takes no part. -/
def Obligations.DecodeBitMatchesGreedily : Prop :=
  ∀ (cmd : Word) (i : Nat) (b : Bool) (s : State),
    (∀ x, (s.entry x).valid = true →
      1 ≤ (s.entry x).len.toNat ∧ (s.entry x).bits.toNat < 2 ^ (s.entry x).len.toNat) →
    s.acc.toNat < 2 ^ s.acclen.toNat →
    let a := s.accString ++ [b]
    let s1 := { s with
      acc := BitVec.ofNat 255 (2 * s.acc.toNat + b.toNat), acclen := s.acclen + 1, dbits := s.dbits + 1 }
    let holds := fun x => (s.entry x).valid = true ∧ s.codewordOf x = a
    (s.acclen = 255 → decodeBit cmd i b s = .ended
      { s with err := true, ecode := .accOvf, epos := BitVec.ofNat 4 i, ecmd := cmd }) ∧
    (s.acclen ≠ 255 →
      s1.accString = a ∧
      ((∀ x, ¬holds x) → decodeBit cmd i b s = .running s1) ∧
      (∀ x, holds x → (∀ y, holds y → y = x) → decodeBit cmd i b s = .running
        { s1 with chanS := s.chanS ++ [x], dsyms := s.dsyms + 1, acc := 0, acclen := 0 }) ∧
      (∀ x y, x ≠ y → holds x → holds y → decodeBit cmd i b s = .ended
        { s1 with err := true, ecode := .dup, epos := BitVec.ofNat 4 i, ecmd := cmd }))

/-- R143, R55: DBYTE feeds its eight bits, bit 7 first, at positions 0 to 7. -/
def Obligations.DbyteFeedsEightBits : Prop :=
  ∀ (b : Byte) (s : State), s.err = false →
    let cmd : Word := 0x80000000#32 ||| b.setWidth 32
    encode (.dbyte b) = cmd ∧
    (s.mode = .idle ∨ s.mode = .decoding → exec (.dbyte b) s = .next
      (((((((((Flow.running { s with mode := .decoding }).andThen
        (decodeBit cmd 0 (b.getLsbD 7))).andThen
        (decodeBit cmd 1 (b.getLsbD 6))).andThen
        (decodeBit cmd 2 (b.getLsbD 5))).andThen
        (decodeBit cmd 3 (b.getLsbD 4))).andThen
        (decodeBit cmd 4 (b.getLsbD 3))).andThen
        (decodeBit cmd 5 (b.getLsbD 2))).andThen
        (decodeBit cmd 6 (b.getLsbD 1))).andThen
        (decodeBit cmd 7 (b.getLsbD 0))).state) ∧
    (s.mode ≠ .idle → s.mode ≠ .decoding → exec (.dbyte b) s = .next
      { s with err := true, ecode := .seq, epos := 0, ecmd := cmd })

/-- R143 with R147: on a table of distinct codewords, and with room in the accumulator, DBYTE completes as the
source's scan of its eight bits. -/
def Obligations.DbyteDecodesAsTheScan : Prop :=
  ∀ (b : Byte) (s : State), Sound s → DistinctCodewords s → s.err = false →
    s.mode = .idle ∨ s.mode = .decoding → s.acclen.toNat + 8 ≤ 255 →
    let r := greedyScan s.reverseMap s.accString (byteString b)
    exec (.dbyte b) s = .next { s with
      mode := .decoding
      chanS := s.chanS ++ r.1
      acc := BitVec.ofNat 255 (val r.2)
      acclen := BitVec.ofNat 8 r.2.length
      dbits := s.dbits + 8
      dsyms := s.dsyms + BitVec.ofNat 32 r.1.length }

/-- R144: DLAST. Its byte has no effect but in ECMD; ENOTAIL is checked before anything else takes effect; the tail is
fed in its place and the stream must end with an empty accumulator. -/
def Obligations.DlastFeedsTheTail : Prop :=
  ∀ (b : Byte) (s : State), s.err = false →
    let cmd : Word := 0x90000000#32 ||| b.setWidth 32
    encode (.dlast b) = cmd ∧
    (s.mode = .idle ∨ s.mode = .decoding →
      (s.tvalid = false → exec (.dlast b) s = .next
        { s with err := true, ecode := .noTail, epos := 0, ecmd := cmd }) ∧
      (s.tvalid = true →
        (∀ u, feedBits cmd 0 (str s.tlen.toNat s.tbits.toNat) { s with mode := .decDone } = .running u →
          (u.acclen = 0 → exec (.dlast b) s = .next u) ∧
          (u.acclen ≠ 0 → exec (.dlast b) s = .next
            { u with err := true, ecode := .dangle, epos := s.tlen, ecmd := cmd })) ∧
        (∀ u, feedBits cmd 0 (str s.tlen.toNat s.tbits.toNat) { s with mode := .decDone } = .ended u →
          exec (.dlast b) s = .next u))) ∧
    (s.mode ≠ .idle → s.mode ≠ .decoding → exec (.dlast b) s = .next
      { s with err := true, ecode := .seq, epos := 0, ecmd := cmd }) ∧
    (∀ b' t t', exec (.dlast b) s = .next t → exec (.dlast b') s = .next t' → t' = { t with ecmd := t'.ecmd })

/-- R144 with R142 and R147: DLAST on a table of distinct codewords, with room in the accumulator: it completes when
the source's scan of the tail leaves nothing, and raises EDANGLE when it leaves an unmatched string. -/
def Obligations.DlastDecodesTheTail : Prop :=
  ∀ (b : Byte) (s : State), Sound s → DistinctCodewords s → s.err = false →
    s.mode = .idle ∨ s.mode = .decoding → s.tvalid = true → s.acclen.toNat + s.tlen.toNat ≤ 255 →
    let r := greedyScan s.reverseMap s.accString s.tailString
    let t := { s with
      mode := .decDone
      chanS := s.chanS ++ r.1
      acc := BitVec.ofNat 255 (val r.2)
      acclen := BitVec.ofNat 8 r.2.length
      dbits := s.dbits + BitVec.ofNat 32 s.tlen.toNat
      dsyms := s.dsyms + BitVec.ofNat 32 r.1.length }
    (r.2 = [] → exec (.dlast b) s = .next t) ∧
    (r.2 ≠ [] → exec (.dlast b) s = .next
      { t with err := true, ecode := .dangle, epos := s.tlen, ecmd := encode (.dlast b) })

/-- R145: DEND. With no tail it emits nothing and succeeds; with a tail the tail alone is fed, as DLAST feeds it. -/
def Obligations.DendFeedsTheTailAlone : Prop :=
  ∀ s : State, Sound s → s.err = false →
    let cmd : Word := 0xA0000000#32
    encode .dend = cmd ∧
    (s.mode = .idle →
      (s.tvalid = false → exec .dend s = .next { s with mode := .decDone }) ∧
      (s.tvalid = true →
        (∀ u, feedBits cmd 0 (str s.tlen.toNat s.tbits.toNat) { s with mode := .decDone } = .running u →
          (u.acclen = 0 → exec .dend s = .next u) ∧
          (u.acclen ≠ 0 → exec .dend s = .next
            { u with err := true, ecode := .dangle, epos := s.tlen, ecmd := cmd })) ∧
        (∀ u, feedBits cmd 0 (str s.tlen.toNat s.tbits.toNat) { s with mode := .decDone } = .ended u →
          exec .dend s = .next u))) ∧
    (s.mode ≠ .idle → exec .dend s = .next { s with err := true, ecode := .seq, epos := 0, ecmd := cmd })

/-- R145 with R142 and R147: DEND with a tail, on a table of distinct codewords. -/
def Obligations.DendDecodesTheTail : Prop :=
  ∀ s : State, Sound s → DistinctCodewords s → s.err = false → s.mode = .idle → s.tvalid = true →
    let r := greedyScan s.reverseMap [] s.tailString
    let t := { s with
      mode := .decDone
      chanS := s.chanS ++ r.1
      acc := BitVec.ofNat 255 (val r.2)
      acclen := BitVec.ofNat 8 r.2.length
      dbits := s.dbits + BitVec.ofNat 32 s.tlen.toNat
      dsyms := s.dsyms + BitVec.ofNat 32 r.1.length }
    (r.2 = [] → exec .dend s = .next t) ∧
    (r.2 ≠ [] → exec .dend s = .next
      { t with err := true, ecode := .dangle, epos := s.tlen, ecmd := encode .dend })

/-- R146: the DECODE sequence feeds the decoder exactly the unpacked string: but for MODE and the error fields, the
block ends as if the whole string had been fed at once, and then tested for a left-over. The value of the last payload
byte takes no part. -/
def Obligations.DecodeSequenceFeedsTheUnpackedString : Prop :=
  ∀ (payload : List Byte) (cmd : Word) (s : State), Sound s → Ready s →
    (payload ≠ [] → s.tvalid = true) →
    ∃ t, execAll (decodeSequence payload) s = .next t ∧
      let u := (feedBits cmd 0 (unpack payload s.tailString) s).state
      t.chanS = u.chanS ∧ t.acc = u.acc ∧ t.acclen = u.acclen ∧ t.dbits = u.dbits ∧ t.dsyms = u.dsyms ∧
      (t.err = false ↔ u.err = false ∧ u.acclen = 0) ∧
      t.ecode = (if u.err then u.ecode else if u.acclen = 0 then .none else .dangle) ∧
      t = { s with
        mode := t.mode, chanS := t.chanS, acc := t.acc, acclen := t.acclen, dbits := t.dbits, dsyms := t.dsyms
        err := t.err, ecode := t.ecode, epos := t.epos, ecmd := t.ecmd }

/-- R147: with pairwise distinct codewords the DECODE sequence emits exactly the bytes of the source's scan, and
ends without error exactly when the scan ends with an empty accumulator. The error is EACCOVF where the scan's left-over
overruns 255 bits, and EDANGLE otherwise. -/
def Obligations.DecoderEqualsTheGreedyScan : Prop :=
  ∀ (payload : List Byte) (s : State), Sound s → Ready s → DistinctCodewords s →
    (payload ≠ [] → s.tvalid = true) →
    let r := greedyScan s.reverseMap [] (unpack payload s.tailString)
    ∃ t, execAll (decodeSequence payload) s = .next t ∧ t.chanS = s.chanS ++ r.1 ∧ (t.err = false ↔ r.2 = []) ∧
      t.ecode = (if r.2 = [] then .none else if r.2.length ≤ 255 then .dangle else .accOvf)

/-- R148: the round-trip law. `ENCODE s`, `INIT 1`, `DECODE p` for the payload p emitted on P gives S exactly s, and
ERR stays 0, for every byte sequence and every prefix-free table that has its bytes. For the empty sequence EFLUSH
leaves no tail, and DEND emits nothing. -/
def Obligations.RoundTripLaw : Prop :=
  ∀ (syms : List Byte) (s : State), Sound s → Ready s → PrefixFree s →
    (∀ x ∈ syms, (s.entry x).valid = true) →
    ∃ t payload u, execAll (encodeSequence syms) s = .next t ∧ t.err = false ∧ t.chanP = s.chanP ++ payload ∧
      execAll (.init true :: decodeSequence payload) t = .next u ∧ u.err = false ∧ u.mode = .decDone ∧
      u.chanS = s.chanS ++ syms ∧ (syms = [] → t.tvalid = false ∧ decodeSequence payload = [.dend])

/-- R149: on a table that is the leaves of a code tree, the bytes the block emits are those of the walk of the
tree, one node per bit, and it ends without error exactly when the walk ends at the root. -/
def Obligations.TreeWalkEmitsTheSameBytes : Prop :=
  ∀ (root : CodeTree) (payload : List Byte) (s : State), Sound s → Ready s → DistinctCodewords s → IsTreeTable s root →
    (∀ x, root ≠ .leaf x) → (payload ≠ [] → s.tvalid = true) →
    let r := root.walk root [] (unpack payload s.tailString)
    ∃ t, execAll (decodeSequence payload) s = .next t ∧ t.chanS = s.chanS ++ r.1 ∧ (t.err = false ↔ r.2 = [])

/-- R196: a group's byte, rendered as eight digits, is its bits right-aligned behind zeros; so a last byte of k bits fed
with DBYTE is 8 - k zero bits followed by the k tail bits. -/
def Obligations.GroupByteIsRightAligned : Prop :=
  ∀ g : List Bool, g.length ≤ 8 →
    byteString (groupByte g) = List.replicate (8 - g.length) false ++ g

/-! ## Errors (spec/60_exceptions.md) -/

/-- R175, R176: a raise inside a bit string. The bits before the failing one were fully processed and stand; EPOS is
their number. EACCOVF does not append its bit; EDUP has appended it, and emits nothing for it. -/
def Obligations.FailingBitIsRecorded : Prop :=
  ∀ (cmd : Word) (u : List Bool) (s t : State), s.err = false → feedBits cmd 0 u s = .ended t →
    ∃ (i : Nat) (b : Bool) (m : State), u[i]? = some b ∧ feedBits cmd 0 (u.take i) s = .running m ∧ m.err = false ∧
      m.dbits = s.dbits + BitVec.ofNat 32 i ∧
      (m.acclen = 255 ∧
        t = { m with err := true, ecode := .accOvf, epos := BitVec.ofNat 4 i, ecmd := cmd } ∨
      m.acclen ≠ 255 ∧ ∃ x y, x ≠ y ∧ (m.entry x).valid = true ∧ (m.entry y).valid = true ∧
        (m.entry x).len = m.acclen + 1 ∧ (m.entry y).len = m.acclen + 1 ∧ (m.entry x).bits = (m.entry y).bits ∧
        t = { m with
          acc := (m.entry x).bits, acclen := m.acclen + 1, dbits := m.dbits + 1
          err := true, ecode := .dup, epos := BitVec.ofNat 4 i, ecmd := cmd })

/-- R172, R175, R176: the precondition errors (EILLEGAL, ESEQ, EBADLEN, ELOAD, EMISS, ENOTAIL) leave all state except
the error fields unchanged and emit nothing; EPOS is 0 and ECMD the whole word. -/
def Obligations.PreconditionErrorsChangeOnlyErrorFields : Prop :=
  ∀ (w : Word) (s t : State), Sound s → s.err = false → executeWord w s = .next t →
    t.ecode ∈ [ErrCode.illegal, .seq, .badLen, .load, .miss, .noTail] →
    t = { s with err := true, ecode := t.ecode, epos := 0, ecmd := w }

/-- R174, R76: the priority of the errors checked before any state change, and who may raise the others. -/
def Obligations.ErrorPriority : Prop :=
  ∀ (i : Instr) (s t : State), Sound s → s.err = false → exec i s = .next t →
    (t.ecode = .seq ↔ permitted i s.mode = false) ∧
    (t.ecode = .badLen ↔ permitted i s.mode = true ∧ i.operandsLegal = false) ∧
    (t.ecode = .load ↔ permitted i s.mode = true ∧ i.operandsLegal = true ∧
      ∃ n data, i = .cwbits n data ∧
        (s.lsel = false ∨ (s.entry s.lsym).len.toNat < s.lcnt.toNat + n.toNat)) ∧
    (t.ecode = .miss ↔ permitted i s.mode = true ∧ ∃ sym, i = .enc sym ∧ (s.entry sym).valid = false) ∧
    (t.ecode = .noTail ↔ permitted i s.mode = true ∧ ∃ b, i = .dlast b ∧ s.tvalid = false) ∧
    (t.ecode ∈ [ErrCode.dup, .accOvf] → permitted i s.mode = true ∧
      ((∃ b, i = .dbyte b) ∨ (∃ b, i = .dlast b ∧ s.tvalid = true) ∨ i = .dend ∧ s.tvalid = true)) ∧
    (t.ecode = .dangle → permitted i s.mode = true ∧
      ((∃ b, i = .dlast b ∧ s.tvalid = true) ∨ i = .dend ∧ s.tvalid = true))

/-- R25, R179: ERR is cleared only by INIT and by reset: a step that leaves the error state executed an INIT word or
was a hardware reset. -/
def Obligations.OnlyInitOrResetClearsErr : Prop :=
  ∀ s t : State, s.err = true → step s = .next t → t.err = false →
    ∃ a rest, s.host = a :: rest ∧
      (a = .command 0x10000000#32 ∨ a = .command 0x10000001#32 ∨ a = .reset ∨ ∃ w, a = .resetDuring w)

/-! ## The read port (spec/10_state.md, spec/20_memory.md) -/

/-- R40, R171, R24, R37: the fields of STATUS, the numbers in ECODE and MODE, and IRQ = ERR. -/
def Obligations.StatusWordFields : Prop :=
  ∀ s : State,
    let w := readPort s 0x000
    w.getLsbD 0 = s.err ∧ s.irq = s.err ∧ w.extractLsb' 1 3 = 0 ∧
    (w.extractLsb' 4 4).toNat = (match s.ecode with
      | .none => 0 | .illegal => 1 | .seq => 2 | .badLen => 3 | .load => 4 | .miss => 5 | .noTail => 6 | .dup => 7
      | .accOvf => 8 | .dangle => 9) ∧
    w.extractLsb' 8 4 = s.epos ∧
    (w.extractLsb' 12 3).toNat = (match s.mode with
      | .idle => 0 | .encoding => 1 | .encDone => 2 | .decoding => 3 | .decDone => 4) ∧
    w.getLsbD 15 = s.lsel ∧ w.getLsbD 16 = s.tvalid ∧ w.extractLsb' 17 15 = 0

/-- R41 to R47: the other register words, each bit at its place and every other bit 0. -/
def Obligations.RegisterWords : Prop :=
  ∀ s : State,
    readPort s 0x001 = s.ecmd ∧
    (readPort s 0x002).toNat = s.tvalid.toNat * 2 ^ 31 + s.tlen.toNat * 2 ^ 8 + s.tbits.toNat ∧
    (readPort s 0x003).toNat = s.lsel.toNat * 2 ^ 31 + s.lsym.toNat * 2 ^ 16 + s.lcnt.toNat ∧
    (readPort s 0x004).toNat =
      s.pany.toNat * 2 ^ 31 + s.pcnt.toNat * 2 ^ 16 + s.plast.toNat * 2 ^ 8 + s.pbuf.toNat ∧
    (readPort s 0x005).toNat = s.acclen.toNat ∧
    readPort s 0x006 = s.pbits ∧ readPort s 0x007 = s.pbytes ∧ readPort s 0x008 = s.dbits ∧
    readPort s 0x009 = s.dsyms ∧ readPort s 0x00A = 0x48425031#32 ∧
    ∀ k, k < 8 → (readPort s (BitVec.ofNat 12 (0x010 + k))).toNat = s.acc.toNat / 2 ^ (32 * k) % 2 ^ 32

/-- R48, R49, R53, R56: the code-table words of every entry, bit 255 of BITS taken as 0, and 0 at every unassigned
address. -/
def Obligations.CodeTableWordsAndUnassignedAddresses : Prop :=
  ∀ s : State,
    (∀ x : Byte, (readPort s (BitVec.ofNat 12 (0x100 + x.toNat))).toNat =
      (s.entry x).valid.toNat * 2 ^ 31 + (s.entry x).len.toNat) ∧
    (∀ (x : Byte) (k : Nat), k < 8 → (readPort s (BitVec.ofNat 12 (0x200 + 8 * x.toNat + k))).toNat =
      (s.entry x).bits.toNat / 2 ^ (32 * k) % 2 ^ 32) ∧
    (∀ a : ReadAddr, (0x00B ≤ a.toNat ∧ a.toNat ≤ 0x00F) ∨ (0x018 ≤ a.toNat ∧ a.toNat ≤ 0x0FF) ∨ 0xA00 ≤ a.toNat →
      readPort s a = 0)

/-- R52, R61: a read is answered from the state between two commands, at any time, and has no side effect. The list
of answers is the model's (log entry 4). -/
def Obligations.ReadHasNoSideEffect : Prop :=
  ∀ (s : State) (a : ReadAddr) (rest : List HostAccess), s.host = .read a :: rest →
    step s = .next { s with host := rest, reads := s.reads ++ [readPort s a] }

/-! ## Whole-machine rules -/

/-- R38, R190: the state after reset meets the invariants, whatever LEN and BITS the reset has drawn. -/
def Obligations.ResetMeetsTheInvariant : Prop := Sound State.reset

/-- R38 with R29 to R34 and R150: every step, from every state that meets the invariants, keeps them. -/
def Obligations.EveryStepKeepsTheInvariant : Prop :=
  ∀ s t : State, Sound s → step s = .next t → Sound t

/-- R36, R192: the channels are append-only: no step, reset or INIT among them, withdraws or alters a byte. -/
def Obligations.ChannelsOnlyGrow : Prop :=
  ∀ s t : State, step s = .next t → s.chanP <+: t.chanP ∧ s.chanS <+: t.chanS

/-- R24, R91: the only changes of MODE that a command makes. -/
def Obligations.ModeMovesOnlyAlongItsPhases : Prop :=
  ∀ (i : Instr) (s t : State), exec i s = .next t → t.mode ≠ s.mode →
    (∃ keep, i = .init keep ∧ t.mode = .idle) ∨
    (∃ sym, i = .enc sym ∧ s.mode = .idle ∧ t.mode = .encoding) ∨
    (i = .eflush ∧ (s.mode = .idle ∨ s.mode = .encoding) ∧ t.mode = .encDone) ∨
    (∃ b, i = .dbyte b ∧ s.mode = .idle ∧ t.mode = .decoding) ∨
    (∃ b, i = .dlast b ∧ (s.mode = .idle ∨ s.mode = .decoding) ∧ t.mode = .decDone) ∨
    (i = .dend ∧ s.mode = .idle ∧ t.mode = .decDone)

/-- R22, R94, R178: no command changes which command comes next, and none answers or withdraws a read: the lists of
the host's accesses and of the answers, which are the model's (log entries 1 and 4), stand. -/
def Obligations.NoCommandTransfersControl : Prop :=
  ∀ (i : Instr) (s t : State), exec i s = .next t → t.host = s.host ∧ t.reads = s.reads ∧ t.draws = s.draws

/-- R191: no command's outcome depends on what the table's RAM holds in entries that are neither valid nor being
loaded. Two states that differ only there are taken, by any word, to two states that differ only there. -/
def Obligations.ResetDrawsNeverReachACommand : Prop :=
  ∀ (w : Word) (s t s' t' : State), SameForCommands s t →
    executeWord w s = .next s' → executeWord w t = .next t' → SameForCommands s' t'

/-- R19, R92: INIT 0 isolates an invocation: from any two states that have delivered the same bytes and have the same
host, the states after INIT 0 agree in all that a later command may read. -/
def Obligations.InitIsolatesInvocations : Prop :=
  ∀ s t s' t' : State, s.chanP = t.chanP → s.chanS = t.chanS → s.host = t.host → s.reads = t.reads →
    exec (.init false) s = .next s' → exec (.init false) t = .next t' → SameForCommands s' t'

end
end

