-- ==== Sys2Proof/Laws/Bits.lean ====
section
/-! SUPPORT. Bit strings and their values (spec/00_scope.md R11): `val` and `str` are inverse, and each meets
concatenation and the shift of one bit. -/

namespace Sys2Proof.Machine

@[simp] theorem str_zero (v : Nat) : str 0 v = [] := rfl

theorem str_succ (n v : Nat) : str (n + 1) v = v.testBit n :: str n v := rfl

@[simp] theorem length_str (n v : Nat) : (str n v).length = n := by
  induction n with
  | zero => rfl
  | succ n ih => simp [str, ih]

@[simp] theorem val_nil : val [] = 0 := rfl

theorem foldl_val (v : Nat) (s : List Bool) :
    s.foldl (fun v b => 2 * v + b.toNat) v = v * 2 ^ s.length + val s := by
  induction s generalizing v with
  | nil => simp
  | cons b s ih =>
    rw [val, List.foldl_cons, List.foldl_cons, ih, ih (2 * 0 + b.toNat), List.length_cons, pow_succ]
    ring

theorem val_cons (b : Bool) (s : List Bool) : val (b :: s) = b.toNat * 2 ^ s.length + val s := by
  rw [val, List.foldl_cons, foldl_val]; simp

theorem val_append (s t : List Bool) : val (s ++ t) = val s * 2 ^ t.length + val t := by
  rw [val, List.foldl_append, ← val, foldl_val]

theorem val_concat (s : List Bool) (b : Bool) : val (s ++ [b]) = 2 * val s + b.toNat := by
  rw [val_append, val_cons]; simp; ring

theorem val_lt (s : List Bool) : val s < 2 ^ s.length := by
  induction s with
  | nil => simp
  | cons b s ih =>
    rw [val_cons, List.length_cons, pow_succ]
    have : b.toNat ≤ 1 := Bool.toNat_le b
    nlinarith

/-- `val(str_n(v))` is the n low bits of v (R11). -/
theorem val_str (n v : Nat) : val (str n v) = v % 2 ^ n := by
  induction n with
  | zero => simp [Nat.mod_one]
  | succ n ih =>
    rw [str_succ, val_cons, length_str, ih, Nat.mod_pow_succ, Nat.testBit_eq_decide_div_mod_eq]
    rcases Nat.mod_two_eq_zero_or_one (v / 2 ^ n) with h | h
    · simp [h]
    · simp [h]; ring

theorem str_eq_ofFn (n v : Nat) : str n v = List.ofFn fun i : Fin n => v.testBit (n - 1 - i) := by
  induction n with
  | zero => rfl
  | succ n ih =>
    rw [str_succ, ih, List.ofFn_succ]
    congr 1
    simp only [Fin.val_succ]
    congr 1; funext i; congr 1; omega

/-- Only the n low bits matter to `str_n`. -/
theorem str_congr {n v w : Nat} (h : v % 2 ^ n = w % 2 ^ n) : str n v = str n w := by
  rw [str_eq_ofFn, str_eq_ofFn]
  congr 1; funext i
  have hi : n - 1 - i < n := by omega
  have := congrArg (fun z => z.testBit (n - 1 - i)) h
  simpa [Nat.testBit_mod_two_pow, hi] using this

theorem str_append (n m a b : Nat) (hb : b < 2 ^ m) : str (n + m) (a * 2 ^ m + b) = str n a ++ str m b := by
  induction n with
  | zero =>
    rw [Nat.zero_add, str_zero, List.nil_append]
    exact str_congr (by rw [Nat.mul_add_mod_self_right])
  | succ n ih =>
    rw [show n + 1 + m = n + m + 1 by ring, str_succ, str_succ, List.cons_append, ← ih]
    congr 1
    rw [mul_comm, Nat.testBit_two_pow_mul_add a hb, if_neg (by omega), Nat.add_sub_cancel]

/-- `str_n(val(s)) = s` for a string of n bits (R11). -/
theorem str_val (s : List Bool) : str s.length (val s) = s := by
  induction s using List.reverseRecOn with
  | nil => rfl
  | append_singleton s b ih =>
    rw [List.length_append, val_append, str_append _ _ _ _ (val_lt [b]), ih]
    cases b <;> rfl

/-- Two strings of one length are equal if their values are. -/
theorem val_inj {s t : List Bool} (hl : s.length = t.length) (hv : val s = val t) : s = t := by
  rw [← str_val s, ← str_val t, hl, hv]

theorem str_inj {n v w : Nat} (hv : v < 2 ^ n) (hw : w < 2 ^ n) (h : str n v = str n w) : v = w := by
  simpa [val_str, Nat.mod_eq_of_lt hv, Nat.mod_eq_of_lt hw] using congrArg val h

/-- Appending a bit to a right-aligned number. -/
theorem str_concat (n v : Nat) (b : Bool) : str (n + 1) (2 * v + b.toNat) = str n v ++ [b] := by
  have h := str_append n 1 v b.toNat (by cases b <;> simp)
  rw [pow_one, mul_comm] at h
  rw [h]
  cases b <;> rfl

theorem toNat_shiftIn {w : Nat} (r : BitVec w) (b : Bool) (hw : 0 < w) :
    (shiftIn r b).toNat = (2 * r.toNat + b.toNat) % 2 ^ w := by
  obtain ⟨w, rfl⟩ : ∃ k, w = k + 1 := ⟨w - 1, by omega⟩
  have hb : b.toNat < 2 ^ 1 := by cases b <;> simp
  have hm : b.toNat % 2 ^ (w + 1) = b.toNat := Nat.mod_eq_of_lt (hb.trans_le (Nat.pow_le_pow_right (by omega) (by omega)))
  have ho : 2 * r.toNat + b.toNat = 2 * r.toNat ||| b.toNat := by
    simpa using Nat.two_pow_add_eq_or_of_lt hb r.toNat
  rw [shiftIn, BitVec.toNat_or, BitVec.toNat_shiftLeft, BitVec.toNat_setWidth, BitVec.toNat_ofBool,
    Nat.shiftLeft_eq, ho, Nat.or_mod_two_pow, hm, pow_one, mul_comm]

end Sys2Proof.Machine
end

