-- ==== Sys2Proof/Laws/State.lean ====
section
/-! SUPPORT. What each named update of the state does to each field: one lemma per field per update, by definition. -/

namespace Sys2Proof.Machine

variable (s : State)

/-! ## emitP -/

@[simp] theorem State.emitP_mode (b : Byte) : (s.emitP b).mode = s.mode := rfl
@[simp] theorem State.emitP_err (b : Byte) : (s.emitP b).err = s.err := rfl
@[simp] theorem State.emitP_ecode (b : Byte) : (s.emitP b).ecode = s.ecode := rfl
@[simp] theorem State.emitP_epos (b : Byte) : (s.emitP b).epos = s.epos := rfl
@[simp] theorem State.emitP_ecmd (b : Byte) : (s.emitP b).ecmd = s.ecmd := rfl
@[simp] theorem State.emitP_ct (b : Byte) : (s.emitP b).ct = s.ct := rfl
@[simp] theorem State.emitP_tvalid (b : Byte) : (s.emitP b).tvalid = s.tvalid := rfl
@[simp] theorem State.emitP_tlen (b : Byte) : (s.emitP b).tlen = s.tlen := rfl
@[simp] theorem State.emitP_tbits (b : Byte) : (s.emitP b).tbits = s.tbits := rfl
@[simp] theorem State.emitP_lsel (b : Byte) : (s.emitP b).lsel = s.lsel := rfl
@[simp] theorem State.emitP_lsym (b : Byte) : (s.emitP b).lsym = s.lsym := rfl
@[simp] theorem State.emitP_lcnt (b : Byte) : (s.emitP b).lcnt = s.lcnt := rfl
@[simp] theorem State.emitP_pbuf (b : Byte) : (s.emitP b).pbuf = s.pbuf := rfl
@[simp] theorem State.emitP_pcnt (b : Byte) : (s.emitP b).pcnt = s.pcnt := rfl
@[simp] theorem State.emitP_pany (b : Byte) : (s.emitP b).pany = s.pany := rfl
@[simp] theorem State.emitP_plast (b : Byte) : (s.emitP b).plast = s.plast := rfl
@[simp] theorem State.emitP_acc (b : Byte) : (s.emitP b).acc = s.acc := rfl
@[simp] theorem State.emitP_acclen (b : Byte) : (s.emitP b).acclen = s.acclen := rfl
@[simp] theorem State.emitP_pbits (b : Byte) : (s.emitP b).pbits = s.pbits := rfl
@[simp] theorem State.emitP_pbytes (b : Byte) : (s.emitP b).pbytes = s.pbytes := rfl
@[simp] theorem State.emitP_dbits (b : Byte) : (s.emitP b).dbits = s.dbits := rfl
@[simp] theorem State.emitP_dsyms (b : Byte) : (s.emitP b).dsyms = s.dsyms := rfl
@[simp] theorem State.emitP_chanP (b : Byte) : (s.emitP b).chanP = s.chanP ++ [b] := rfl
@[simp] theorem State.emitP_chanS (b : Byte) : (s.emitP b).chanS = s.chanS := rfl
@[simp] theorem State.emitP_host (b : Byte) : (s.emitP b).host = s.host := rfl
@[simp] theorem State.emitP_reads (b : Byte) : (s.emitP b).reads = s.reads := rfl
@[simp] theorem State.emitP_draws (b : Byte) : (s.emitP b).draws = s.draws := rfl
@[simp] theorem State.emitP_entry (b : Byte) (y : Byte) : (s.emitP b).entry y = s.entry y := rfl

/-! ## emitS -/

@[simp] theorem State.emitS_mode (b : Byte) : (s.emitS b).mode = s.mode := rfl
@[simp] theorem State.emitS_err (b : Byte) : (s.emitS b).err = s.err := rfl
@[simp] theorem State.emitS_ecode (b : Byte) : (s.emitS b).ecode = s.ecode := rfl
@[simp] theorem State.emitS_epos (b : Byte) : (s.emitS b).epos = s.epos := rfl
@[simp] theorem State.emitS_ecmd (b : Byte) : (s.emitS b).ecmd = s.ecmd := rfl
@[simp] theorem State.emitS_ct (b : Byte) : (s.emitS b).ct = s.ct := rfl
@[simp] theorem State.emitS_tvalid (b : Byte) : (s.emitS b).tvalid = s.tvalid := rfl
@[simp] theorem State.emitS_tlen (b : Byte) : (s.emitS b).tlen = s.tlen := rfl
@[simp] theorem State.emitS_tbits (b : Byte) : (s.emitS b).tbits = s.tbits := rfl
@[simp] theorem State.emitS_lsel (b : Byte) : (s.emitS b).lsel = s.lsel := rfl
@[simp] theorem State.emitS_lsym (b : Byte) : (s.emitS b).lsym = s.lsym := rfl
@[simp] theorem State.emitS_lcnt (b : Byte) : (s.emitS b).lcnt = s.lcnt := rfl
@[simp] theorem State.emitS_pbuf (b : Byte) : (s.emitS b).pbuf = s.pbuf := rfl
@[simp] theorem State.emitS_pcnt (b : Byte) : (s.emitS b).pcnt = s.pcnt := rfl
@[simp] theorem State.emitS_pany (b : Byte) : (s.emitS b).pany = s.pany := rfl
@[simp] theorem State.emitS_plast (b : Byte) : (s.emitS b).plast = s.plast := rfl
@[simp] theorem State.emitS_acc (b : Byte) : (s.emitS b).acc = s.acc := rfl
@[simp] theorem State.emitS_acclen (b : Byte) : (s.emitS b).acclen = s.acclen := rfl
@[simp] theorem State.emitS_pbits (b : Byte) : (s.emitS b).pbits = s.pbits := rfl
@[simp] theorem State.emitS_pbytes (b : Byte) : (s.emitS b).pbytes = s.pbytes := rfl
@[simp] theorem State.emitS_dbits (b : Byte) : (s.emitS b).dbits = s.dbits := rfl
@[simp] theorem State.emitS_dsyms (b : Byte) : (s.emitS b).dsyms = s.dsyms := rfl
@[simp] theorem State.emitS_chanP (b : Byte) : (s.emitS b).chanP = s.chanP := rfl
@[simp] theorem State.emitS_chanS (b : Byte) : (s.emitS b).chanS = s.chanS ++ [b] := rfl
@[simp] theorem State.emitS_host (b : Byte) : (s.emitS b).host = s.host := rfl
@[simp] theorem State.emitS_reads (b : Byte) : (s.emitS b).reads = s.reads := rfl
@[simp] theorem State.emitS_draws (b : Byte) : (s.emitS b).draws = s.draws := rfl
@[simp] theorem State.emitS_entry (b : Byte) (y : Byte) : (s.emitS b).entry y = s.entry y := rfl

/-! ## setEntry -/

@[simp] theorem State.setEntry_mode (x : Byte) (e : CodeEntry) : (s.setEntry x e).mode = s.mode := rfl
@[simp] theorem State.setEntry_err (x : Byte) (e : CodeEntry) : (s.setEntry x e).err = s.err := rfl
@[simp] theorem State.setEntry_ecode (x : Byte) (e : CodeEntry) : (s.setEntry x e).ecode = s.ecode := rfl
@[simp] theorem State.setEntry_epos (x : Byte) (e : CodeEntry) : (s.setEntry x e).epos = s.epos := rfl
@[simp] theorem State.setEntry_ecmd (x : Byte) (e : CodeEntry) : (s.setEntry x e).ecmd = s.ecmd := rfl
@[simp] theorem State.setEntry_ct (x : Byte) (e : CodeEntry) : (s.setEntry x e).ct = s.ct.set x.toNat e x.isLt := rfl
@[simp] theorem State.setEntry_tvalid (x : Byte) (e : CodeEntry) : (s.setEntry x e).tvalid = s.tvalid := rfl
@[simp] theorem State.setEntry_tlen (x : Byte) (e : CodeEntry) : (s.setEntry x e).tlen = s.tlen := rfl
@[simp] theorem State.setEntry_tbits (x : Byte) (e : CodeEntry) : (s.setEntry x e).tbits = s.tbits := rfl
@[simp] theorem State.setEntry_lsel (x : Byte) (e : CodeEntry) : (s.setEntry x e).lsel = s.lsel := rfl
@[simp] theorem State.setEntry_lsym (x : Byte) (e : CodeEntry) : (s.setEntry x e).lsym = s.lsym := rfl
@[simp] theorem State.setEntry_lcnt (x : Byte) (e : CodeEntry) : (s.setEntry x e).lcnt = s.lcnt := rfl
@[simp] theorem State.setEntry_pbuf (x : Byte) (e : CodeEntry) : (s.setEntry x e).pbuf = s.pbuf := rfl
@[simp] theorem State.setEntry_pcnt (x : Byte) (e : CodeEntry) : (s.setEntry x e).pcnt = s.pcnt := rfl
@[simp] theorem State.setEntry_pany (x : Byte) (e : CodeEntry) : (s.setEntry x e).pany = s.pany := rfl
@[simp] theorem State.setEntry_plast (x : Byte) (e : CodeEntry) : (s.setEntry x e).plast = s.plast := rfl
@[simp] theorem State.setEntry_acc (x : Byte) (e : CodeEntry) : (s.setEntry x e).acc = s.acc := rfl
@[simp] theorem State.setEntry_acclen (x : Byte) (e : CodeEntry) : (s.setEntry x e).acclen = s.acclen := rfl
@[simp] theorem State.setEntry_pbits (x : Byte) (e : CodeEntry) : (s.setEntry x e).pbits = s.pbits := rfl
@[simp] theorem State.setEntry_pbytes (x : Byte) (e : CodeEntry) : (s.setEntry x e).pbytes = s.pbytes := rfl
@[simp] theorem State.setEntry_dbits (x : Byte) (e : CodeEntry) : (s.setEntry x e).dbits = s.dbits := rfl
@[simp] theorem State.setEntry_dsyms (x : Byte) (e : CodeEntry) : (s.setEntry x e).dsyms = s.dsyms := rfl
@[simp] theorem State.setEntry_chanP (x : Byte) (e : CodeEntry) : (s.setEntry x e).chanP = s.chanP := rfl
@[simp] theorem State.setEntry_chanS (x : Byte) (e : CodeEntry) : (s.setEntry x e).chanS = s.chanS := rfl
@[simp] theorem State.setEntry_host (x : Byte) (e : CodeEntry) : (s.setEntry x e).host = s.host := rfl
@[simp] theorem State.setEntry_reads (x : Byte) (e : CodeEntry) : (s.setEntry x e).reads = s.reads := rfl
@[simp] theorem State.setEntry_draws (x : Byte) (e : CodeEntry) : (s.setEntry x e).draws = s.draws := rfl

/-! ## clearLoader -/

@[simp] theorem State.clearLoader_mode : s.clearLoader.mode = s.mode := rfl
@[simp] theorem State.clearLoader_err : s.clearLoader.err = s.err := rfl
@[simp] theorem State.clearLoader_ecode : s.clearLoader.ecode = s.ecode := rfl
@[simp] theorem State.clearLoader_epos : s.clearLoader.epos = s.epos := rfl
@[simp] theorem State.clearLoader_ecmd : s.clearLoader.ecmd = s.ecmd := rfl
@[simp] theorem State.clearLoader_ct : s.clearLoader.ct = s.ct := rfl
@[simp] theorem State.clearLoader_tvalid : s.clearLoader.tvalid = s.tvalid := rfl
@[simp] theorem State.clearLoader_tlen : s.clearLoader.tlen = s.tlen := rfl
@[simp] theorem State.clearLoader_tbits : s.clearLoader.tbits = s.tbits := rfl
@[simp] theorem State.clearLoader_lsel : s.clearLoader.lsel = false := rfl
@[simp] theorem State.clearLoader_lsym : s.clearLoader.lsym = 0 := rfl
@[simp] theorem State.clearLoader_lcnt : s.clearLoader.lcnt = 0 := rfl
@[simp] theorem State.clearLoader_pbuf : s.clearLoader.pbuf = s.pbuf := rfl
@[simp] theorem State.clearLoader_pcnt : s.clearLoader.pcnt = s.pcnt := rfl
@[simp] theorem State.clearLoader_pany : s.clearLoader.pany = s.pany := rfl
@[simp] theorem State.clearLoader_plast : s.clearLoader.plast = s.plast := rfl
@[simp] theorem State.clearLoader_acc : s.clearLoader.acc = s.acc := rfl
@[simp] theorem State.clearLoader_acclen : s.clearLoader.acclen = s.acclen := rfl
@[simp] theorem State.clearLoader_pbits : s.clearLoader.pbits = s.pbits := rfl
@[simp] theorem State.clearLoader_pbytes : s.clearLoader.pbytes = s.pbytes := rfl
@[simp] theorem State.clearLoader_dbits : s.clearLoader.dbits = s.dbits := rfl
@[simp] theorem State.clearLoader_dsyms : s.clearLoader.dsyms = s.dsyms := rfl
@[simp] theorem State.clearLoader_chanP : s.clearLoader.chanP = s.chanP := rfl
@[simp] theorem State.clearLoader_chanS : s.clearLoader.chanS = s.chanS := rfl
@[simp] theorem State.clearLoader_host : s.clearLoader.host = s.host := rfl
@[simp] theorem State.clearLoader_reads : s.clearLoader.reads = s.reads := rfl
@[simp] theorem State.clearLoader_draws : s.clearLoader.draws = s.draws := rfl
@[simp] theorem State.clearLoader_entry (y : Byte) : s.clearLoader.entry y = s.entry y := rfl

/-! ## selectLoader -/

@[simp] theorem State.selectLoader_mode (x : Byte) (c : BitVec 8) : (s.selectLoader x c).mode = s.mode := rfl
@[simp] theorem State.selectLoader_err (x : Byte) (c : BitVec 8) : (s.selectLoader x c).err = s.err := rfl
@[simp] theorem State.selectLoader_ecode (x : Byte) (c : BitVec 8) : (s.selectLoader x c).ecode = s.ecode := rfl
@[simp] theorem State.selectLoader_epos (x : Byte) (c : BitVec 8) : (s.selectLoader x c).epos = s.epos := rfl
@[simp] theorem State.selectLoader_ecmd (x : Byte) (c : BitVec 8) : (s.selectLoader x c).ecmd = s.ecmd := rfl
@[simp] theorem State.selectLoader_ct (x : Byte) (c : BitVec 8) : (s.selectLoader x c).ct = s.ct := rfl
@[simp] theorem State.selectLoader_tvalid (x : Byte) (c : BitVec 8) : (s.selectLoader x c).tvalid = s.tvalid := rfl
@[simp] theorem State.selectLoader_tlen (x : Byte) (c : BitVec 8) : (s.selectLoader x c).tlen = s.tlen := rfl
@[simp] theorem State.selectLoader_tbits (x : Byte) (c : BitVec 8) : (s.selectLoader x c).tbits = s.tbits := rfl
@[simp] theorem State.selectLoader_lsel (x : Byte) (c : BitVec 8) : (s.selectLoader x c).lsel = true := rfl
@[simp] theorem State.selectLoader_lsym (x : Byte) (c : BitVec 8) : (s.selectLoader x c).lsym = x := rfl
@[simp] theorem State.selectLoader_lcnt (x : Byte) (c : BitVec 8) : (s.selectLoader x c).lcnt = c := rfl
@[simp] theorem State.selectLoader_pbuf (x : Byte) (c : BitVec 8) : (s.selectLoader x c).pbuf = s.pbuf := rfl
@[simp] theorem State.selectLoader_pcnt (x : Byte) (c : BitVec 8) : (s.selectLoader x c).pcnt = s.pcnt := rfl
@[simp] theorem State.selectLoader_pany (x : Byte) (c : BitVec 8) : (s.selectLoader x c).pany = s.pany := rfl
@[simp] theorem State.selectLoader_plast (x : Byte) (c : BitVec 8) : (s.selectLoader x c).plast = s.plast := rfl
@[simp] theorem State.selectLoader_acc (x : Byte) (c : BitVec 8) : (s.selectLoader x c).acc = s.acc := rfl
@[simp] theorem State.selectLoader_acclen (x : Byte) (c : BitVec 8) : (s.selectLoader x c).acclen = s.acclen := rfl
@[simp] theorem State.selectLoader_pbits (x : Byte) (c : BitVec 8) : (s.selectLoader x c).pbits = s.pbits := rfl
@[simp] theorem State.selectLoader_pbytes (x : Byte) (c : BitVec 8) : (s.selectLoader x c).pbytes = s.pbytes := rfl
@[simp] theorem State.selectLoader_dbits (x : Byte) (c : BitVec 8) : (s.selectLoader x c).dbits = s.dbits := rfl
@[simp] theorem State.selectLoader_dsyms (x : Byte) (c : BitVec 8) : (s.selectLoader x c).dsyms = s.dsyms := rfl
@[simp] theorem State.selectLoader_chanP (x : Byte) (c : BitVec 8) : (s.selectLoader x c).chanP = s.chanP := rfl
@[simp] theorem State.selectLoader_chanS (x : Byte) (c : BitVec 8) : (s.selectLoader x c).chanS = s.chanS := rfl
@[simp] theorem State.selectLoader_host (x : Byte) (c : BitVec 8) : (s.selectLoader x c).host = s.host := rfl
@[simp] theorem State.selectLoader_reads (x : Byte) (c : BitVec 8) : (s.selectLoader x c).reads = s.reads := rfl
@[simp] theorem State.selectLoader_draws (x : Byte) (c : BitVec 8) : (s.selectLoader x c).draws = s.draws := rfl
@[simp] theorem State.selectLoader_entry (x : Byte) (c : BitVec 8) (y : Byte) : (s.selectLoader x c).entry y = s.entry y := rfl

/-! ## setTail -/

@[simp] theorem State.setTail_mode (l : BitVec 4) (b : BitVec 8) : (s.setTail l b).mode = s.mode := rfl
@[simp] theorem State.setTail_err (l : BitVec 4) (b : BitVec 8) : (s.setTail l b).err = s.err := rfl
@[simp] theorem State.setTail_ecode (l : BitVec 4) (b : BitVec 8) : (s.setTail l b).ecode = s.ecode := rfl
@[simp] theorem State.setTail_epos (l : BitVec 4) (b : BitVec 8) : (s.setTail l b).epos = s.epos := rfl
@[simp] theorem State.setTail_ecmd (l : BitVec 4) (b : BitVec 8) : (s.setTail l b).ecmd = s.ecmd := rfl
@[simp] theorem State.setTail_ct (l : BitVec 4) (b : BitVec 8) : (s.setTail l b).ct = s.ct := rfl
@[simp] theorem State.setTail_tvalid (l : BitVec 4) (b : BitVec 8) : (s.setTail l b).tvalid = true := rfl
@[simp] theorem State.setTail_tlen (l : BitVec 4) (b : BitVec 8) : (s.setTail l b).tlen = l := rfl
@[simp] theorem State.setTail_tbits (l : BitVec 4) (b : BitVec 8) : (s.setTail l b).tbits = b := rfl
@[simp] theorem State.setTail_lsel (l : BitVec 4) (b : BitVec 8) : (s.setTail l b).lsel = s.lsel := rfl
@[simp] theorem State.setTail_lsym (l : BitVec 4) (b : BitVec 8) : (s.setTail l b).lsym = s.lsym := rfl
@[simp] theorem State.setTail_lcnt (l : BitVec 4) (b : BitVec 8) : (s.setTail l b).lcnt = s.lcnt := rfl
@[simp] theorem State.setTail_pbuf (l : BitVec 4) (b : BitVec 8) : (s.setTail l b).pbuf = s.pbuf := rfl
@[simp] theorem State.setTail_pcnt (l : BitVec 4) (b : BitVec 8) : (s.setTail l b).pcnt = s.pcnt := rfl
@[simp] theorem State.setTail_pany (l : BitVec 4) (b : BitVec 8) : (s.setTail l b).pany = s.pany := rfl
@[simp] theorem State.setTail_plast (l : BitVec 4) (b : BitVec 8) : (s.setTail l b).plast = s.plast := rfl
@[simp] theorem State.setTail_acc (l : BitVec 4) (b : BitVec 8) : (s.setTail l b).acc = s.acc := rfl
@[simp] theorem State.setTail_acclen (l : BitVec 4) (b : BitVec 8) : (s.setTail l b).acclen = s.acclen := rfl
@[simp] theorem State.setTail_pbits (l : BitVec 4) (b : BitVec 8) : (s.setTail l b).pbits = s.pbits := rfl
@[simp] theorem State.setTail_pbytes (l : BitVec 4) (b : BitVec 8) : (s.setTail l b).pbytes = s.pbytes := rfl
@[simp] theorem State.setTail_dbits (l : BitVec 4) (b : BitVec 8) : (s.setTail l b).dbits = s.dbits := rfl
@[simp] theorem State.setTail_dsyms (l : BitVec 4) (b : BitVec 8) : (s.setTail l b).dsyms = s.dsyms := rfl
@[simp] theorem State.setTail_chanP (l : BitVec 4) (b : BitVec 8) : (s.setTail l b).chanP = s.chanP := rfl
@[simp] theorem State.setTail_chanS (l : BitVec 4) (b : BitVec 8) : (s.setTail l b).chanS = s.chanS := rfl
@[simp] theorem State.setTail_host (l : BitVec 4) (b : BitVec 8) : (s.setTail l b).host = s.host := rfl
@[simp] theorem State.setTail_reads (l : BitVec 4) (b : BitVec 8) : (s.setTail l b).reads = s.reads := rfl
@[simp] theorem State.setTail_draws (l : BitVec 4) (b : BitVec 8) : (s.setTail l b).draws = s.draws := rfl
@[simp] theorem State.setTail_entry (l : BitVec 4) (b : BitVec 8) (y : Byte) : (s.setTail l b).entry y = s.entry y := rfl

/-! ## clearTail -/

@[simp] theorem State.clearTail_mode : s.clearTail.mode = s.mode := rfl
@[simp] theorem State.clearTail_err : s.clearTail.err = s.err := rfl
@[simp] theorem State.clearTail_ecode : s.clearTail.ecode = s.ecode := rfl
@[simp] theorem State.clearTail_epos : s.clearTail.epos = s.epos := rfl
@[simp] theorem State.clearTail_ecmd : s.clearTail.ecmd = s.ecmd := rfl
@[simp] theorem State.clearTail_ct : s.clearTail.ct = s.ct := rfl
@[simp] theorem State.clearTail_tvalid : s.clearTail.tvalid = false := rfl
@[simp] theorem State.clearTail_tlen : s.clearTail.tlen = 0 := rfl
@[simp] theorem State.clearTail_tbits : s.clearTail.tbits = 0 := rfl
@[simp] theorem State.clearTail_lsel : s.clearTail.lsel = s.lsel := rfl
@[simp] theorem State.clearTail_lsym : s.clearTail.lsym = s.lsym := rfl
@[simp] theorem State.clearTail_lcnt : s.clearTail.lcnt = s.lcnt := rfl
@[simp] theorem State.clearTail_pbuf : s.clearTail.pbuf = s.pbuf := rfl
@[simp] theorem State.clearTail_pcnt : s.clearTail.pcnt = s.pcnt := rfl
@[simp] theorem State.clearTail_pany : s.clearTail.pany = s.pany := rfl
@[simp] theorem State.clearTail_plast : s.clearTail.plast = s.plast := rfl
@[simp] theorem State.clearTail_acc : s.clearTail.acc = s.acc := rfl
@[simp] theorem State.clearTail_acclen : s.clearTail.acclen = s.acclen := rfl
@[simp] theorem State.clearTail_pbits : s.clearTail.pbits = s.pbits := rfl
@[simp] theorem State.clearTail_pbytes : s.clearTail.pbytes = s.pbytes := rfl
@[simp] theorem State.clearTail_dbits : s.clearTail.dbits = s.dbits := rfl
@[simp] theorem State.clearTail_dsyms : s.clearTail.dsyms = s.dsyms := rfl
@[simp] theorem State.clearTail_chanP : s.clearTail.chanP = s.chanP := rfl
@[simp] theorem State.clearTail_chanS : s.clearTail.chanS = s.chanS := rfl
@[simp] theorem State.clearTail_host : s.clearTail.host = s.host := rfl
@[simp] theorem State.clearTail_reads : s.clearTail.reads = s.reads := rfl
@[simp] theorem State.clearTail_draws : s.clearTail.draws = s.draws := rfl
@[simp] theorem State.clearTail_entry (y : Byte) : s.clearTail.entry y = s.entry y := rfl

/-! ## setMode -/

@[simp] theorem State.setMode_mode (m : Mode) : (s.setMode m).mode = m := rfl
@[simp] theorem State.setMode_err (m : Mode) : (s.setMode m).err = s.err := rfl
@[simp] theorem State.setMode_ecode (m : Mode) : (s.setMode m).ecode = s.ecode := rfl
@[simp] theorem State.setMode_epos (m : Mode) : (s.setMode m).epos = s.epos := rfl
@[simp] theorem State.setMode_ecmd (m : Mode) : (s.setMode m).ecmd = s.ecmd := rfl
@[simp] theorem State.setMode_ct (m : Mode) : (s.setMode m).ct = s.ct := rfl
@[simp] theorem State.setMode_tvalid (m : Mode) : (s.setMode m).tvalid = s.tvalid := rfl
@[simp] theorem State.setMode_tlen (m : Mode) : (s.setMode m).tlen = s.tlen := rfl
@[simp] theorem State.setMode_tbits (m : Mode) : (s.setMode m).tbits = s.tbits := rfl
@[simp] theorem State.setMode_lsel (m : Mode) : (s.setMode m).lsel = s.lsel := rfl
@[simp] theorem State.setMode_lsym (m : Mode) : (s.setMode m).lsym = s.lsym := rfl
@[simp] theorem State.setMode_lcnt (m : Mode) : (s.setMode m).lcnt = s.lcnt := rfl
@[simp] theorem State.setMode_pbuf (m : Mode) : (s.setMode m).pbuf = s.pbuf := rfl
@[simp] theorem State.setMode_pcnt (m : Mode) : (s.setMode m).pcnt = s.pcnt := rfl
@[simp] theorem State.setMode_pany (m : Mode) : (s.setMode m).pany = s.pany := rfl
@[simp] theorem State.setMode_plast (m : Mode) : (s.setMode m).plast = s.plast := rfl
@[simp] theorem State.setMode_acc (m : Mode) : (s.setMode m).acc = s.acc := rfl
@[simp] theorem State.setMode_acclen (m : Mode) : (s.setMode m).acclen = s.acclen := rfl
@[simp] theorem State.setMode_pbits (m : Mode) : (s.setMode m).pbits = s.pbits := rfl
@[simp] theorem State.setMode_pbytes (m : Mode) : (s.setMode m).pbytes = s.pbytes := rfl
@[simp] theorem State.setMode_dbits (m : Mode) : (s.setMode m).dbits = s.dbits := rfl
@[simp] theorem State.setMode_dsyms (m : Mode) : (s.setMode m).dsyms = s.dsyms := rfl
@[simp] theorem State.setMode_chanP (m : Mode) : (s.setMode m).chanP = s.chanP := rfl
@[simp] theorem State.setMode_chanS (m : Mode) : (s.setMode m).chanS = s.chanS := rfl
@[simp] theorem State.setMode_host (m : Mode) : (s.setMode m).host = s.host := rfl
@[simp] theorem State.setMode_reads (m : Mode) : (s.setMode m).reads = s.reads := rfl
@[simp] theorem State.setMode_draws (m : Mode) : (s.setMode m).draws = s.draws := rfl
@[simp] theorem State.setMode_entry (m : Mode) (y : Byte) : (s.setMode m).entry y = s.entry y := rfl

/-! ## recordError -/

@[simp] theorem State.recordError_mode (e : ErrCode) (p : BitVec 4) (w : Word) : (s.recordError e p w).mode = s.mode := rfl
@[simp] theorem State.recordError_err (e : ErrCode) (p : BitVec 4) (w : Word) : (s.recordError e p w).err = true := rfl
@[simp] theorem State.recordError_ecode (e : ErrCode) (p : BitVec 4) (w : Word) : (s.recordError e p w).ecode = e := rfl
@[simp] theorem State.recordError_epos (e : ErrCode) (p : BitVec 4) (w : Word) : (s.recordError e p w).epos = p := rfl
@[simp] theorem State.recordError_ecmd (e : ErrCode) (p : BitVec 4) (w : Word) : (s.recordError e p w).ecmd = w := rfl
@[simp] theorem State.recordError_ct (e : ErrCode) (p : BitVec 4) (w : Word) : (s.recordError e p w).ct = s.ct := rfl
@[simp] theorem State.recordError_tvalid (e : ErrCode) (p : BitVec 4) (w : Word) : (s.recordError e p w).tvalid = s.tvalid := rfl
@[simp] theorem State.recordError_tlen (e : ErrCode) (p : BitVec 4) (w : Word) : (s.recordError e p w).tlen = s.tlen := rfl
@[simp] theorem State.recordError_tbits (e : ErrCode) (p : BitVec 4) (w : Word) : (s.recordError e p w).tbits = s.tbits := rfl
@[simp] theorem State.recordError_lsel (e : ErrCode) (p : BitVec 4) (w : Word) : (s.recordError e p w).lsel = s.lsel := rfl
@[simp] theorem State.recordError_lsym (e : ErrCode) (p : BitVec 4) (w : Word) : (s.recordError e p w).lsym = s.lsym := rfl
@[simp] theorem State.recordError_lcnt (e : ErrCode) (p : BitVec 4) (w : Word) : (s.recordError e p w).lcnt = s.lcnt := rfl
@[simp] theorem State.recordError_pbuf (e : ErrCode) (p : BitVec 4) (w : Word) : (s.recordError e p w).pbuf = s.pbuf := rfl
@[simp] theorem State.recordError_pcnt (e : ErrCode) (p : BitVec 4) (w : Word) : (s.recordError e p w).pcnt = s.pcnt := rfl
@[simp] theorem State.recordError_pany (e : ErrCode) (p : BitVec 4) (w : Word) : (s.recordError e p w).pany = s.pany := rfl
@[simp] theorem State.recordError_plast (e : ErrCode) (p : BitVec 4) (w : Word) : (s.recordError e p w).plast = s.plast := rfl
@[simp] theorem State.recordError_acc (e : ErrCode) (p : BitVec 4) (w : Word) : (s.recordError e p w).acc = s.acc := rfl
@[simp] theorem State.recordError_acclen (e : ErrCode) (p : BitVec 4) (w : Word) : (s.recordError e p w).acclen = s.acclen := rfl
@[simp] theorem State.recordError_pbits (e : ErrCode) (p : BitVec 4) (w : Word) : (s.recordError e p w).pbits = s.pbits := rfl
@[simp] theorem State.recordError_pbytes (e : ErrCode) (p : BitVec 4) (w : Word) : (s.recordError e p w).pbytes = s.pbytes := rfl
@[simp] theorem State.recordError_dbits (e : ErrCode) (p : BitVec 4) (w : Word) : (s.recordError e p w).dbits = s.dbits := rfl
@[simp] theorem State.recordError_dsyms (e : ErrCode) (p : BitVec 4) (w : Word) : (s.recordError e p w).dsyms = s.dsyms := rfl
@[simp] theorem State.recordError_chanP (e : ErrCode) (p : BitVec 4) (w : Word) : (s.recordError e p w).chanP = s.chanP := rfl
@[simp] theorem State.recordError_chanS (e : ErrCode) (p : BitVec 4) (w : Word) : (s.recordError e p w).chanS = s.chanS := rfl
@[simp] theorem State.recordError_host (e : ErrCode) (p : BitVec 4) (w : Word) : (s.recordError e p w).host = s.host := rfl
@[simp] theorem State.recordError_reads (e : ErrCode) (p : BitVec 4) (w : Word) : (s.recordError e p w).reads = s.reads := rfl
@[simp] theorem State.recordError_draws (e : ErrCode) (p : BitVec 4) (w : Word) : (s.recordError e p w).draws = s.draws := rfl
@[simp] theorem State.recordError_entry (e : ErrCode) (p : BitVec 4) (w : Word) (y : Byte) : (s.recordError e p w).entry y = s.entry y := rfl

/-! ## clearError -/

@[simp] theorem State.clearError_mode : s.clearError.mode = s.mode := rfl
@[simp] theorem State.clearError_err : s.clearError.err = false := rfl
@[simp] theorem State.clearError_ecode : s.clearError.ecode = .none := rfl
@[simp] theorem State.clearError_epos : s.clearError.epos = 0 := rfl
@[simp] theorem State.clearError_ecmd : s.clearError.ecmd = 0 := rfl
@[simp] theorem State.clearError_ct : s.clearError.ct = s.ct := rfl
@[simp] theorem State.clearError_tvalid : s.clearError.tvalid = s.tvalid := rfl
@[simp] theorem State.clearError_tlen : s.clearError.tlen = s.tlen := rfl
@[simp] theorem State.clearError_tbits : s.clearError.tbits = s.tbits := rfl
@[simp] theorem State.clearError_lsel : s.clearError.lsel = s.lsel := rfl
@[simp] theorem State.clearError_lsym : s.clearError.lsym = s.lsym := rfl
@[simp] theorem State.clearError_lcnt : s.clearError.lcnt = s.lcnt := rfl
@[simp] theorem State.clearError_pbuf : s.clearError.pbuf = s.pbuf := rfl
@[simp] theorem State.clearError_pcnt : s.clearError.pcnt = s.pcnt := rfl
@[simp] theorem State.clearError_pany : s.clearError.pany = s.pany := rfl
@[simp] theorem State.clearError_plast : s.clearError.plast = s.plast := rfl
@[simp] theorem State.clearError_acc : s.clearError.acc = s.acc := rfl
@[simp] theorem State.clearError_acclen : s.clearError.acclen = s.acclen := rfl
@[simp] theorem State.clearError_pbits : s.clearError.pbits = s.pbits := rfl
@[simp] theorem State.clearError_pbytes : s.clearError.pbytes = s.pbytes := rfl
@[simp] theorem State.clearError_dbits : s.clearError.dbits = s.dbits := rfl
@[simp] theorem State.clearError_dsyms : s.clearError.dsyms = s.dsyms := rfl
@[simp] theorem State.clearError_chanP : s.clearError.chanP = s.chanP := rfl
@[simp] theorem State.clearError_chanS : s.clearError.chanS = s.chanS := rfl
@[simp] theorem State.clearError_host : s.clearError.host = s.host := rfl
@[simp] theorem State.clearError_reads : s.clearError.reads = s.reads := rfl
@[simp] theorem State.clearError_draws : s.clearError.draws = s.draws := rfl
@[simp] theorem State.clearError_entry (y : Byte) : s.clearError.entry y = s.entry y := rfl

/-! ## invalidateTable -/

@[simp] theorem invalidateTable_mode : (invalidateTable s).mode = s.mode := rfl
@[simp] theorem invalidateTable_err : (invalidateTable s).err = s.err := rfl
@[simp] theorem invalidateTable_ecode : (invalidateTable s).ecode = s.ecode := rfl
@[simp] theorem invalidateTable_epos : (invalidateTable s).epos = s.epos := rfl
@[simp] theorem invalidateTable_ecmd : (invalidateTable s).ecmd = s.ecmd := rfl
@[simp] theorem invalidateTable_ct : (invalidateTable s).ct = s.ct.map fun e => { e with valid := false } := rfl
@[simp] theorem invalidateTable_tvalid : (invalidateTable s).tvalid = s.tvalid := rfl
@[simp] theorem invalidateTable_tlen : (invalidateTable s).tlen = s.tlen := rfl
@[simp] theorem invalidateTable_tbits : (invalidateTable s).tbits = s.tbits := rfl
@[simp] theorem invalidateTable_lsel : (invalidateTable s).lsel = s.lsel := rfl
@[simp] theorem invalidateTable_lsym : (invalidateTable s).lsym = s.lsym := rfl
@[simp] theorem invalidateTable_lcnt : (invalidateTable s).lcnt = s.lcnt := rfl
@[simp] theorem invalidateTable_pbuf : (invalidateTable s).pbuf = s.pbuf := rfl
@[simp] theorem invalidateTable_pcnt : (invalidateTable s).pcnt = s.pcnt := rfl
@[simp] theorem invalidateTable_pany : (invalidateTable s).pany = s.pany := rfl
@[simp] theorem invalidateTable_plast : (invalidateTable s).plast = s.plast := rfl
@[simp] theorem invalidateTable_acc : (invalidateTable s).acc = s.acc := rfl
@[simp] theorem invalidateTable_acclen : (invalidateTable s).acclen = s.acclen := rfl
@[simp] theorem invalidateTable_pbits : (invalidateTable s).pbits = s.pbits := rfl
@[simp] theorem invalidateTable_pbytes : (invalidateTable s).pbytes = s.pbytes := rfl
@[simp] theorem invalidateTable_dbits : (invalidateTable s).dbits = s.dbits := rfl
@[simp] theorem invalidateTable_dsyms : (invalidateTable s).dsyms = s.dsyms := rfl
@[simp] theorem invalidateTable_chanP : (invalidateTable s).chanP = s.chanP := rfl
@[simp] theorem invalidateTable_chanS : (invalidateTable s).chanS = s.chanS := rfl
@[simp] theorem invalidateTable_host : (invalidateTable s).host = s.host := rfl
@[simp] theorem invalidateTable_reads : (invalidateTable s).reads = s.reads := rfl
@[simp] theorem invalidateTable_draws : (invalidateTable s).draws = s.draws := rfl

/-! ## startInvocation -/

@[simp] theorem startInvocation_mode : (startInvocation s).mode = .idle := rfl
@[simp] theorem startInvocation_err : (startInvocation s).err = false := rfl
@[simp] theorem startInvocation_ecode : (startInvocation s).ecode = .none := rfl
@[simp] theorem startInvocation_epos : (startInvocation s).epos = 0 := rfl
@[simp] theorem startInvocation_ecmd : (startInvocation s).ecmd = 0 := rfl
@[simp] theorem startInvocation_ct : (startInvocation s).ct = s.ct := rfl
@[simp] theorem startInvocation_tvalid : (startInvocation s).tvalid = s.tvalid := rfl
@[simp] theorem startInvocation_tlen : (startInvocation s).tlen = s.tlen := rfl
@[simp] theorem startInvocation_tbits : (startInvocation s).tbits = s.tbits := rfl
@[simp] theorem startInvocation_lsel : (startInvocation s).lsel = false := rfl
@[simp] theorem startInvocation_lsym : (startInvocation s).lsym = 0 := rfl
@[simp] theorem startInvocation_lcnt : (startInvocation s).lcnt = 0 := rfl
@[simp] theorem startInvocation_pbuf : (startInvocation s).pbuf = 0 := rfl
@[simp] theorem startInvocation_pcnt : (startInvocation s).pcnt = 0 := rfl
@[simp] theorem startInvocation_pany : (startInvocation s).pany = false := rfl
@[simp] theorem startInvocation_plast : (startInvocation s).plast = 0 := rfl
@[simp] theorem startInvocation_acc : (startInvocation s).acc = 0 := rfl
@[simp] theorem startInvocation_acclen : (startInvocation s).acclen = 0 := rfl
@[simp] theorem startInvocation_pbits : (startInvocation s).pbits = 0 := rfl
@[simp] theorem startInvocation_pbytes : (startInvocation s).pbytes = 0 := rfl
@[simp] theorem startInvocation_dbits : (startInvocation s).dbits = 0 := rfl
@[simp] theorem startInvocation_dsyms : (startInvocation s).dsyms = 0 := rfl
@[simp] theorem startInvocation_chanP : (startInvocation s).chanP = s.chanP := rfl
@[simp] theorem startInvocation_chanS : (startInvocation s).chanS = s.chanS := rfl
@[simp] theorem startInvocation_host : (startInvocation s).host = s.host := rfl
@[simp] theorem startInvocation_reads : (startInvocation s).reads = s.reads := rfl
@[simp] theorem startInvocation_draws : (startInvocation s).draws = s.draws := rfl
@[simp] theorem startInvocation_entry (y : Byte) : (startInvocation s).entry y = s.entry y := rfl

end Sys2Proof.Machine
end

