-- ==== Sys2Proof/Laws/Table.lean ====
section
/-! SUPPORT. The code table as a map from symbols to entries: what a write and an invalidation do to each entry,
and what Match finds (spec/10_state.md R29; spec/43_decode.md R140). -/

namespace Sys2Proof.Machine

variable (s : State)

theorem entry_setEntry (x y : Byte) (e : CodeEntry) :
    (s.setEntry x e).entry y = if y = x then e else s.entry y := by
  by_cases h : y = x
  · subst h; simp [State.entry]
  · have hn : x.toNat ≠ y.toNat := fun hc => h (BitVec.eq_of_toNat_eq hc.symm)
    simp [State.entry, h, hn]

@[simp] theorem entry_setEntry_self (x : Byte) (e : CodeEntry) : (s.setEntry x e).entry x = e := by
  simp [entry_setEntry]

theorem entry_setEntry_of_ne {x y : Byte} (e : CodeEntry) (h : y ≠ x) :
    (s.setEntry x e).entry y = s.entry y := by
  simp [entry_setEntry, h]

@[simp] theorem entry_invalidateTable (y : Byte) :
    (invalidateTable s).entry y = { s.entry y with valid := false } := by
  simp [State.entry]

@[simp] theorem entry_hardReset (y : Byte) :
    (hardReset s).entry y = ⟨false, Config.resetLen s.draws y, Config.resetBits s.draws y⟩ := by
  simp [State.entry, hardReset, State.afterReset, resetTable]

/-- Two tables are equal if all their entries are. -/
theorem ct_ext {s t : State} (h : ∀ x, s.entry x = t.entry x) : s.ct = t.ct := by
  apply Vector.ext
  intro k hk
  have := h (BitVec.ofNat 8 k)
  simpa [State.entry, Nat.mod_eq_of_lt hk] using this

theorem hits_iff (e : CodeEntry) (l : BitVec 8) (a : CodeBits) :
    e.hits l a = true ↔ e.valid = true ∧ e.len = l ∧ e.bits = a := by
  simp [CodeEntry.hits]

/-- Match holds exactly the symbols whose valid entry equals the accumulator (R140). -/
theorem mem_matchSet (x : Byte) :
    x ∈ matchSet s ↔ (s.entry x).valid = true ∧ (s.entry x).len = s.acclen ∧ (s.entry x).bits = s.acc := by
  rw [← hits_iff]
  simp only [matchSet, List.mem_map, List.mem_filter, List.mem_zipIdx_iff_getElem?, Vector.getElem?_toList]
  constructor
  · rintro ⟨⟨e, k⟩, ⟨hk, hh⟩, rfl⟩
    obtain ⟨hlt, he⟩ := Vector.getElem?_eq_some_iff.mp hk
    simpa [State.entry, Nat.mod_eq_of_lt hlt, he] using hh
  · intro h
    refine ⟨(s.entry x, x.toNat), ⟨?_, h⟩, by simp⟩
    exact Vector.getElem?_eq_some_iff.mpr ⟨x.isLt, rfl⟩

/-- Match lists no symbol twice. -/
theorem nodup_matchSet : (matchSet s).Nodup := by
  have hz : (s.ct.toList.zipIdx.map Prod.snd).Nodup := by
    rw [List.zipIdx_map_snd]; exact List.nodup_range'
  have hs : ((s.ct.toList.zipIdx.filter fun p => p.1.hits s.acclen s.acc).map Prod.snd).Nodup :=
    hz.sublist (List.filter_sublist.map _)
  have : matchSet s = ((s.ct.toList.zipIdx.filter fun p => p.1.hits s.acclen s.acc).map Prod.snd).map (BitVec.ofNat 8) := by
    simp [matchSet]
  rw [this]
  refine List.Nodup.map_on ?_ hs
  intro a ha b hb hab
  have lt : ∀ k ∈ (s.ct.toList.zipIdx.filter fun p => p.1.hits s.acclen s.acc).map Prod.snd, k < 256 := by
    intro k hk
    simp only [List.mem_map, List.mem_filter, List.mem_zipIdx_iff_getElem?, Vector.getElem?_toList] at hk
    obtain ⟨⟨e, k⟩, ⟨hk, -⟩, rfl⟩ := hk
    exact (Vector.getElem?_eq_some_iff.mp hk).1
  have := congrArg BitVec.toNat hab
  simpa [Nat.mod_eq_of_lt (lt a ha), Nat.mod_eq_of_lt (lt b hb)] using this

theorem matchSet_eq_nil : matchSet s = [] ↔
    ∀ x, (s.entry x).valid = true → ¬((s.entry x).len = s.acclen ∧ (s.entry x).bits = s.acc) := by
  rw [List.eq_nil_iff_forall_not_mem]
  simp only [mem_matchSet, not_and]

theorem matchSet_eq_singleton (x : Byte) : matchSet s = [x] ↔ x ∈ matchSet s ∧ ∀ y ∈ matchSet s, y = x := by
  constructor
  · intro h; simp [h]
  · rintro ⟨hx, hu⟩
    have hn := nodup_matchSet s
    match hm : matchSet s with
    | [] => simp [hm] at hx
    | [y] => simp [hm] at hx; simp [hx]
    | y :: z :: r =>
      have h1 := hu y (by simp [hm])
      have h2 := hu z (by simp [hm])
      rw [hm] at hn
      simp [h1, h2] at hn

end Sys2Proof.Machine
end

