-- ==== Sys2Proof/Laws/Pack.lean ====
section
/-! SUPPORT. The packer against the source's whole-buffer split: what packing one bit and packing a bit string do to
the whole state (spec/42_pack.md R120 to R122). -/

namespace Sys2Proof.Machine

/-! ## The 8-bit split -/

@[simp] theorem fullGroups_nil : fullGroups [] = [] := rfl

@[simp] theorem lastPart_nil : lastPart [] = [] := rfl

theorem fullGroups_of_lt {S : List Bool} (h : S.length < 8) : fullGroups S = [] := by
  simp [fullGroups, Nat.div_eq_of_lt h]

theorem lastPart_of_lt {S : List Bool} (h : S.length < 8) : lastPart S = S := by
  simp [lastPart, Nat.div_eq_of_lt h]

/-- A first group of eight bits splits off. -/
theorem fullGroups_append {g S : List Bool} (h : g.length = 8) : fullGroups (g ++ S) = g :: fullGroups S := by
  have hd : (g ++ S).length / 8 = S.length / 8 + 1 := by rw [List.length_append, h]; omega
  rw [fullGroups, hd, List.range_succ_eq_map, List.map_cons, List.map_map]
  congr 1
  · simp [← h]
  · apply List.map_congr_left
    intro j _
    simp only [Function.comp]
    rw [show 8 * (j + 1) = g.length + 8 * j by omega, List.drop_length_add_append]

theorem lastPart_append {g S : List Bool} (h : g.length = 8) : lastPart (g ++ S) = lastPart S := by
  have hd : (g ++ S).length / 8 = S.length / 8 + 1 := by rw [List.length_append, h]; omega
  rw [lastPart, hd, show 8 * (S.length / 8 + 1) = g.length + 8 * (S.length / 8) by omega,
    List.drop_length_add_append, lastPart]

@[simp] theorem length_fullGroups (S : List Bool) : (fullGroups S).length = S.length / 8 := by
  simp [fullGroups]

theorem length_lastPart (S : List Bool) : (lastPart S).length = S.length % 8 := by
  simp [lastPart]; omega

theorem length_of_mem_fullGroups {S g : List Bool} (h : g ∈ fullGroups S) : g.length = 8 := by
  simp only [fullGroups, List.mem_map, List.mem_range] at h
  obtain ⟨j, hj, rfl⟩ := h
  simp; omega

/-- The groups, put together again, are the stream. -/
theorem flatten_fullGroups (S : List Bool) : (fullGroups S).flatten ++ lastPart S = S := by
  induction h : S.length / 8 generalizing S with
  | zero =>
    have : S.length < 8 := by omega
    simp [fullGroups_of_lt this, lastPart_of_lt this]
  | succ q ih =>
    have hg : (S.take 8).length = 8 := by rw [List.length_take]; omega
    have hS : S = S.take 8 ++ S.drop 8 := (List.take_append_drop 8 S).symm
    have hr := ih (S.drop 8) (by rw [List.length_drop]; omega)
    calc (fullGroups S).flatten ++ lastPart S
        = (fullGroups (S.take 8 ++ S.drop 8)).flatten ++ lastPart (S.take 8 ++ S.drop 8) := by rw [← hS]
      _ = S.take 8 ++ ((fullGroups (S.drop 8)).flatten ++ lastPart (S.drop 8)) := by
          rw [fullGroups_append hg, lastPart_append hg, List.flatten_cons, List.append_assoc]
      _ = S := by rw [hr, ← hS]

theorem toNat_groupByte {g : List Bool} (h : g.length ≤ 8) : (groupByte g).toNat = val g := by
  have := (val_lt g).trans_le (Nat.pow_le_pow_right (by omega : 0 < 2) h)
  exact Nat.mod_eq_of_lt this

/-- The unpacker gives back a full group (R55). -/
theorem byteString_groupByte {g : List Bool} (h : g.length = 8) : byteString (groupByte g) = g := by
  rw [byteString, toNat_groupByte h.le, ← h, str_val]

/-! ## Packing -/

/-- A state that differs from `s` only as packing `c` after the pending bits of `s` makes it differ. -/
def packed (s : State) (c : List Bool) : State :=
  let S := s.pendingString ++ c
  { s with
    chanP := s.chanP ++ (fullGroups S).map groupByte
    pbuf := groupByte (lastPart S)
    pcnt := BitVec.ofNat 3 (S.length % 8)
    pany := s.pany || !c.isEmpty
    plast := (((fullGroups S).map groupByte).getLast?).getD s.plast
    pbits := s.pbits + BitVec.ofNat 32 c.length
    pbytes := s.pbytes + BitVec.ofNat 32 (S.length / 8) }

@[simp] theorem length_pendingString (s : State) : s.pendingString.length = s.pcnt.toNat := by
  simp [State.pendingString]

theorem val_pendingString {s : State} (h : s.pbuf.toNat < 2 ^ s.pcnt.toNat) :
    val s.pendingString = s.pbuf.toNat := by
  rw [State.pendingString, val_str, Nat.mod_eq_of_lt h]

theorem packed_nil {s : State} (h : s.pbuf.toNat < 2 ^ s.pcnt.toNat) : packed s [] = s := by
  have hl : s.pendingString.length < 8 := by rw [length_pendingString]; exact s.pcnt.isLt
  have h1 : groupByte s.pendingString = s.pbuf := by
    apply BitVec.eq_of_toNat_eq
    rw [toNat_groupByte hl.le, val_pendingString h]
  have h2 : BitVec.ofNat 3 (s.pcnt.toNat % 8) = s.pcnt := by
    apply BitVec.eq_of_toNat_eq; simpa using s.pcnt.isLt
  have h3 : s.pcnt.toNat / 8 = 0 := Nat.div_eq_of_lt s.pcnt.isLt
  simp only [packed, List.append_nil, fullGroups_of_lt hl, lastPart_of_lt hl, h1, length_pendingString, h2, h3]
  simp

/-- The bit completes no group: it joins the pending bits (R120). -/
theorem packBit_of_lt {s : State} {b : Bool} (h : s.pcnt.toNat < 7) :
    packBit s b = { s with
      pbits := s.pbits + 1, pany := true, pbuf := shiftIn s.pbuf b, pcnt := BitVec.ofNat 3 (s.pcnt.toNat + 1) } := by
  simp only [packBit]
  rw [if_neg (by omega)]

/-- The bit completes a group: its byte is emitted (R120). -/
theorem packBit_of_eq {s : State} {b : Bool} (h : s.pcnt.toNat = 7) :
    packBit s b = { s with
      pbits := s.pbits + 1, pany := true, chanP := s.chanP ++ [shiftIn s.pbuf b], plast := shiftIn s.pbuf b,
      pbytes := s.pbytes + 1, pbuf := 0, pcnt := 0 } := by
  simp only [packBit]
  rw [if_pos (by omega)]
  rfl

theorem pending_shiftIn {s : State} (b : Bool) (h : s.pbuf.toNat < 2 ^ s.pcnt.toNat) :
    (shiftIn s.pbuf b).toNat = val (s.pendingString ++ [b]) := by
  have hb : 2 * s.pbuf.toNat + b.toNat < 2 ^ 8 := by
    have h7 : s.pcnt.toNat ≤ 7 := by have := s.pcnt.isLt; omega
    have := h.trans_le (Nat.pow_le_pow_right (by omega : 0 < 2) h7)
    have := Bool.toNat_le b
    omega
  rw [toNat_shiftIn _ _ (by omega), val_concat, val_pendingString h, Nat.mod_eq_of_lt hb]

theorem bv32_add_succ (x : BitVec 32) (k : Nat) : x + 1 + BitVec.ofNat 32 k = x + BitVec.ofNat 32 (k + 1) := by
  rw [BitVec.add_assoc, ← BitVec.ofNat_add_ofNat (n := 32) k 1, BitVec.add_comm (BitVec.ofNat 32 k)]
  rfl

/-- Packing a bit string is the source's split of the pending bits followed by it (R122). -/
theorem packBits_eq_packed {s : State} (c : List Bool) (h : s.pbuf.toNat < 2 ^ s.pcnt.toNat) :
    packBits s c = packed s c := by
  induction c generalizing s with
  | nil => rw [packed_nil h]; rfl
  | cons b c ih =>
    have hlt := s.pcnt.isLt
    have hstep : packBits s (b :: c) = packBits (packBit s b) c := rfl
    rw [hstep]
    have hv := pending_shiftIn b h
    have hl : (s.pendingString ++ [b]).length = s.pcnt.toNat + 1 := by simp
    have hsplit : s.pendingString ++ b :: c = (s.pendingString ++ [b]) ++ c := by simp
    by_cases h7 : s.pcnt.toNat = 7
    · have h8 : (s.pendingString ++ [b]).length = 8 := by omega
      have hg : groupByte (s.pendingString ++ [b]) = shiftIn s.pbuf b := by
        apply BitVec.eq_of_toNat_eq; rw [toNat_groupByte h8.le, hv]
      rw [packBit_of_eq h7, ih (by simp)]
      have hp : ∀ t : State, t.pcnt = 0 → t.pendingString = [] := by
        intro t ht; simp [State.pendingString, ht]
      have hq : (8 + c.length) / 8 = c.length / 8 + 1 := by omega
      have hr : (8 + c.length) % 8 = c.length % 8 := by omega
      have hlen : ((s.pendingString ++ [b]) ++ c).length = 8 + c.length := by rw [List.length_append, h8]
      simp only [packed]
      rw [hp _ rfl, List.nil_append, hsplit, hlen, hq, hr, fullGroups_append h8, lastPart_append h8, List.map_cons, hg,
        List.getLast?_cons, Option.getD_some, bv32_add_succ, bv32_add_succ]
      simp
    · have h7' : s.pcnt.toNat < 7 := by omega
      have hn : (BitVec.ofNat 3 (s.pcnt.toNat + 1)).toNat = s.pcnt.toNat + 1 := by
        simp; omega
      have hpend : ∀ t : State, t.pbuf = shiftIn s.pbuf b → t.pcnt = BitVec.ofNat 3 (s.pcnt.toNat + 1) →
          t.pendingString = s.pendingString ++ [b] := by
        intro t h1 h2
        rw [State.pendingString, h1, h2, hn, hv, ← hl, str_val]
      rw [packBit_of_lt h7', ih (by rw [hn, hv, ← hl]; exact val_lt _)]
      simp only [packed]
      rw [hpend _ rfl rfl, hsplit, bv32_add_succ]
      simp


/-- What packing leaves pending is right-aligned (R32). -/
theorem packed_pbuf_lt (s : State) (c : List Bool) : (packed s c).pbuf.toNat < 2 ^ (packed s c).pcnt.toNat := by
  simp only [packed]
  have h := length_lastPart (s.pendingString ++ c)
  have hp : (BitVec.ofNat 3 ((s.pendingString ++ c).length % 8)).toNat = (lastPart (s.pendingString ++ c)).length := by
    rw [h]; simp
  rw [toNat_groupByte (by omega), hp]
  exact val_lt _

/-- Packing touches only the packer's registers, its counters and channel P. -/
theorem packBits_frame (s : State) (c : List Bool) (h : s.pbuf.toNat < 2 ^ s.pcnt.toNat) :
    let t := packBits s c
    t = { s with
      chanP := t.chanP, pbuf := t.pbuf, pcnt := t.pcnt, pany := t.pany, plast := t.plast
      pbits := t.pbits, pbytes := t.pbytes } := by
  rw [packBits_eq_packed c h]
  rfl

end Sys2Proof.Machine
end

