-- ==== Sys2Proof/Laws/Scan.lean ====
section
/-! SUPPORT. The source's greedy scan on bit strings: the reverse map, concatenation, prefix-free tables and code
trees (spec/43_decode.md R140, R147 to R149). -/

namespace Sys2Proof.Machine

variable {s : State}

theorem mem_symbols (x : Byte) : x ∈ symbols := by
  simp only [symbols, List.mem_map, List.mem_range]
  exact ⟨x.toNat, x.isLt, by simp⟩

@[simp] theorem length_codewordOf (s : State) (x : Byte) : (s.codewordOf x).length = (s.entry x).len.toNat := by
  simp [State.codewordOf, CodeEntry.codeword]

/-- What the reverse map gives is a valid entry with that codeword. -/
theorem reverseMap_some {a : List Bool} {x : Byte} (h : s.reverseMap a = some x) :
    (s.entry x).valid = true ∧ s.codewordOf x = a := by
  have := List.find?_some h
  simpa using this

theorem reverseMap_none {a : List Bool} :
    s.reverseMap a = none ↔ ∀ x, (s.entry x).valid = true → s.codewordOf x ≠ a := by
  simp only [State.reverseMap, List.find?_eq_none, Bool.and_eq_true, decide_eq_true_eq, not_and]
  exact ⟨fun h x => h x (mem_symbols x), fun h x _ => h x⟩

/-- With distinct codewords the reverse map inverts the table (R147). -/
theorem reverseMap_eq_some (hd : DistinctCodewords s) {a : List Bool} {x : Byte} :
    s.reverseMap a = some x ↔ (s.entry x).valid = true ∧ s.codewordOf x = a := by
  refine ⟨reverseMap_some, fun ⟨hv, hc⟩ => ?_⟩
  cases h : s.reverseMap a with
  | none => exact absurd hc (reverseMap_none.mp h x hv)
  | some y =>
    obtain ⟨hy, hcy⟩ := reverseMap_some h
    rw [hd y x hy hv (hcy.trans hc.symm)]

/-- No codeword is longer than CW_MAX (R6). -/
theorem reverseMap_long {a : List Bool} (h : 255 < a.length) : s.reverseMap a = none := by
  rw [reverseMap_none]
  rintro x _ rfl
  have := (s.entry x).len.isLt
  rw [length_codewordOf] at h
  omega

theorem greedyScan_append (m : List Bool → Option Byte) (a u v : List Bool) :
    greedyScan m a (u ++ v) =
      ((greedyScan m a u).1 ++ (greedyScan m (greedyScan m a u).2 v).1,
        (greedyScan m (greedyScan m a u).2 v).2) := by
  induction u generalizing a with
  | nil => simp [greedyScan]
  | cons b u ih =>
    simp only [List.cons_append, greedyScan]
    cases m (a ++ [b]) with
    | none => exact ih _
    | some x => simp [ih]

/-- The bits scanned are the codewords emitted and the string left over: nothing is lost. -/
theorem greedyScan_bits (a u : List Bool) :
    a ++ u = s.stream (greedyScan s.reverseMap a u).1 ++ (greedyScan s.reverseMap a u).2 := by
  induction u generalizing a with
  | nil => simp [greedyScan, State.stream]
  | cons b u ih =>
    simp only [greedyScan]
    cases h : s.reverseMap (a ++ [b]) with
    | none => simpa using ih (a ++ [b])
    | some x =>
      have hc := (reverseMap_some h).2
      have := ih []
      simp only [State.stream, List.flatMap_cons, hc, List.append_assoc, List.nil_append] at this ⊢
      rw [← this]; simp

/-- Beyond 255 bits nothing more is emitted: the source "can never match again" (R141). -/
theorem greedyScan_long {a : List Bool} (u : List Bool) (h : 255 ≤ a.length) :
    greedyScan s.reverseMap a u = ([], a ++ u) := by
  induction u generalizing a with
  | nil => simp [greedyScan]
  | cons b u ih =>
    simp only [greedyScan]
    have hl : (a ++ [b]).length = a.length + 1 := by simp
    rw [reverseMap_long (by omega)]
    exact (ih (by omega)).trans (by simp)

theorem PrefixFree.distinct (h : PrefixFree s) : DistinctCodewords s :=
  fun x y hx hy he => h x y hx hy (he ▸ List.prefix_rfl)

/-- From inside a codeword the scan runs to its end and emits its symbol (R148). -/
theorem greedyScan_codeword (h : PrefixFree s) {x : Byte} (hx : (s.entry x).valid = true)
    {a c : List Bool} (hc : c ≠ []) (hac : a ++ c = s.codewordOf x) (u : List Bool) :
    greedyScan s.reverseMap a (c ++ u) =
      (x :: (greedyScan s.reverseMap [] u).1, (greedyScan s.reverseMap [] u).2) := by
  induction c generalizing a with
  | nil => exact absurd rfl hc
  | cons b c ih =>
    simp only [List.cons_append, greedyScan]
    by_cases hn : c = []
    · subst hn
      rw [(reverseMap_eq_some h.distinct).mpr ⟨hx, hac.symm⟩]
      rfl
    · have hnone : s.reverseMap (a ++ [b]) = none := by
        rw [reverseMap_none]
        intro y hy he
        have hp : s.codewordOf y <+: s.codewordOf x := by
          rw [he, ← hac]; exact ⟨c, by simp⟩
        have hyx := h y x hy hx hp
        subst hyx
        have hlen := congrArg List.length (hac.trans he)
        simp only [List.length_append, List.length_cons, List.length_nil] at hlen
        exact hn (List.length_eq_zero_iff.mp (by omega))
      rw [hnone]
      exact ih hn (by simpa using hac)

/-- The scan of a stream gives back its symbols: a greedy scan "can only match at codeword boundaries" (R148). -/
theorem greedyScan_stream (h : PrefixFree s) (hl : ∀ x, (s.entry x).valid = true → 1 ≤ (s.entry x).len.toNat)
    (syms : List Byte) (hs : ∀ x ∈ syms, (s.entry x).valid = true) :
    greedyScan s.reverseMap [] (s.stream syms) = (syms, []) := by
  induction syms with
  | nil => rfl
  | cons x syms ih =>
    have hx := hs x (by simp)
    have hne : s.codewordOf x ≠ [] := by
      intro he
      have h1 := hl x hx
      have h0 := length_codewordOf s x
      rw [he, List.length_nil] at h0
      omega
    have hst : s.stream (x :: syms) = s.codewordOf x ++ s.stream syms := by simp [State.stream]
    rw [hst, greedyScan_codeword h hx (a := []) hne (by simp), ih fun y hy => hs y (by simp [hy])]

/-! ## Code trees (R149) -/

/-- `cur` is the subtree of `root` at the path `a`. -/
def CodeTree.At (root : CodeTree) (a : List Bool) (cur : CodeTree) : Prop :=
  ∀ q y, (a ++ q, y) ∈ root.paths ↔ (q, y) ∈ cur.paths

theorem CodeTree.mem_paths_node {z o : CodeTree} {b : Bool} {q : List Bool} {y : Byte} :
    (b :: q, y) ∈ (CodeTree.node z o).paths ↔ (q, y) ∈ (if b then o else z).paths := by
  cases b <;> simp [CodeTree.paths]

theorem CodeTree.At.child {root z o : CodeTree} {a : List Bool} (h : root.At a (.node z o)) (b : Bool) :
    root.At (a ++ [b]) (if b then o else z) := by
  intro q y
  rw [List.append_assoc, List.singleton_append, h, CodeTree.mem_paths_node]

/-- The walk of a code tree is the greedy scan of its table (R149). -/
theorem greedyScan_eq_walk (hd : DistinctCodewords s) {root : CodeTree} (ht : IsTreeTable s root)
    {z o : CodeTree} (hroot : root = .node z o) (u : List Bool) {a : List Bool} {cur : CodeTree}
    {zc oc : CodeTree} (hcur : cur = .node zc oc) (hat : root.At a cur) :
    greedyScan s.reverseMap a u = root.walk cur a u := by
  induction u generalizing a cur zc oc with
  | nil => subst hcur; rfl
  | cons b u ih =>
    subst hcur
    have hch := hat.child b
    simp only [greedyScan, CodeTree.walk]
    generalize hk : (if b then oc else zc) = k at hch
    cases k with
    | leaf x =>
      have hx : s.reverseMap (a ++ [b]) = some x := by
        rw [reverseMap_eq_some hd, ht]
        have := (hch [] x).mpr (by simp [CodeTree.paths])
        simpa using this
      rw [hx]
      have := ih (a := []) (cur := root) hroot (fun q y => by simp)
      simp only [this]
    | node z' o' =>
      have hx : s.reverseMap (a ++ [b]) = none := by
        rw [reverseMap_none]
        intro x hv hc
        have h1 := (ht x _).mp ⟨hv, hc⟩
        have h2 := (hch [] x).mp (by simpa using h1)
        simp [CodeTree.paths] at h2
      rw [hx]
      exact ih rfl hch

end Sys2Proof.Machine
end

