-- ==== Sys2Proof/Laws/Ops.lean ====
section
/-! SUPPORT. What each shared operation can do, said once: the dispatch rule (spec/40_control.md R90), raising
(spec/60_exceptions.md R172) and the decoder's primitives (spec/43_decode.md R140 to R142). -/

namespace Sys2Proof.Machine

variable {s t : State}

@[simp] theorem Flow.running_andThen (k : State → Flow) : (Flow.running s).andThen k = k s := rfl

@[simp] theorem Flow.ended_andThen (k : State → Flow) : (Flow.ended s).andThen k = .ended s := rfl

@[simp] theorem Flow.state_running : (Flow.running s).state = s := rfl

@[simp] theorem Flow.state_ended : (Flow.ended s).state = s := rfl

theorem Flow.andThen_assoc (f : Flow) (k l : State → Flow) :
    (f.andThen k).andThen l = f.andThen fun s => (k s).andThen l := by
  cases f <;> rfl

theorem raiseError_eq (e : ErrCode) (p : Nat) (cmd : Word) (s : State) :
    raiseError e p cmd s = .ended (s.recordError e (BitVec.ofNat 4 p) cmd) := rfl

/-! ## The dispatch rule (R90) -/

/-- Everything the dispatch rule can do: perform the command's own rule, raise ESEQ, or drop the command. -/
theorem perform_cases {i : Instr} {body : State → Flow} (h : perform i body s = .next t) :
    (s.err = true ∧ runsInError i = false ∧ t = s) ∨
    (s.err = true ∧ runsInError i = true ∧ t = (body s).state) ∨
    (s.err = false ∧ permitted i s.mode = false ∧ t = s.recordError .seq 0 (encode i)) ∨
    (s.err = false ∧ permitted i s.mode = true ∧ t = (body s).state) := by
  have h' := Host.Outcome.next.inj h
  cases he : s.err <;> cases hr : runsInError i <;> cases hp : permitted i s.mode <;>
    simp [he, hr, hp, raiseError] at h' <;> simp [h']

theorem perform_allowed {i : Instr} {body : State → Flow} (he : s.err = false) (hp : permitted i s.mode = true) :
    perform i body s = .next (body s).state := by
  simp [perform, he, hp]

theorem perform_refused {i : Instr} {body : State → Flow} (he : s.err = false) (hp : permitted i s.mode = false) :
    perform i body s = .next (s.recordError .seq 0 (encode i)) := by
  simp [perform, he, hp, raiseError]

theorem perform_dropped {i : Instr} {body : State → Flow} (he : s.err = true) (hr : runsInError i = false) :
    perform i body s = .next s := by
  simp [perform, he, hr]

/-- A command that is allowed in every MODE and runs while ERR = 1 is performed in every state (NOP, INIT). -/
theorem perform_always {i : Instr} {body : State → Flow} (hr : runsInError i = true)
    (hp : ∀ m, permitted i m = true) : perform i body s = .next (body s).state := by
  cases he : s.err <;> simp [perform, he, hr, hp]

/-! ## The decoder's primitives -/

/-- The state after a bit has been appended to the accumulator and before Match (R141). -/
def appendBit (s : State) (b : Bool) : State :=
  { s with acc := shiftIn s.acc b, acclen := s.acclen + 1, dbits := s.dbits + 1 }

/-- The state after a match has been emitted (R141). -/
def emitMatch (s : State) (x : Byte) : State :=
  { s.emitS x with dsyms := s.dsyms + 1, acc := 0, acclen := 0 }

@[simp] theorem entry_appendBit (b : Bool) (x : Byte) : (appendBit s b).entry x = s.entry x := rfl

@[simp] theorem entry_emitMatch (x y : Byte) : (emitMatch s x).entry y = s.entry y := rfl

/-- Everything DecodeBit can do (R141). -/
theorem decodeBit_cases (cmd : Word) (i : Nat) (b : Bool) (s : State) :
    (s.acclen = 255 ∧ decodeBit cmd i b s = .ended (s.recordError .accOvf (BitVec.ofNat 4 i) cmd)) ∨
    (s.acclen ≠ 255 ∧ matchSet (appendBit s b) = [] ∧ decodeBit cmd i b s = .running (appendBit s b)) ∨
    (∃ x, s.acclen ≠ 255 ∧ matchSet (appendBit s b) = [x] ∧
      decodeBit cmd i b s = .running (emitMatch (appendBit s b) x)) ∨
    (s.acclen ≠ 255 ∧ 2 ≤ (matchSet (appendBit s b)).length ∧
      decodeBit cmd i b s = .ended ((appendBit s b).recordError .dup (BitVec.ofNat 4 i) cmd)) := by
  by_cases h : s.acclen = 255
  · left; exact ⟨h, by simp [decodeBit, h, raiseError]⟩
  · right
    have hd : decodeBit cmd i b s = (match matchSet (appendBit s b) with
        | [] => .running (appendBit s b)
        | [x] => .running (emitMatch (appendBit s b) x)
        | _ :: _ :: _ => raiseError .dup i cmd (appendBit s b)) := by
      rw [decodeBit, if_neg h]; rfl
    match hm : matchSet (appendBit s b) with
    | [] => left; exact ⟨h, rfl, by rw [hd, hm]⟩
    | [x] => right; left; exact ⟨x, h, rfl, by rw [hd, hm]⟩
    | x :: y :: r => right; right; exact ⟨h, by simp, by rw [hd, hm]; rfl⟩

/-- What the decoder needs of a state: sound valid entries (R29) and a sound accumulator (R34). -/
structure DecoderSound (s : State) : Prop where
  entries : ∀ x, (s.entry x).valid = true →
    1 ≤ (s.entry x).len.toNat ∧ (s.entry x).bits.toNat < 2 ^ (s.entry x).len.toNat
  accumulator : s.acc.toNat < 2 ^ s.acclen.toNat

theorem DecoderSound.setMode (m : Mode) (h : DecoderSound s) : DecoderSound (s.setMode m) :=
  ⟨h.entries, h.accumulator⟩

theorem Sound.decoderSound (h : Sound s) : DecoderSound s := ⟨h.entries, h.accumulator⟩

@[simp] theorem length_accString : s.accString.length = s.acclen.toNat := by simp [State.accString]

theorem toNat_succ_acclen {n : BitVec 8} (h : n ≠ 255) : (n + 1).toNat = n.toNat + 1 := by
  have h1 : n.toNat ≠ 255 := fun hc => h (BitVec.eq_of_toNat_eq hc)
  have h2 := n.isLt
  rw [BitVec.toNat_add]
  simp
  omega

theorem acc_appendBit (b : Bool) (hs : DecoderSound s) (h : s.acclen ≠ 255) :
    (appendBit s b).acc.toNat = 2 * s.acc.toNat + b.toNat := by
  have h1 : s.acclen.toNat ≠ 255 := fun hc => h (BitVec.eq_of_toNat_eq hc)
  have h2 := s.acclen.isLt
  have h3 := hs.accumulator.trans_le (Nat.pow_le_pow_right (by omega : 0 < 2) (show s.acclen.toNat ≤ 254 by omega))
  have h4 := Bool.toNat_le b
  rw [appendBit, toNat_shiftIn _ _ (by omega), Nat.mod_eq_of_lt]
  have : (2 : Nat) ^ 255 = 2 * 2 ^ 254 := by rw [← pow_succ']
  omega

theorem DecoderSound.appendBit (b : Bool) (hs : DecoderSound s) (h : s.acclen ≠ 255) :
    DecoderSound (appendBit s b) := by
  refine ⟨hs.entries, ?_⟩
  rw [acc_appendBit b hs h]
  have := hs.accumulator
  have := Bool.toNat_le b
  show _ < 2 ^ (s.acclen + 1).toNat
  rw [toNat_succ_acclen h, pow_succ]
  omega

theorem accString_appendBit (b : Bool) (hs : DecoderSound s) (h : s.acclen ≠ 255) :
    (appendBit s b).accString = s.accString ++ [b] := by
  rw [State.accString, acc_appendBit b hs h]
  show str (s.acclen + 1).toNat _ = _
  rw [toNat_succ_acclen h, str_concat, State.accString]

/-- A sound entry is matched exactly when its codeword is the accumulator string (R140). -/
theorem mem_matchSet_iff (hs : DecoderSound s) (x : Byte) :
    x ∈ matchSet s ↔ (s.entry x).valid = true ∧ s.codewordOf x = s.accString := by
  rw [mem_matchSet]
  refine and_congr_right fun hv => ⟨fun ⟨hl, hb⟩ => ?_, fun hc => ?_⟩
  · rw [State.codewordOf, CodeEntry.codeword, hl, hb, State.accString]
  · have hl : (s.entry x).len = s.acclen := by
      have := congrArg List.length hc
      apply BitVec.eq_of_toNat_eq
      simpa using this
    refine ⟨hl, BitVec.eq_of_toNat_eq (str_inj (hs.entries x hv).2 ?_ ?_)⟩
    · rw [hl]; exact hs.accumulator
    · rw [State.codewordOf, CodeEntry.codeword, State.accString] at hc
      rw [hc, hl]

/-- Match and the reverse map agree when the codewords are distinct. -/
theorem matchSet_of_distinct (hs : DecoderSound s) (hd : DistinctCodewords s) :
    matchSet s = (s.reverseMap s.accString).toList := by
  cases h : s.reverseMap s.accString with
  | none =>
    rw [Option.toList_none, List.eq_nil_iff_forall_not_mem]
    intro x hx
    obtain ⟨hv, hc⟩ := (mem_matchSet_iff hs x).mp hx
    exact reverseMap_none.mp h x hv hc
  | some x =>
    rw [Option.toList_some, matchSet_eq_singleton]
    obtain ⟨hv, hc⟩ := reverseMap_some h
    refine ⟨(mem_matchSet_iff hs x).mpr ⟨hv, hc⟩, fun y hy => ?_⟩
    obtain ⟨hvy, hcy⟩ := (mem_matchSet_iff hs y).mp hy
    exact hd y x hvy hv (hcy.trans hc.symm)

/-- The state after the bits `u`, none of them raising an error, as the source's scan gives it. -/
def scanned (s : State) (u : List Bool) : State :=
  { s with
    chanS := s.chanS ++ (s.scan u).1
    acc := BitVec.ofNat 255 (val (s.scan u).2)
    acclen := BitVec.ofNat 8 (s.scan u).2.length
    dbits := s.dbits + BitVec.ofNat 32 u.length
    dsyms := s.dsyms + BitVec.ofNat 32 (s.scan u).1.length }

theorem reverseMap_congr (h : ∀ x, t.entry x = s.entry x) : t.reverseMap = s.reverseMap := by
  funext a
  have hc : ∀ x, t.codewordOf x = s.codewordOf x := fun x => by rw [State.codewordOf, h x, State.codewordOf]
  have hx : ∀ x, ((t.entry x).valid && decide (t.codewordOf x = a)) =
      ((s.entry x).valid && decide (s.codewordOf x = a)) := fun x => by rw [h x, hc x]
  simp only [State.reverseMap, hx]

theorem scanned_nil (hs : DecoderSound s) : scanned s [] = s := by
  have h1 : val s.accString = s.acc.toNat := by
    rw [State.accString, val_str, Nat.mod_eq_of_lt hs.accumulator]
  simp [scanned, State.scan, greedyScan, h1]

/-- Feeding a bit string to a decoder whose codewords are distinct: either it goes through as the source's scan says,
or the accumulator overflows, and then the bytes emitted are still the scan's and its left-over string is longer than
any codeword (R141, R147). -/
theorem feedBits_scan (cmd : Word) (i : Nat) (u : List Bool) (hs : DecoderSound s) (hd : DistinctCodewords s) :
    (feedBits cmd i u s = .running (scanned s u) ∧ (s.scan u).2.length ≤ 255) ∨
    (∃ t, feedBits cmd i u s = .ended t ∧ t.err = true ∧ t.ecode = .accOvf ∧ t.acclen = 255 ∧
      t.chanS = s.chanS ++ (s.scan u).1 ∧ 255 < (s.scan u).2.length) := by
  induction u generalizing i s with
  | nil =>
    left
    have := s.acclen.isLt
    exact ⟨by rw [scanned_nil hs]; rfl, by simp [State.scan, greedyScan]; omega⟩
  | cons b u ih =>
    by_cases h : s.acclen = 255
    · right
      have hl : 255 ≤ s.accString.length := by simp [h]
      refine ⟨s.recordError .accOvf (BitVec.ofNat 4 i) cmd, by rw [feedBits, decodeBit, if_pos h]; rfl, rfl, rfl, h, ?_, ?_⟩
      · simp [State.scan, greedyScan_long _ hl]
      · rw [State.scan, greedyScan_long _ hl]; simp [h]
    · have hs1 := hs.appendBit b h
      have hm := matchSet_of_distinct hs1 hd
      rw [accString_appendBit b hs h, reverseMap_congr (t := appendBit s b) (s := s) fun _ => rfl] at hm
      have hscan : s.scan (b :: u) = (match s.reverseMap (s.accString ++ [b]) with
          | some x => (x :: (greedyScan s.reverseMap [] u).1, (greedyScan s.reverseMap [] u).2)
          | none => greedyScan s.reverseMap (s.accString ++ [b]) u) := rfl
      rcases decodeBit_cases cmd i b s with ⟨h', -⟩ | ⟨-, hnil, hdec⟩ | ⟨x, -, hone, hdec⟩ | ⟨-, htwo, -⟩
      · exact absurd h' h
      · rw [hnil] at hm
        have hr : s.reverseMap (s.accString ++ [b]) = none := by
          cases hr : s.reverseMap (s.accString ++ [b]) with
          | none => rfl
          | some x => simp [hr] at hm
        have hst : (appendBit s b).scan u = s.scan (b :: u) := by
          rw [hscan, hr, State.scan, accString_appendBit b hs h,
            reverseMap_congr (t := appendBit s b) (s := s) fun _ => rfl]
        have hstep : feedBits cmd i (b :: u) s = feedBits cmd (i + 1) u (appendBit s b) := by
          rw [feedBits, hdec]; rfl
        have hfin : scanned (appendBit s b) u = scanned s (b :: u) := by
          simp only [scanned, hst, List.length_cons]
          rw [← bv32_add_succ]
          rfl
        rw [hstep, ← hst, ← hfin]
        exact ih (i + 1) hs1 hd
      · rw [hone] at hm
        have hr : s.reverseMap (s.accString ++ [b]) = some x := by
          cases hr : s.reverseMap (s.accString ++ [b]) with
          | none => simp [hr] at hm
          | some y => simp [hr] at hm; rw [hm]
        have hs2 : DecoderSound (emitMatch (appendBit s b) x) := ⟨hs.entries, by simp [emitMatch]⟩
        have hst : s.scan (b :: u) =
            (x :: ((emitMatch (appendBit s b) x).scan u).1, ((emitMatch (appendBit s b) x).scan u).2) := by
          rw [hscan, hr]; rfl
        have hstep : feedBits cmd i (b :: u) s = feedBits cmd (i + 1) u (emitMatch (appendBit s b) x) := by
          rw [feedBits, hdec]; rfl
        have hfin : scanned (emitMatch (appendBit s b) x) u = scanned s (b :: u) := by
          simp only [scanned, hst, List.length_cons]
          rw [← bv32_add_succ, ← bv32_add_succ]
          simp [emitMatch, appendBit, State.emitS]
        rw [hstep, ← hfin, hst]
        rcases ih (i + 1) hs2 hd with hgo | ⟨t, h1, h2, h3, h4, h5, h6⟩
        · exact .inl hgo
        · exact .inr ⟨t, h1, h2, h3, h4, by rw [h5]; simp [emitMatch, appendBit, State.emitS], h6⟩
      · rw [hm] at htwo
        cases hr : s.reverseMap (s.accString ++ [b]) <;> simp [hr] at htwo

/-- Fewer than 256 bits in the accumulator never overflow it. -/
theorem feedBits_running (cmd : Word) (i : Nat) (u : List Bool) (hs : DecoderSound s) (hd : DistinctCodewords s)
    (hlen : s.acclen.toNat + u.length ≤ 255) : feedBits cmd i u s = .running (scanned s u) := by
  rcases feedBits_scan cmd i u hs hd with ⟨h, -⟩ | ⟨t, -, -, -, -, -, h⟩
  · exact h
  · have hb := congrArg List.length (greedyScan_bits (s := s) s.accString u)
    simp only [List.length_append, length_accString] at hb
    have : (s.scan u).2.length ≤ s.acclen.toNat + u.length := by
      rw [hb]; exact Nat.le_add_left _ _
    omega

/-- The decoder's bits touch only the decoder's registers, channel S and, on a raise, the error fields. -/
theorem feedBits_frame (cmd : Word) (i : Nat) (u : List Bool) (s : State) :
    let t := (feedBits cmd i u s).state
    t = { s with
      acc := t.acc, acclen := t.acclen, dbits := t.dbits, dsyms := t.dsyms, chanS := t.chanS
      err := t.err, ecode := t.ecode, epos := t.epos, ecmd := t.ecmd } := by
  induction u generalizing i s with
  | nil => rfl
  | cons b u ih =>
    rw [feedBits]
    rcases decodeBit_cases cmd i b s with ⟨-, h⟩ | ⟨-, -, h⟩ | ⟨x, -, -, h⟩ | ⟨-, -, h⟩ <;>
      simp only [h, Flow.running_andThen, Flow.ended_andThen, Flow.state_ended]
    · simp [State.recordError]
    · have := ih (i + 1) (appendBit s b)
      simp only at this
      rw [this]
      simp [appendBit]
    · have := ih (i + 1) (emitMatch (appendBit s b) x)
      simp only at this
      rw [this]
      simp [emitMatch, appendBit, State.emitS]
    · simp [State.recordError, appendBit]

/-- The command word reaches nothing but ECMD (R172): under another word the bits do the same but for it. -/
theorem feedBits_cmd (cmd cmd' : Word) (i : Nat) (u : List Bool) (s : State) :
    (∃ t, feedBits cmd i u s = .running t ∧ feedBits cmd' i u s = .running t) ∨
    (∃ t, feedBits cmd i u s = .ended t ∧ feedBits cmd' i u s = .ended { t with ecmd := cmd' }) := by
  induction u generalizing i s with
  | nil => exact .inl ⟨s, rfl, rfl⟩
  | cons b u ih =>
    simp only [feedBits]
    rcases decodeBit_cases cmd i b s with ⟨h, h1⟩ | ⟨h, hm, h1⟩ | ⟨x, h, hm, h1⟩ | ⟨h, hm, h1⟩ <;>
    rcases decodeBit_cases cmd' i b s with ⟨g, g1⟩ | ⟨g, gm, g1⟩ | ⟨y, g, gm, g1⟩ | ⟨g, gm, g1⟩
    all_goals first
      | exact absurd h g
      | exact absurd g h
      | (rw [hm] at gm; simp at gm; done)
      | skip
    · exact .inr ⟨_, by rw [h1]; rfl, by rw [g1]; rfl⟩
    · rw [h1, g1]; exact ih _ _
    · rw [hm] at gm; cases gm; rw [h1, g1]; exact ih _ _
    · rw [gm] at hm; simp at hm
    · rw [gm] at hm; simp at hm
    · exact .inr ⟨_, by rw [h1]; rfl, by rw [g1]; rfl⟩


/-- Bits fed one string after the other. -/
theorem feedBits_append (cmd : Word) (i : Nat) (u v : List Bool) (s : State) :
    feedBits cmd i (u ++ v) s = (feedBits cmd i u s).andThen (feedBits cmd (i + u.length) v) := by
  induction u generalizing i s with
  | nil => rfl
  | cons b u ih =>
    rw [List.cons_append, feedBits, feedBits, Flow.andThen_assoc]
    congr 1
    funext t
    rw [ih, List.length_cons, Nat.add_assoc, Nat.add_comm 1]

/-- What the error fields can be after a run of bits (R172, R175). -/
theorem feedBits_errors (cmd : Word) (i : Nat) (u : List Bool) (s : State) :
    (∃ t, feedBits cmd i u s = .running t ∧ t.err = s.err ∧ t.ecode = s.ecode ∧ t.epos = s.epos ∧ t.ecmd = s.ecmd) ∨
    (∃ t, feedBits cmd i u s = .ended t ∧ t.err = true ∧ (t.ecode = .accOvf ∨ t.ecode = .dup) ∧ t.ecmd = cmd) := by
  induction u generalizing i s with
  | nil => exact .inl ⟨s, rfl, rfl, rfl, rfl, rfl⟩
  | cons b u ih =>
    rw [feedBits]
    rcases decodeBit_cases cmd i b s with ⟨-, h⟩ | ⟨-, -, h⟩ | ⟨x, -, -, h⟩ | ⟨-, -, h⟩ <;> rw [h]
    · exact .inr ⟨_, rfl, rfl, .inl rfl, rfl⟩
    · exact ih (i + 1) (appendBit s b)
    · exact ih (i + 1) (emitMatch (appendBit s b) x)
    · exact .inr ⟨_, rfl, rfl, .inr rfl, rfl⟩

/-- Everything EndCheck can do (R142). -/
theorem endCheck_cases (cmd : Word) (n : Nat) (s : State) :
    (s.acclen = 0 ∧ endCheck cmd n s = .running s) ∨
    (s.acclen ≠ 0 ∧ endCheck cmd n s = .ended (s.recordError .dangle (BitVec.ofNat 4 n) cmd)) := by
  by_cases h : s.acclen = 0
  · exact .inl ⟨h, if_pos h⟩
  · exact .inr ⟨h, if_neg h⟩

/-- The tail touches only the decoder's registers, channel S and, on a raise, the error fields. -/
theorem feedTail_frame (cmd : Word) (s : State) :
    let t := (feedTail cmd s).state
    t = { s with
      acc := t.acc, acclen := t.acclen, dbits := t.dbits, dsyms := t.dsyms, chanS := t.chanS
      err := t.err, ecode := t.ecode, epos := t.epos, ecmd := t.ecmd } := by
  have hf := feedBits_frame cmd 0 s.tailString s
  rw [feedTail]
  cases h : feedBits cmd 0 s.tailString s with
  | running t =>
    rw [h] at hf
    simp only [Flow.state] at hf
    rcases endCheck_cases cmd s.tlen.toNat t with ⟨-, he⟩ | ⟨-, he⟩
    · rw [Flow.running_andThen, he]; exact hf
    · rw [Flow.running_andThen, he, hf]; rfl
  | ended t =>
    rw [h] at hf
    exact hf

/-- Reset during a command leaves the state of a reset between commands, but for the channels (R190). -/
theorem resetInside_eq (s t : State) :
    resetInside s t = { hardReset s with chanP := (resetInside s t).chanP, chanS := (resetInside s t).chanS } := rfl

end Sys2Proof.Machine
end

