-- ==== Sys2Proof/Laws/Exec.lean ====
section
/-! SUPPORT. Every command is its own rule inside the dispatch rule, so the inversion of `perform` is the inversion
of `exec` (spec/40_control.md R90). -/

namespace Sys2Proof.Machine

/-- The rule of each command. -/
def rule : Instr → State → Flow
  | .nop => ruleNop
  | .init keep => ruleInit keep
  | .cwlen sym len => ruleCwlen sym len
  | .cwbits n data => ruleCwbits n data
  | .cwinv sym => ruleCwinv sym
  | .tailset tlen tbits => ruleTailset tlen tbits
  | .enc sym => ruleEnc sym
  | .eflush => ruleEflush
  | .dbyte b => ruleDbyte b
  | .dlast b => ruleDlast b
  | .dend => ruleDend

theorem exec_eq_perform (i : Instr) (s : State) : exec i s = perform i (rule i) s := by
  cases i <;> rfl

/-- Everything a command can do: be dropped, be performed while ERR = 1, raise ESEQ, or be performed. -/
theorem exec_cases {i : Instr} {s t : State} (h : exec i s = .next t) :
    (s.err = true ∧ runsInError i = false ∧ t = s) ∨
    (s.err = true ∧ runsInError i = true ∧ t = (rule i s).state) ∨
    (s.err = false ∧ permitted i s.mode = false ∧ t = s.recordError .seq 0 (encode i)) ∨
    (s.err = false ∧ permitted i s.mode = true ∧ t = (rule i s).state) :=
  perform_cases (by rw [← exec_eq_perform]; exact h)

/-- A command allowed in the current MODE, with no error recorded, is its rule. -/
theorem exec_allowed {i : Instr} {s : State} (he : s.err = false) (hp : permitted i s.mode = true) :
    exec i s = .next (rule i s).state := by
  rw [exec_eq_perform, perform_allowed he hp]


/-- A sequence that answers a next state is followed by the rest from there (R61). -/
theorem execAll_append {a b : List Instr} {s t : State} (h : execAll a s = .next t) :
    execAll (a ++ b) s = execAll b t := by
  induction a generalizing s with
  | nil => cases h; rfl
  | cons i a ih =>
    rw [execAll] at h
    rw [List.cons_append, execAll]
    split at h
    · exact ih h
    · cases h
    · cases h

end Sys2Proof.Machine
end

