-- ==== Sys2Proof/Laws/PerInstr.lean ====
section
/-! SUPPORT. A statement for each command, by cases on the constructor: the word's opcode field is the number the opcode
map gives the row (spec/30_encoding.md R70, R74). -/

namespace Sys2Proof.Laws.EncodeOpcode

/-- The OP column of R74. -/
def opcode : Instr → BitVec 4
  | .nop => 0x0
  | .init _ => 0x1
  | .cwlen _ _ => 0x2
  | .cwbits _ _ => 0x3
  | .cwinv _ => 0x4
  | .tailset _ _ => 0x5
  | .enc _ => 0x6
  | .eflush => 0x7
  | .dbyte _ => 0x8
  | .dlast _ => 0x9
  | .dend => 0xA

/-- `cmd[31:28]` of the command's word is its row's OP. -/
def Statement (i : Instr) : Prop := field (encode i) 28 4 = opcode i

theorem nop : Statement (.nop) := by
  unfold Statement
  decide

theorem init (keep : Bool) : Statement (.init keep) := by
  apply BitVec.eq_of_getLsbD_eq
  intro j hj
  interval_cases j <;> simp [field, encode, place, opcode]

theorem cwlen (sym : Byte) (len : BitVec 8) : Statement (.cwlen sym len) := by
  apply BitVec.eq_of_getLsbD_eq
  intro j hj
  interval_cases j <;> simp [field, encode, place, opcode]

theorem cwbits (n : BitVec 5) (data : BitVec 16) : Statement (.cwbits n data) := by
  apply BitVec.eq_of_getLsbD_eq
  intro j hj
  interval_cases j <;> simp [field, encode, place, opcode]

theorem cwinv (sym : Byte) : Statement (.cwinv sym) := by
  apply BitVec.eq_of_getLsbD_eq
  intro j hj
  interval_cases j <;> simp [field, encode, place, opcode]

theorem tailset (tlen : BitVec 4) (tbits : BitVec 8) : Statement (.tailset tlen tbits) := by
  apply BitVec.eq_of_getLsbD_eq
  intro j hj
  interval_cases j <;> simp [field, encode, place, opcode]

theorem enc (sym : Byte) : Statement (.enc sym) := by
  apply BitVec.eq_of_getLsbD_eq
  intro j hj
  interval_cases j <;> simp [field, encode, place, opcode]

theorem eflush : Statement (.eflush) := by
  unfold Statement
  decide

theorem dbyte (b : Byte) : Statement (.dbyte b) := by
  apply BitVec.eq_of_getLsbD_eq
  intro j hj
  interval_cases j <;> simp [field, encode, place, opcode]

theorem dlast (b : Byte) : Statement (.dlast b) := by
  apply BitVec.eq_of_getLsbD_eq
  intro j hj
  interval_cases j <;> simp [field, encode, place, opcode]

theorem dend : Statement (.dend) := by
  unfold Statement
  decide

end Sys2Proof.Laws.EncodeOpcode
end

