-- ==== Sys2Proof/Laws/ReadPort.lean ====
section
/-! SUPPORT. The read port: the value of a field placed in a word, and the words of the code table by their
addresses (spec/10_state.md R48, R49; spec/20_memory.md R56). -/

namespace Sys2Proof.Machine

/-- A field placed in a word that has room for it. -/
theorem toNat_place {n : Nat} (lo : Nat) (v : BitVec n) (h : n + lo ≤ 32) : (place lo v).toNat = v.toNat * 2 ^ lo := by
  have hv := v.isLt
  have h1 : v.toNat < 2 ^ 32 := hv.trans_le (Nat.pow_le_pow_right (by omega) (by omega))
  have h2 : v.toNat * 2 ^ lo < 2 ^ 32 :=
    calc v.toNat * 2 ^ lo < 2 ^ n * 2 ^ lo := Nat.mul_lt_mul_of_pos_right hv (by positivity)
      _ = 2 ^ (n + lo) := (pow_add ..).symm
      _ ≤ 2 ^ 32 := Nat.pow_le_pow_right (by omega) h
  rw [place, BitVec.toNat_shiftLeft, BitVec.toNat_setWidth, Nat.shiftLeft_eq, Nat.mod_eq_of_lt h1, Nat.mod_eq_of_lt h2]

/-- Fields that do not overlap add up. -/
theorem mul_pow_or {a b k : Nat} (h : b < 2 ^ k) : a * 2 ^ k ||| b = a * 2 ^ k + b := by
  rw [mul_comm, Nat.two_pow_add_eq_or_of_lt h]

/-- Above the register words the read map R56 is three ranges: CTLEN, CTBITS, unassigned. -/
theorem readPort_from_0x100 (s : State) {a : ReadAddr} (h : 0x100 ≤ a.toNat) :
    readPort s a =
      if a.toNat ≤ 0x1FF then ctlenWord (s.entry (BitVec.ofNat 8 (a.toNat - 0x100)))
      else if a.toNat ≤ 0x9FF then
        codeWord32 (s.entry (BitVec.ofNat 8 ((a.toNat - 0x200) / 8))).bits ((a.toNat - 0x200) % 8)
      else 0 := by
  have register : ∀ k < 0x100, a.toNat ≠ k := fun k hk => by omega
  have accWord : ¬(0x010 ≤ a.toNat ∧ a.toNat ≤ 0x017) := by omega
  by_cases ctlen : a.toNat ≤ 0x1FF
  · simp [readPort, register, accWord, h, ctlen]
  · have ctbits : 0x200 ≤ a.toNat := by omega
    simp [readPort, register, accWord, ctlen, ctbits]

/-- CTLEN[x] is at 0x100 + x (R48). -/
theorem readPort_ctlen (s : State) (x : Byte) :
    readPort s (BitVec.ofNat 12 (0x100 + x.toNat)) = ctlenWord (s.entry x) := by
  have hx := x.isLt
  have address : (BitVec.ofNat 12 (0x100 + x.toNat)).toNat = 0x100 + x.toNat :=
    Nat.mod_eq_of_lt (by omega)
  rw [readPort_from_0x100 s (by omega), address, if_pos (by omega), Nat.add_sub_cancel_left,
    BitVec.ofNat_toNat, BitVec.setWidth_eq]

/-- CTBITS[x][k] is at 0x200 + 8x + k (R49). -/
theorem readPort_ctbits (s : State) (x : Byte) {k : Nat} (hk : k < 8) :
    readPort s (BitVec.ofNat 12 (0x200 + 8 * x.toNat + k)) = codeWord32 (s.entry x).bits k := by
  have hx := x.isLt
  have address : (BitVec.ofNat 12 (0x200 + 8 * x.toNat + k)).toNat = 0x200 + 8 * x.toNat + k :=
    Nat.mod_eq_of_lt (by omega)
  have symbol : (0x200 + 8 * x.toNat + k - 0x200) / 8 = x.toNat := by omega
  have word : (0x200 + 8 * x.toNat + k - 0x200) % 8 = k := by omega
  rw [readPort_from_0x100 s (by omega), address, symbol, word, if_neg (by omega), if_pos (by omega),
    BitVec.ofNat_toNat, BitVec.setWidth_eq]

end Sys2Proof.Machine
end

