-- ==== Sys2Proof/Tests/Slice0.lean ====
section
/-! SUPPORT. Tests on fixed values, each expected result from spec/95_test_vectors.md or from the rule named, and one
witness for the hypotheses of each statement that has some. -/

namespace Sys2Proof.Tests

open Machine

-- One theorem at a time: the kernel evaluations below would otherwise each hold a thread.
set_option Elab.async false

/-! ## Small states -/

/-- After INIT 0 on a block whose table RAM holds zeros. -/
def blank : State := { State.reset with ct := Vector.replicate 256 ⟨false, 0, 0⟩ }

/-- Table T3 of spec/95_test_vectors.md: 65 = "0", 66 = "10", 67 = "11". -/
def t3 : State :=
  ((blank.setEntry 65 ⟨true, 1, 0⟩).setEntry 66 ⟨true, 2, 2⟩).setEntry 67 ⟨true, 2, 3⟩

/-- After V26: 16 of the 20 bits of entry 70 are loaded. -/
def loading : State := (blank.setEntry 70 ⟨false, 20, 0xABCD⟩).selectLoader 70 16

/-- T3 after ENC 65, ENC 65. -/
def encoding : State := { t3 with mode := .encoding, pany := true, pcnt := 2, pbits := 2 }

/-- T3 after ENC 65, ENC 65, ENC 66, ENC 67 (Scenario 3). -/
def pending : State := { t3 with mode := .encoding, pany := true, pcnt := 6, pbuf := 0x0B, pbits := 6 }

/-- The packer after the eight bits "11111100" (V44). -/
def fullGroup : State :=
  { t3 with mode := .encoding, pany := true, plast := 0xFC, pbits := 8, pbytes := 1, chanP := [0xFC] }

/-- T3 in MODE DECODING. -/
def decoding : State := { t3 with mode := .decoding }

/-- T3 with the tail "001011". -/
def tailed : State := t3.setTail 6 0x0B

/-- T3 with the tail "001" (V55). -/
def shortTail : State := t3.setTail 3 1

/-- 65 and 66 both "0" (V59). -/
def twins : State := (blank.setEntry 65 ⟨true, 1, 0⟩).setEntry 66 ⟨true, 1, 0⟩

/-- The end of V62, before its last bit: 255 unmatched bits and a table without a codeword for them. -/
def crowded : State := { blank with mode := .decoding, acclen := 255, dbits := 255 }

/-- After an EMISS. -/
def failed : State := { t3 with err := true, ecode := .miss, ecmd := 0x60000044 }

/-- The state a command leaves. -/
def after (i : Instr) (s : State) : State :=
  match exec i s with
  | .next t => t
  | .fault _ => s
  | .refused _ => s

theorem exec_after (i : Instr) (s : State) : exec i s = .next (after i s) := by
  rw [after, exec_eq_perform]
  rfl

theorem executeWord_after {w : Word} {i : Instr} (h : decode w = .ok i) (s : State) :
    executeWord w s = .next (after i s) := by
  rw [executeWord, h]
  exact exec_after i s

/-! ## Well-formed source lines (R78 to R80) and legal operands (R76) -/

theorem test_refuses_keep : Source.wellFormed (.init 2) = false := by decide
theorem test_refuses_cwlen_sym : Source.wellFormed (.cwlen 256 1) = false := by decide
theorem test_refuses_cwlen_len : Source.wellFormed (.cwlen 1 256) = false := by decide
theorem test_refuses_cwbits_n : Source.wellFormed (.cwbits 32 0) = false := by decide
theorem test_refuses_cwbits_data : Source.wellFormed (.cwbits 1 0x10000) = false := by decide
theorem test_refuses_cwinv_sym : Source.wellFormed (.cwinv 256) = false := by decide
theorem test_refuses_tlen : Source.wellFormed (.tailset 16 0) = false := by decide
theorem test_refuses_tbits : Source.wellFormed (.tailset 1 256) = false := by decide
theorem test_refuses_enc : Source.wellFormed (.enc 256) = false := by decide
theorem test_refuses_dbyte : Source.wellFormed (.dbyte 256) = false := by decide
theorem test_refuses_dlast : Source.wellFormed (.dlast 256) = false := by decide
theorem test_refuses_cw_sym : Source.wellFormed (.cw 256 [true]) = false := by decide
theorem test_refuses_cw_empty : Source.wellFormed (.cw 65 []) = false := by decide
theorem test_refuses_cw_long : Source.wellFormed (.cw 65 (List.replicate 256 true)) = false := by decide +kernel
theorem test_refuses_tail_long : Source.wellFormed (.tail (List.replicate 9 true)) = false := by decide
theorem test_refuses_encode : Source.wellFormed (.encode [65, 256]) = false := by decide
theorem test_refuses_decode : Source.wellFormed (.decode [256]) = false := by decide

/-- R78: a value outside the legal range of R76 is assembled all the same. -/
theorem test_assembles_out_of_range : assemble (.cwbits 17 0) = some [0x30110000#32] := by decide

theorem test_illegal_operands :
    (Instr.cwlen 65 0).operandsLegal = false ∧ (Instr.cwbits 0 1).operandsLegal = false ∧
    (Instr.cwbits 17 1).operandsLegal = false ∧ (Instr.tailset 9 0).operandsLegal = false := by decide

/-! ## Decoding (R71 to R77) -/

theorem test_decode_nop : decode 0b0000_0000000000000000000000000000#32 = .ok .nop := by decide
theorem test_decode_init : decode 0b0001_000000000000000000000000000_0#32 = .ok (.init false) := by decide
theorem test_decode_cwlen : decode 0b0010_0000_01000010_00000000_00000010#32 = .ok (.cwlen 66 2) := by decide
theorem test_decode_cwbits :
    decode 0b0011_0000000_10000_1010101111001101#32 = .ok (.cwbits 16 0xABCD) := by decide
theorem test_decode_cwinv : decode 0b0100_0000_01000001_0000000000000000#32 = .ok (.cwinv 65) := by decide
theorem test_decode_tailset : decode 0b0101_0000000000000000_1000_01100111#32 = .ok (.tailset 8 0x67) := by decide
theorem test_decode_enc : decode 0b0110_00000000000000000000_01000001#32 = .ok (.enc 65) := by decide
theorem test_decode_eflush : decode 0b0111_0000000000000000000000000000#32 = .ok .eflush := by decide
theorem test_decode_dbyte : decode 0b1000_00000000000000000000_11111111#32 = .ok (.dbyte 0xFF) := by decide
theorem test_decode_dlast : decode 0b1001_00000000000000000000_01100111#32 = .ok (.dlast 0x67) := by decide
theorem test_decode_dend : decode 0b1010_0000000000000000000000000000#32 = .ok .dend := by decide

/-- V2 and V4: an assigned opcode with a reserved bit set. -/
theorem test_decode_reserved_bits :
    decode 0x00000001#32 = .error (.reservedBits 0) ∧ decode 0x10000002#32 = .error (.reservedBits 1) := by decide

/-- V3: a reserved opcode. -/
theorem test_decode_reserved_opcode : decode 0xB0000000#32 = .error (.reservedOpcode 0xB) := by decide

theorem test_decodeTableWord :
    decodeTableWord 32 0x6000_0042 = some (.enc 66) ∧ decodeTableWord 32 0xF000_0000 = none := by decide

/-- The next step after withFetchWord executes the word's command. -/
theorem test_withFetchWord :
    step (State.reset.withFetchWord 32 0x5000_060B) = exec (.tailset 6 0x0B) State.reset := by rfl

/-- The same with a command that reads the table: on a table never loaded ENC raises EMISS. -/
theorem test_withFetchWord_enc :
    (match step (State.reset.withFetchWord 32 0x6000_0041) with
    | .next t => t.ecode
    | .fault _ => .none
    | .refused _ => .none) = .miss := by decide +kernel

/-! ## Assembler text (R78, R79) -/

theorem test_readLine_cw :
    readLine "CW 66, \"10\"".toList = some (.cw 66 [true, false]) := by decide

theorem test_readLine_tailset : readLine "TAILSET 6, 0b001011".toList = some (.tailset 6 11) := by decide

theorem test_readLine_decode : readLine "DECODE 0x2C, 11".toList = some (.decode [0x2C, 11]) := by decide

/-- R79's example: `CW 66, "10"`. -/
theorem test_assemble_cw : assemble (.cw 66 [true, false]) = some [0x20420002#32, 0x30020002#32] := by decide

/-! ## Single commands -/

/-- V1. -/
theorem test_nop : readPort (after .nop t3) 0x000 = 0 ∧ readPort (after .nop t3) 0x141 = 0x80000001#32 := by
  decide +kernel

/-- V7: INIT 0 keeps LEN. -/
theorem test_init_clears_valid : readPort (after (.init false) t3) 0x141 = 0x00000001#32 := by decide +kernel

/-- V6: INIT 1 clears the error and keeps the table. -/
theorem test_init_keep :
    readPort (after (.init true) failed) 0x000 = 0 ∧
    readPort (after (.init true) failed) 0x141 = 0x80000001#32 := by decide +kernel

/-- V20. -/
theorem test_cwlen_zero :
    readPort (after (.cwlen 65 0) blank) 0x000 = 0x00000031#32 ∧
    readPort (after (.cwlen 65 0) blank) 0x003 = 0 := by decide +kernel

/-- V21. -/
theorem test_cwlen_max :
    let s := after (.cwlen 0 255) blank
    readPort s 0x100 = 0x000000FF#32 ∧ readPort s 0x003 = 0x80000000#32 ∧ readPort s 0x000 = 0x00008000#32 := by
  decide +kernel

/-- V27: the last 4 bits complete the entry. -/
theorem test_cwbits_completes :
    let s := after (.cwbits 4 0xF) loading
    readPort s 0x146 = 0x80000014#32 ∧ readPort s 0x430 = 0x000ABCDF#32 ∧ readPort s 0x003 = 0 := by decide +kernel

/-- V25's cause: past the entry's LEN; nothing changes but the error fields. -/
theorem test_cwbits_past_len :
    let s := after (.cwbits 5 0) loading
    readPort s 0x000 = 0x00008041#32 ∧ readPort s 0x003 = 0x80460010#32 ∧ readPort s 0x430 = 0x0000ABCD#32 := by
  decide +kernel

/-- V30: CWINV of the entry being loaded. -/
theorem test_cwinv_loading :
    let s := after (.cwinv 70) loading
    readPort s 0x003 = 0 ∧ readPort s 0x146 = 0x00000014#32 ∧ readPort s 0x430 = 0x0000ABCD#32 := by decide +kernel

/-- V33. -/
theorem test_tailset_nine :
    readPort (after (.tailset 9 0) blank) 0x000 = 0x00000031#32 ∧ readPort (after (.tailset 9 0) blank) 0x002 = 0 := by
  decide +kernel

/-- V34: TBITS[7:3] is ignored. -/
theorem test_tailset_masks :
    readPort (after (.tailset 3 0xFF) blank) 0x002 = 0x80000307#32 ∧
    readPort (after (.tailset 3 0xFF) blank) 0x000 = 0x00010000#32 := by decide +kernel

/-- V40, its last command. -/
theorem test_enc_pending :
    let s := after (.enc 66) encoding
    readPort s 0x004 = 0x80040002#32 ∧ readPort s 0x006 = 4 ∧ s.chanP = [] := by decide +kernel

/-- Scenario 3 continued by "10": the group "00101110" is emitted, first bit in bit 7. -/
theorem test_enc_emits :
    let s := after (.enc 66) pending
    s.chanP = [0x2E] ∧ readPort s 0x004 = 0x80002E00#32 ∧ readPort s 0x007 = 1 := by decide +kernel

/-- Scenario 3's EFLUSH. -/
theorem test_eflush_partial :
    let s := after .eflush pending
    s.chanP = [0x0B] ∧ readPort s 0x002 = 0x8000060B#32 ∧ readPort s 0x004 = 0x80000000#32 ∧
    readPort s 0x000 = 0x00012000#32 := by decide +kernel

/-- V44: a full last group is not emitted again. -/
theorem test_eflush_full :
    let s := after .eflush fullGroup
    s.chanP = [0xFC] ∧ readPort s 0x002 = 0x800008FC#32 ∧ readPort s 0x004 = 0x8000FC00#32 := by decide +kernel

/-- V50. -/
theorem test_dbyte :
    let s := after (.dbyte 0x2C) t3
    s.chanS = [65, 65, 66, 67, 65, 65] ∧ readPort s 0x005 = 0 ∧ readPort s 0x009 = 6 := by decide +kernel

/-- V59: two entries hold the bit's codeword; the bit is appended and nothing is emitted. -/
theorem test_dbyte_dup :
    let s := after (.dbyte 0) twins
    readPort s 0x000 = 0x00003071#32 ∧ readPort s 0x005 = 1 ∧ s.chanS = [] := by decide +kernel

/-- V53: the value of DLAST's byte is ignored. -/
theorem test_dlast :
    let s := after (.dlast 0xFF) tailed
    s.chanS = [65, 65, 66, 67] ∧ readPort s 0x000 = 0x00014000#32 := by decide +kernel

/-- V55: a bit is left over. -/
theorem test_dlast_dangle :
    let s := after (.dlast 0) shortTail
    readPort s 0x000 = 0x00014391#32 ∧ readPort s 0x010 = 1 ∧ readPort s 0x009 = 2 := by decide +kernel

/-- V57: no tail. -/
theorem test_dend_no_tail : readPort (after .dend t3) 0x000 = 0x00004000#32 := by decide +kernel

/-- V58's cause: the tail alone is decoded. -/
theorem test_dend_tail :
    let s := after .dend tailed
    s.chanS = [65, 65, 66, 67] ∧ readPort s 0x000 = 0x00014000#32 := by decide +kernel

/-- V62's last bit. -/
theorem test_overflow :
    let s := after (.dbyte 0) crowded
    readPort s 0x000 = 0x00003081#32 ∧ readPort s 0x005 = 0x000000FF#32 ∧ readPort s 0x008 = 255 := by decide +kernel

/-- V54: DLAST with no tail. -/
theorem test_dlast_no_tail : readPort (after (.dlast 0x0B) t3) 0x000 = 0x00000061#32 := by decide +kernel

/-- V14. -/
theorem test_id : readPort blank 0x00A = 0x48425031#32 ∧ readPort blank 0x00B = 0 ∧ readPort blank 0xA00 = 0 := by
  decide +kernel

/-! ## The small states are sound -/

theorem entry_blank (x : Byte) : blank.entry x = ⟨false, 0, 0⟩ := by simp [blank, State.entry]

theorem entry_t3 (x : Byte) : t3.entry x =
    if x = 67 then ⟨true, 2, 3⟩ else if x = 66 then ⟨true, 2, 2⟩ else if x = 65 then ⟨true, 1, 0⟩ else ⟨false, 0, 0⟩ := by
  simp only [t3, entry_setEntry, entry_blank]

theorem entries_t3 (x : Byte) (h : (t3.entry x).valid = true) :
    1 ≤ (t3.entry x).len.toNat ∧ (t3.entry x).bits.toNat < 2 ^ (t3.entry x).len.toNat := by
  rw [entry_t3] at h ⊢
  split_ifs at h ⊢ <;> decide

theorem entries_blank (x : Byte) (h : (blank.entry x).valid = true) :
    1 ≤ (blank.entry x).len.toNat ∧ (blank.entry x).bits.toNat < 2 ^ (blank.entry x).len.toNat := by
  rw [entry_blank] at h
  cases h

theorem valid_t3 {x : Byte} (h : (t3.entry x).valid = true) : x = 65 ∨ x = 66 ∨ x = 67 := by
  rw [entry_t3] at h
  split_ifs at h with h1 h2 h3
  · exact .inr (.inr h1)
  · exact .inr (.inl h2)
  · exact .inl h3

theorem codeword_65 : t3.codewordOf 65#8 = [false] := by decide +kernel
theorem codeword_66 : t3.codewordOf 66#8 = [true, false] := by decide +kernel
theorem codeword_67 : t3.codewordOf 67#8 = [true, true] := by decide +kernel

theorem sound_blank : Sound blank := by
  constructor
  · exact entries_blank
  all_goals decide +kernel

theorem sound_t3 : Sound t3 := by
  constructor
  · exact entries_t3
  all_goals decide +kernel

theorem sound_loading : Sound loading := by
  constructor
  · intro x h
    simp only [loading, State.selectLoader_entry, entry_setEntry, entry_blank] at h
    split_ifs at h
  all_goals decide +kernel

theorem sound_encoding : Sound encoding := by
  constructor
  · exact entries_t3
  all_goals decide +kernel

theorem sound_pending : Sound pending := by
  constructor
  · exact entries_t3
  all_goals decide +kernel

theorem sound_decoding : Sound decoding := by
  constructor
  · exact entries_t3
  all_goals decide +kernel

theorem sound_tailed : Sound tailed := by
  constructor
  · exact entries_t3
  all_goals decide +kernel

theorem sound_shortTail : Sound shortTail := by
  constructor
  · exact entries_t3
  all_goals decide +kernel

theorem sound_failed : Sound failed := by
  constructor
  · exact entries_t3
  all_goals decide +kernel

theorem prefixFree_t3 : PrefixFree t3 := by
  intro x y hx hy
  rcases valid_t3 hx with rfl | rfl | rfl <;> rcases valid_t3 hy with rfl | rfl | rfl <;>
    simp [codeword_65, codeword_66, codeword_67]

theorem distinct_t3 : DistinctCodewords t3 := prefixFree_t3.distinct

/-- The tree of Scenario 3. -/
def tree3 : CodeTree := .node (.leaf 65) (.node (.leaf 66) (.leaf 67))

theorem isTreeTable_t3 : IsTreeTable t3 tree3 := by
  have hp : tree3.paths = [([false], 65), ([true, false], 66), ([true, true], 67)] := by decide
  intro x c
  rw [hp]
  constructor
  · rintro ⟨hx, rfl⟩
    rcases valid_t3 hx with rfl | rfl | rfl <;> simp [codeword_65, codeword_66, codeword_67]
  · intro h
    simp only [List.mem_cons, Prod.mk.injEq, List.not_mem_nil, or_false] at h
    rcases h with ⟨rfl, rfl⟩ | ⟨rfl, rfl⟩ | ⟨rfl, rfl⟩
    · exact ⟨by decide +kernel, codeword_65⟩
    · exact ⟨by decide +kernel, codeword_66⟩
    · exact ⟨by decide +kernel, codeword_67⟩

/-! ## Witnesses: for each statement with hypotheses, states and operands that meet them, clause by clause -/

theorem running_of {f : Flow} {p : State → Bool} (h : (match f with | .running u => p u | .ended _ => false) = true) :
    ∃ u, f = .running u ∧ p u = true := by
  cases f with
  | running u => exact ⟨u, rfl, h⟩
  | ended u => cases h

theorem ended_of {f : Flow} (h : (match f with | .running _ => false | .ended _ => true) = true) :
    ∃ u, f = .ended u := by
  cases f with
  | running u => cases h
  | ended u => exact ⟨u, rfl⟩

theorem witness_EncodeOfDecodeIsTheWord : decode 0x60000041#32 = .ok (.enc 65) := by decide

theorem witness_ReservedOpcodeOrBitRaisesEillegal :
    blank.err = false ∧ 0xB ≤ (0xB0000000#32).toNat / 2 ^ 28 ∧
    0x10000002#32 &&& reservedMask ((0x10000002#32).toNat / 2 ^ 28) ≠ 0 := by decide +kernel

theorem witness_CwExpandsIntoSixteenBitChunks :
    let c := List.replicate 255 true
    1 ≤ c.length ∧ c.length ≤ 255 ∧ 15 < (c.length + 15) / 16 ∧ 0 + 1 < (c.length + 15) / 16 := by decide +kernel

theorem witness_StepRunsTheDecodedCommand :
    blank.host = [] ∧
    (∃ s : State, s.host = .command 0x70000000 :: [] ∧ decode 0x70000000 = .ok .eflush) ∧
    (∃ s : State, s.host = .command 0xB0000000 :: [] ∧ (∃ e, decode 0xB0000000 = .error e) ∧ s.err = true) ∧
    ∃ s : State, s.host = .command 0xB0000000 :: [] ∧ (∃ e, decode 0xB0000000 = .error e) ∧ s.err = false :=
  ⟨by decide +kernel, ⟨{ blank with host := [.command 0x70000000] }, rfl, by decide⟩,
    ⟨{ failed with host := [.command 0xB0000000] }, rfl, ⟨.reservedOpcode 0xB, by decide⟩, rfl⟩,
    ⟨{ blank with host := [.command 0xB0000000] }, rfl, ⟨.reservedOpcode 0xB, by decide⟩, rfl⟩⟩

theorem witness_CommandsTakeEffectInHostOrder :
    let s : State := { blank with host := [.command (encode .nop), .reset] }
    s.host = [Instr.nop].map (fun i => HostAccess.command (encode i)) ++ [.reset] ∧
    execAll [.nop] { s with host := [.reset] } = .next { s with host := [.reset] } :=
  ⟨rfl, by rw [execAll, exec_eq_perform, perform_always rfl fun _ => rfl]; rfl⟩

/-- Both kinds of reset; the interrupted command is one that emits a byte. -/
theorem witness_ResetLeavesTheTabledValues :
    (∃ s : State, s.host = .reset :: []) ∧
    ∃ (s u : State) (w : Word) (p : List Byte), s.host = .resetDuring w :: [] ∧
      executeWord w { s with host := [] } = .next u ∧ u.chanP = s.chanP ++ p ∧ p ≠ [] ∧ u.chanS = s.chanS ++ [] :=
  ⟨⟨{ blank with host := [.reset] }, rfl⟩,
    ⟨{ pending with host := [.resetDuring 0x70000000] }, after .eflush pending, 0x70000000, [0x0B], rfl,
      executeWord_after (by decide) pending,
      by decide +kernel, by decide, by decide +kernel⟩⟩

theorem witness_ErrorStateDropsCommands :
    failed.err = true ∧ 0x10000002#32 ≠ 0x00000000#32 ∧ 0x10000002#32 ≠ 0x10000000#32 ∧
    0x10000002#32 ≠ 0x10000001#32 := by decide +kernel

theorem witness_DisallowedModeRaisesEseq :
    encoding.err = false ∧ encoding.mode ∉ [Mode.idle, .decoding] ∧ encoding.mode ∈ [Mode.idle, .encoding] ∧
    encoding.ecode ≠ .seq ∧ ∃ t, exec (.enc 65) encoding = .next t :=
  ⟨by decide +kernel, by decide +kernel, by decide +kernel, by decide +kernel, ⟨_, exec_after _ _⟩⟩

theorem witness_NopChangesNothing :
    (0x00000001#32).toNat < 2 ^ 28 ∧ 0x00000001#32 ≠ 0x00000000#32 ∧ (0x0FFFFFFF#32).toNat < 2 ^ 28 := by decide

theorem witness_InitStartsAnInvocation :
    (0x10000002#32).toNat / 2 ^ 28 = 0x1 ∧ 0x10000002#32 ≠ 0x10000000#32 ∧ 0x10000002#32 ≠ 0x10000001#32 := by decide

theorem witness_CwlenBeginsLoadingAnEntry :
    blank.err = false ∧ blank.mode = .idle ∧ (255 : BitVec 8) ≠ 0 ∧ (66 : Byte) ≠ 65 ∧ encoding.err = false ∧
    encoding.mode ≠ .idle := by decide +kernel

/-- The last chunk, a chunk before it, N = 0 and 17, no entry selected, one bit past LEN, another MODE. -/
theorem witness_CwbitsAppendsToTheSelectedEntry :
    Sound loading ∧ Sound blank ∧ Sound encoding ∧
    (loading.err = false ∧ loading.mode = .idle ∧ loading.lsel = true ∧
      loading.lcnt.toNat + 4 = (loading.entry loading.lsym).len.toNat ∧
      loading.lcnt.toNat + 3 < (loading.entry loading.lsym).len.toNat ∧
      (loading.entry loading.lsym).len.toNat < loading.lcnt.toNat + 5) ∧
    blank.lsel = false ∧ blank.mode = .idle ∧ blank.err = false ∧ encoding.mode ≠ .idle ∧ encoding.err = false :=
  ⟨sound_loading, sound_blank, sound_encoding, by decide +kernel⟩

theorem witness_CwinvRemovesAnEntry :
    loading.err = false ∧ loading.mode = .idle ∧ loading.lsel = true ∧ loading.lsym = 70 ∧
    loading.lsym ≠ 71 ∧ encoding.err = false ∧ encoding.mode ≠ .idle := by decide +kernel

theorem witness_TailsetWritesTheTail :
    blank.err = false ∧ blank.mode = .idle ∧ 1 ≤ (8 : BitVec 4).toNat ∧ (8 : BitVec 4).toNat ≤ 8 ∧
    (0 : BitVec 4).toNat = 0 ∧ 8 < (9 : BitVec 4).toNat ∧ encoding.err = false ∧ encoding.mode ≠ .idle := by
  decide +kernel

theorem witness_CwPseudoCommandLoadsTheCodeword :
    Sound t3 ∧ Ready t3 ∧ 1 ≤ (List.replicate 255 true).length ∧ (List.replicate 255 true).length ≤ 255 :=
  ⟨sound_t3, ⟨rfl, rfl⟩, by decide +kernel⟩

theorem witness_LoadOrderDoesNotMatter :
    Sound t3 ∧ Ready t3 ∧ (65 : Byte) ≠ 66 ∧ 1 ≤ [true].length ∧ [true].length ≤ 255 :=
  ⟨sound_t3, ⟨rfl, rfl⟩, by decide⟩

theorem witness_TailPseudoCommandSetsTheTail :
    Ready t3 ∧ (List.replicate 8 true).length ≤ 8 ∧ ([] : List Bool).length ≤ 8 := ⟨⟨rfl, rfl⟩, by decide⟩

theorem witness_TableCommandsTouchOnlyTheTable :
    (∃ t, exec (.cwinv 65) t3 = .next t) ∧ (∃ t, exec (.cwinv 65) encoding = .next t) ∧ encoding.mode ≠ .idle :=
  ⟨⟨_, exec_after _ _⟩, ⟨_, exec_after _ _⟩, by decide +kernel⟩

theorem witness_TableIsStableOutsideIdle :
    encoding.mode ≠ .idle ∧ (∀ keep, Instr.enc 65 ≠ .init keep) ∧ Instr.enc 65 ≠ .eflush ∧
    ∃ t, exec (.enc 65) encoding = .next t := ⟨by decide +kernel, by decide, by decide, ⟨_, exec_after _ _⟩⟩

theorem witness_PackBitEmitsEveryEighthBit :
    encoding.pbuf.toNat < 2 ^ encoding.pcnt.toNat ∧ encoding.pcnt.toNat ≠ 7 ∧
    ∃ s : State, s.pbuf.toNat < 2 ^ s.pcnt.toNat ∧ s.pcnt.toNat = 7 :=
  ⟨by decide +kernel, by decide +kernel, { encoding with pcnt := 7, pbuf := 0x7F }, by decide⟩

theorem witness_EncPacksTheCodeword :
    Sound t3 ∧ Sound encoding ∧ Sound decoding ∧ t3.err = false ∧ t3.mode = .idle ∧ (t3.entry 65).valid = true ∧
    encoding.err = false ∧ encoding.mode = .encoding ∧ (encoding.entry 68).valid = false ∧
    decoding.err = false ∧ decoding.mode ≠ .idle ∧ decoding.mode ≠ .encoding :=
  ⟨sound_t3, sound_encoding, sound_decoding, by decide +kernel⟩

theorem witness_EflushEndsTheStream :
    (pending.err = false ∧ pending.mode = .encoding ∧ pending.pcnt ≠ 0) ∧
    (fullGroup.err = false ∧ fullGroup.mode = .encoding ∧ fullGroup.pcnt = 0 ∧ fullGroup.pany = true) ∧
    (t3.err = false ∧ t3.mode = .idle ∧ t3.pcnt = 0 ∧ t3.pany = false) ∧
    decoding.err = false ∧ decoding.mode ≠ .idle ∧ decoding.mode ≠ .encoding := by decide +kernel

/-- For PackerEqualsWholeBufferSplit and PackingBitCountLaw, with a non-empty and an empty stream. -/
theorem witness_PackerEqualsWholeBufferSplit :
    Sound t3 ∧ Ready t3 ∧ (∀ x ∈ [65, 66, 67], (t3.entry x).valid = true) ∧ 1 ≤ (t3.stream [65, 66, 67]).length ∧
    (t3.stream []).length = 0 :=
  ⟨sound_t3, ⟨rfl, rfl⟩, by decide +kernel, by decide +kernel, by decide +kernel⟩

theorem witness_PackingBitCountLaw :
    Sound t3 ∧ Ready t3 ∧ (∀ x ∈ [65, 66, 67], (t3.entry x).valid = true) ∧ 1 ≤ (t3.stream [65, 66, 67]).length ∧
    (t3.stream []).length = 0 := witness_PackerEqualsWholeBufferSplit

theorem witness_OutputBounds :
    Sound pending ∧ Sound tailed ∧ (∃ t, exec (.enc 66) pending = .next t ∧ t.err = false) ∧
    (∃ t, exec .eflush pending = .next t) ∧ ∃ t, exec (.dlast 0) tailed = .next t :=
  ⟨sound_pending, sound_tailed, ⟨after (.enc 66) pending, exec_after _ _, by decide +kernel⟩, ⟨_, exec_after _ _⟩, ⟨_, exec_after _ _⟩⟩

/-- An accumulator with no match, with one, with two, and a full one. -/
theorem witness_DecodeBitMatchesGreedily :
    DecoderSound t3 ∧ DecoderSound crowded ∧ crowded.acclen = 255 ∧ t3.acclen ≠ 255 ∧ t3.accString = [] ∧
    (∀ x, ¬((t3.entry x).valid = true ∧ t3.codewordOf x = [true])) ∧
    ((t3.entry 65).valid = true ∧ t3.codewordOf 65 = [false] ∧
      ∀ y, (t3.entry y).valid = true ∧ t3.codewordOf y = [false] → y = 65) ∧
    (twins.accString = [] ∧ (twins.entry 65).valid = true ∧ (twins.entry 66).valid = true ∧
      twins.codewordOf 65 = [false] ∧ twins.codewordOf 66 = [false] ∧ twins.acclen ≠ 255 ∧
      twins.acc.toNat < 2 ^ twins.acclen.toNat) := by
  refine ⟨sound_t3.decoderSound, ⟨entries_blank, by decide +kernel⟩, by decide +kernel, by decide +kernel,
    by decide +kernel, ?_, ⟨by decide +kernel, codeword_65, ?_⟩, by decide +kernel⟩
  · rintro x ⟨hx, hc⟩
    rcases valid_t3 hx with rfl | rfl | rfl <;> simp [codeword_65, codeword_66, codeword_67] at hc
  · rintro y ⟨hy, hc⟩
    rcases valid_t3 hy with rfl | rfl | rfl <;> simp [codeword_66, codeword_67] at hc ⊢

theorem witness_DbyteFeedsEightBits :
    t3.err = false ∧ t3.mode = .idle ∧ decoding.err = false ∧ decoding.mode = .decoding ∧
    encoding.err = false ∧ encoding.mode ≠ .idle ∧ encoding.mode ≠ .decoding := by decide +kernel

theorem witness_DbyteDecodesAsTheScan :
    Sound decoding ∧ DistinctCodewords decoding ∧ decoding.err = false ∧ decoding.mode = .decoding ∧
    decoding.acclen.toNat + 8 ≤ 255 := ⟨sound_decoding, distinct_t3, by decide +kernel⟩

/-- The tail matched to its end, with a bit left over, and broken off by a duplicate codeword. -/
theorem witness_DlastFeedsTheTail :
    (t3.err = false ∧ t3.mode = .idle ∧ t3.tvalid = false) ∧
    (tailed.err = false ∧ tailed.mode = .idle ∧ tailed.tvalid = true ∧ shortTail.tvalid = true) ∧
    (∃ u, feedBits (encode (.dlast 0)) 0 (str tailed.tlen.toNat tailed.tbits.toNat)
      { tailed with mode := .decDone } = .running u ∧ (u.acclen == 0) = true) ∧
    (∃ u, feedBits (encode (.dlast 0)) 0 (str shortTail.tlen.toNat shortTail.tbits.toNat)
      { shortTail with mode := .decDone } = .running u ∧ (u.acclen != 0) = true) ∧
    (∃ u, feedBits (encode (.dlast 0)) 0 (str 1 0) { twins.setTail 1 0 with mode := .decDone } = .ended u) ∧
    (encoding.err = false ∧ encoding.mode ≠ .idle ∧ encoding.mode ≠ .decoding) ∧
    (∃ t, exec (.dlast 0) tailed = .next t) ∧ ∃ t, exec (.dlast 1) tailed = .next t :=
  ⟨by decide +kernel, by decide +kernel, running_of (by decide +kernel), running_of (by decide +kernel),
    ended_of (by decide +kernel), by decide +kernel, ⟨_, exec_after _ _⟩, ⟨_, exec_after _ _⟩⟩

/-- A tail that the scan consumes and one that it does not. -/
theorem witness_DlastDecodesTheTail :
    Sound tailed ∧ DistinctCodewords tailed ∧ Sound shortTail ∧ DistinctCodewords shortTail ∧
    (tailed.err = false ∧ tailed.mode = .idle ∧ tailed.tvalid = true ∧ tailed.acclen.toNat + tailed.tlen.toNat ≤ 255 ∧
      (greedyScan tailed.reverseMap tailed.accString tailed.tailString).2 = []) ∧
    shortTail.err = false ∧ shortTail.mode = .idle ∧ shortTail.tvalid = true ∧
      shortTail.acclen.toNat + shortTail.tlen.toNat ≤ 255 ∧
      (greedyScan shortTail.reverseMap shortTail.accString shortTail.tailString).2 ≠ [] :=
  ⟨sound_tailed, distinct_t3, sound_shortTail, distinct_t3, by decide +kernel, by decide +kernel⟩

theorem witness_DendFeedsTheTailAlone :
    Sound t3 ∧ Sound tailed ∧ Sound decoding ∧ (t3.err = false ∧ t3.mode = .idle ∧ t3.tvalid = false) ∧
    (tailed.err = false ∧ tailed.mode = .idle ∧ tailed.tvalid = true) ∧
    (∃ u, feedBits (encode .dend) 0 (str tailed.tlen.toNat tailed.tbits.toNat)
      { tailed with mode := .decDone } = .running u ∧ (u.acclen == 0) = true) ∧
    (∃ u, feedBits (encode .dend) 0 (str shortTail.tlen.toNat shortTail.tbits.toNat)
      { shortTail with mode := .decDone } = .running u ∧ (u.acclen != 0) = true) ∧
    (∃ u, feedBits (encode .dend) 0 (str 1 0) { twins.setTail 1 0 with mode := .decDone } = .ended u) ∧
    decoding.err = false ∧ decoding.mode ≠ .idle :=
  ⟨sound_t3, sound_tailed, sound_decoding, by decide +kernel, by decide +kernel, running_of (by decide +kernel),
    running_of (by decide +kernel), ended_of (by decide +kernel), by decide +kernel⟩

theorem witness_DendDecodesTheTail :
    Sound tailed ∧ DistinctCodewords tailed ∧ Sound shortTail ∧ DistinctCodewords shortTail ∧
    (tailed.err = false ∧ tailed.mode = .idle ∧ tailed.tvalid = true ∧
      (greedyScan tailed.reverseMap [] tailed.tailString).2 = []) ∧
    shortTail.err = false ∧ shortTail.mode = .idle ∧ shortTail.tvalid = true ∧
      (greedyScan shortTail.reverseMap [] shortTail.tailString).2 ≠ [] :=
  ⟨sound_tailed, distinct_t3, sound_shortTail, distinct_t3, by decide +kernel, by decide +kernel⟩

theorem witness_DecodeSequenceFeedsTheUnpackedString :
    Sound tailed ∧ Ready tailed ∧ ([0x2C, 0x0B] : List Byte) ≠ [] ∧ tailed.tvalid = true ∧ Sound t3 ∧ Ready t3 :=
  ⟨sound_tailed, ⟨rfl, rfl⟩, by decide, by decide +kernel, sound_t3, ⟨rfl, rfl⟩⟩

/-- A payload with a tail, and the empty payload without one. -/
theorem witness_DecoderEqualsTheGreedyScan :
    Sound tailed ∧ Ready tailed ∧ DistinctCodewords tailed ∧
    (([0x2C, 0x0B] : List Byte) ≠ [] → tailed.tvalid = true) ∧
    Sound t3 ∧ Ready t3 ∧ DistinctCodewords t3 ∧ (([] : List Byte) ≠ [] → t3.tvalid = true) :=
  ⟨sound_tailed, ⟨rfl, rfl⟩, distinct_t3, fun _ => by decide +kernel, sound_t3, ⟨rfl, rfl⟩, distinct_t3,
    fun h => absurd rfl h⟩

theorem witness_RoundTripLaw :
    Sound t3 ∧ Ready t3 ∧ PrefixFree t3 ∧ ∀ x ∈ [65, 65, 66, 67], (t3.entry x).valid = true :=
  ⟨sound_t3, ⟨rfl, rfl⟩, prefixFree_t3, by decide +kernel⟩

theorem witness_TreeWalkEmitsTheSameBytes :
    Sound tailed ∧ Ready tailed ∧ DistinctCodewords tailed ∧ IsTreeTable tailed tree3 ∧
    (∀ x, tree3 ≠ .leaf x) ∧ (([0x2C, 0x0B] : List Byte) ≠ [] → tailed.tvalid = true) :=
  ⟨sound_tailed, ⟨rfl, rfl⟩, distinct_t3, isTreeTable_t3, fun _ => by simp [tree3], fun _ => by decide +kernel⟩

theorem witness_GroupByteIsRightAligned : [true, false, true].length ≤ 8 ∧ ([] : List Bool).length ≤ 8 := by decide

/-- A bit string broken off by a full accumulator, and one broken off by a duplicate codeword. -/
theorem witness_FailingBitIsRecorded :
    (crowded.err = false ∧ ∃ t, feedBits 0 0 [false] crowded = .ended t) ∧
    twins.err = false ∧ ∃ t, feedBits 0 0 [false] twins = .ended t :=
  ⟨⟨by decide +kernel, ended_of (by decide +kernel)⟩, by decide +kernel, ended_of (by decide +kernel)⟩

/-- EMISS and EILLEGAL. -/
theorem witness_PreconditionErrorsChangeOnlyErrorFields :
    Sound t3 ∧ t3.err = false ∧
    (∃ t, executeWord 0x60000044 t3 = .next t ∧ t.ecode ∈ [ErrCode.illegal, .seq, .badLen, .load, .miss, .noTail]) ∧
    ∃ t, executeWord 0xB0000000 t3 = .next t ∧ t.ecode ∈ [ErrCode.illegal, .seq, .badLen, .load, .miss, .noTail] :=
  ⟨sound_t3, by decide +kernel, ⟨after (.enc 0x44) t3, executeWord_after (by decide) t3, by decide +kernel⟩,
    ⟨executeIllegal 0xB0000000 t3,
      by rw [executeWord, show decode 0xB0000000 = .error (.reservedOpcode 0xB) by decide], by decide +kernel⟩⟩

theorem witness_ErrorPriority :
    Sound t3 ∧ t3.err = false ∧ (∃ t, exec (.cwbits 0 0) t3 = .next t) ∧
    Sound shortTail ∧ shortTail.err = false ∧ (∃ t, exec (.dlast 0) shortTail = .next t ∧ t.ecode = .dangle) ∧
    ∃ t, exec (.dbyte 0) twins = .next t ∧ t.ecode ∈ [ErrCode.dup, .accOvf] :=
  ⟨sound_t3, by decide +kernel, ⟨_, exec_after _ _⟩, sound_shortTail, by decide +kernel,
    ⟨after (.dlast 0) shortTail, exec_after _ _, by decide +kernel⟩, ⟨after (.dbyte 0) twins, exec_after _ _, by decide +kernel⟩⟩

theorem witness_OnlyInitOrResetClearsErr :
    let s : State := { failed with host := [.command 0x10000001] }
    s.err = true ∧ step s = .next (after (.init true) failed) ∧ (after (.init true) failed).err = false :=
  ⟨rfl, executeWord_after (w := 0x10000001) (i := .init true) (by decide) failed, by decide +kernel⟩

theorem witness_CodeTableWordsAndUnassignedAddresses :
    (0x00B ≤ (0x00B : ReadAddr).toNat ∧ (0x00F : ReadAddr).toNat ≤ 0x00F) ∧
    (0x018 ≤ (0x018 : ReadAddr).toNat ∧ (0x0FF : ReadAddr).toNat ≤ 0x0FF) ∧ 0xA00 ≤ (0xA00 : ReadAddr).toNat ∧
    0xA00 ≤ (0xFFF : ReadAddr).toNat ∧ 7 < 8 := by decide

theorem witness_ReadHasNoSideEffect :
    ({ failed with host := [.read 0x001, .reset] } : State).host = .read 0x001 :: [.reset] := rfl

theorem step_eflush : step { pending with host := [.command 0x70000000] } = .next (after .eflush pending) :=
  executeWord_after (w := 0x70000000) (i := .eflush) (by decide) pending

theorem witness_EveryStepKeepsTheInvariant :
    Sound { pending with host := [.command 0x70000000] } ∧
    step { pending with host := [.command 0x70000000] } = .next (after .eflush pending) :=
  ⟨⟨sound_pending.entries, sound_pending.tailPresent, sound_pending.tailAbsent, sound_pending.loading,
    sound_pending.notLoading, sound_pending.packer, sound_pending.nothingPacked, sound_pending.somePacked,
    sound_pending.packerIdle, sound_pending.packCount, sound_pending.decodeOnly, sound_pending.accumulator,
    sound_pending.accIdle, sound_pending.noError, sound_pending.someError⟩, step_eflush⟩

theorem witness_ChannelsOnlyGrow :
    step { pending with host := [.command 0x70000000] } = .next (after .eflush pending) ∧
    (after .eflush pending).chanP ≠ [] := ⟨step_eflush, by decide +kernel⟩

/-- Each change of MODE. -/
theorem witness_ModeMovesOnlyAlongItsPhases :
    (after (.init true) pending).mode = .idle ∧ (after (.enc 65) t3).mode = .encoding ∧
    (after .eflush t3).mode = .encDone ∧ (after .eflush pending).mode = .encDone ∧
    (after (.dbyte 0) t3).mode = .decoding ∧ (after (.dlast 0) tailed).mode = .decDone ∧
    (after .dend t3).mode = .decDone ∧ exec .eflush t3 = .next (after .eflush t3) :=
  ⟨by decide +kernel, by decide +kernel, by decide +kernel, by decide +kernel, by decide +kernel, by decide +kernel,
    by decide +kernel, exec_after _ _⟩

theorem witness_NoCommandTransfersControl : ∃ t, exec .eflush t3 = .next t := ⟨_, exec_after _ _⟩

/-- Two states that differ in the RAM of an entry that is not valid. -/
theorem witness_ResetDrawsNeverReachACommand :
    SameForCommands blank (blank.setEntry 70 ⟨false, 9, 5⟩) ∧ (blank.setEntry 70 ⟨false, 9, 5⟩).entry 70 ≠ blank.entry 70 ∧
    (∃ t, executeWord 0x60000046 blank = .next t) ∧
    ∃ t, executeWord 0x60000046 (blank.setEntry 70 ⟨false, 9, 5⟩) = .next t := by
  refine ⟨⟨rfl, fun x => ?_⟩, by decide +kernel, ⟨_, executeWord_after (i := .enc 0x46) (by decide) _⟩,
    ⟨_, executeWord_after (i := .enc 0x46) (by decide) _⟩⟩
  rw [entry_setEntry, entry_blank]
  split
  · exact ⟨rfl, fun h => by rcases h with h | ⟨h, -⟩ <;> cases h⟩
  · exact ⟨rfl, fun _ => rfl⟩

/-- Two states with different tables, modes and accumulators. -/
theorem witness_InitIsolatesInvocations :
    t3.chanP = crowded.chanP ∧ t3.chanS = crowded.chanS ∧ t3.host = crowded.host ∧ t3.reads = crowded.reads ∧
    (∃ t, exec (.init false) t3 = .next t) ∧ ∃ t, exec (.init false) crowded = .next t :=
  ⟨rfl, rfl, rfl, rfl, ⟨_, exec_after _ _⟩, ⟨_, exec_after _ _⟩⟩

end Sys2Proof.Tests
end

section
/-! INIT as one equation, and what two states agree in after it (spec/40_control.md R92; spec/00_scope.md R19). -/

namespace Sys2Proof.Machine

/-- INIT is performed in every MODE and while ERR = 1 (R90, R91), so this equation has no premise (R92). -/
theorem exec_init (keep : Bool) (s : State) :
    exec (.init keep) s = .next (startInvocation (if keep then s else (invalidateTable s).clearTail)) := by
  rw [exec_eq_perform, perform_always rfl (fun _ => rfl)]
  rfl

/-- Starting an invocation keeps only the channels, the host's side, the tail, the table and the draws counter (R92): of
two states that agree in the first three, it leaves states that differ at most in the last two. -/
theorem startInvocation_eq_of_agree {s t : State} (hP : s.chanP = t.chanP) (hS : s.chanS = t.chanS)
    (hhost : s.host = t.host) (hreads : s.reads = t.reads)
    (htvalid : s.tvalid = t.tvalid) (htlen : s.tlen = t.tlen) (htbits : s.tbits = t.tbits) :
    startInvocation t = { startInvocation s with ct := t.ct, draws := t.draws } := by
  simp only [startInvocation, State.clearError, State.clearLoader, hP, hS, hhost, hreads, htvalid, htlen, htbits]

/-- After INIT 0 no entry is valid and none is being loaded (R92), so the table has nothing that a command may read. -/
theorem startInvocation_cleared_same {s t : State} (hP : s.chanP = t.chanP) (hS : s.chanS = t.chanS)
    (hhost : s.host = t.host) (hreads : s.reads = t.reads) :
    SameForCommands (startInvocation (invalidateTable s).clearTail)
      (startInvocation (invalidateTable t).clearTail) := by
  constructor
  · exact startInvocation_eq_of_agree hP hS hhost hreads rfl rfl rfl
  · intro x
    constructor
    · simp
    · rintro (hvalid | ⟨hloading, -⟩)
      · simp at hvalid
      · simp at hloading

/-- Settles O57: INIT 0 is its equation, and what it leaves of the two states is the same for commands. -/
theorem initIsolatesInvocations : Obligations.InitIsolatesInvocations := by
  intro s t s' t' hP hS hhost hreads hs ht
  rw [exec_init] at hs ht
  cases hs
  cases ht
  exact startInvocation_cleared_same hP hS hhost hreads

end Sys2Proof.Machine
end

section
/-! SUPPORT. What one step, one access of the host, one word and one command can do, each said once by cases
(spec/20_memory.md R51, R52; spec/40_control.md R90; spec/70_reset_and_hazards.md R183, R190). -/

namespace Sys2Proof.Machine

variable {s t : State}

/-- Everything a step can do: wait, with no access of the host left, or serve the first one. -/
theorem step_cases (h : step s = .next t) :
    (s.host = [] ∧ t = s) ∨ ∃ a rest, s.host = a :: rest ∧ serve a { s with host := rest } = .next t := by
  rw [step, stepHost] at h
  split at h
  next waiting =>
    cases h
    exact .inl ⟨waiting, rfl⟩
  next a rest access => exact .inr ⟨a, rest, access, h⟩

theorem step_of_host {a : HostAccess} {rest : List HostAccess} (h : s.host = a :: rest) :
    step s = serve a { s with host := rest } := by
  rw [step, stepHost, h]

/-- Everything an access can do: a word is executed, a read answered, and a reset strikes between commands or inside
one that would have led to `u`. -/
theorem serve_cases {a : HostAccess} (h : serve a s = .next t) :
    (∃ w, a = .command w ∧ executeWord w s = .next t) ∨
    (∃ addr, a = .read addr ∧ t = serveRead addr s) ∨
    (a = .reset ∧ t = hardReset s) ∨
    (∃ w u, a = .resetDuring w ∧ executeWord w s = .next u ∧ t = resetInside s u) := by
  cases a with
  | command w => exact .inl ⟨w, rfl, h⟩
  | read addr => exact .inr (.inl ⟨addr, rfl, (Host.Outcome.next.inj h).symm⟩)
  | reset => exact .inr (.inr (.inl ⟨rfl, (Host.Outcome.next.inj h).symm⟩))
  | resetDuring w =>
    simp only [serve, resetDuringWord] at h
    split at h
    next u interrupted => exact .inr (.inr (.inr ⟨w, u, rfl, interrupted, (Host.Outcome.next.inj h).symm⟩))
    next => cases h
    next => cases h

/-- Everything a word can do: execute its command, be dropped as ILLEGAL while ERR = 1, or raise EILLEGAL. -/
theorem executeWord_cases {w : Word} (h : executeWord w s = .next t) :
    (∃ i, decode w = .ok i ∧ exec i s = .next t) ∨
    (s.err = true ∧ t = s) ∨
    (s.err = false ∧ t = s.recordError .illegal 0 w) := by
  rw [executeWord] at h
  split at h
  next i command => exact .inl ⟨i, command, h⟩
  next =>
    have ht := (Host.Outcome.next.inj h).symm
    rw [executeIllegal] at ht
    cases he : s.err with
    | true => exact .inr (.inl ⟨rfl, by simpa [he] using ht⟩)
    | false => exact .inr (.inr ⟨rfl, by simpa [he, raiseError_eq] using ht⟩)

/-- The commands performed while ERR = 1 are allowed in every MODE (R90, R91). -/
theorem permitted_of_runsInError {i : Instr} (h : runsInError i = true) (m : Mode) : permitted i m = true := by
  cases i with
  | nop => rfl
  | init keep => rfl
  | _ => cases h

/-- The states a command can lead to, ERR aside: unchanged, ESEQ recorded, or what its rule does in an allowed MODE. -/
theorem exec_state_cases {i : Instr} (h : exec i s = .next t) :
    t = s ∨ t = s.recordError .seq 0 (encode i) ∨ (permitted i s.mode = true ∧ t = (rule i s).state) := by
  rcases exec_cases h with ⟨-, -, ht⟩ | ⟨-, runs, ht⟩ | ⟨-, -, ht⟩ | ⟨-, allowed, ht⟩
  · exact .inl ht
  · exact .inr (.inr ⟨permitted_of_runsInError runs s.mode, ht⟩)
  · exact .inr (.inl ht)
  · exact .inr (.inr ⟨allowed, ht⟩)

end Sys2Proof.Machine
end

section
/-! SUPPORT. Everything the rule of each command can do, said once per rule (spec/41_table.md, spec/42_pack.md,
spec/43_decode.md). -/

namespace Sys2Proof.Machine

variable (s : State)

/-- BITS with the chunk of CWBITS appended (R102). -/
def appendChunk (n : BitVec 5) (data : BitVec 16) (bits : CodeBits) : CodeBits :=
  (bits <<< n.toNat) ||| chunkBits n data

/-- The packer's registers as EFLUSH leaves them (R126). -/
def closeStream (s : State) : State := { s with mode := .encDone, pbuf := 0, pcnt := 0 }

theorem ruleCwlen_cases (sym : Byte) (len : BitVec 8) :
    (len = 0 ∧ (ruleCwlen sym len s).state = s.recordError .badLen 0 (encode (.cwlen sym len))) ∨
    (len ≠ 0 ∧ (ruleCwlen sym len s).state = (s.setEntry sym ⟨false, len, 0⟩).selectLoader sym 0) := by
  by_cases h : len = 0
  · exact .inl ⟨h, by rw [ruleCwlen, if_pos h]; rfl⟩
  · exact .inr ⟨h, by rw [ruleCwlen, if_neg h]; rfl⟩

/-- CWBITS raises an error, completes the entry being loaded, or makes progress in it (R102). -/
theorem ruleCwbits_cases (n : BitVec 5) (data : BitVec 16) :
    let e := s.entry s.lsym
    let cnt := s.lcnt.toNat + n.toNat
    (∃ c, c ≠ ErrCode.none ∧ (ruleCwbits n data s).state = s.recordError c 0 (encode (.cwbits n data))) ∨
    (s.lsel = true ∧ 1 ≤ n.toNat ∧ cnt = e.len.toNat ∧
      (ruleCwbits n data s).state = (s.setEntry s.lsym ⟨true, e.len, appendChunk n data e.bits⟩).clearLoader) ∨
    (s.lsel = true ∧ 1 ≤ n.toNat ∧ cnt < e.len.toNat ∧
      (ruleCwbits n data s).state =
        (s.setEntry s.lsym { e with bits := appendChunk n data e.bits }).selectLoader s.lsym (BitVec.ofNat 8 cnt)) := by
  intro e cnt
  rw [ruleCwbits]
  by_cases hn : n = 0 ∨ 16 < n.toNat
  · exact .inl ⟨.badLen, by decide, by rw [if_pos hn]; rfl⟩
  have hpos : 1 ≤ n.toNat := by
    have : n.toNat ≠ 0 := fun h0 => hn (.inl (BitVec.eq_of_toNat_eq h0))
    omega
  by_cases hsel : s.lsel = false
  · exact .inl ⟨.load, by decide, by rw [if_neg hn, if_pos hsel]; rfl⟩
  have hsel' : s.lsel = true := by simpa using hsel
  by_cases hlong : e.len.toNat < cnt
  · exact .inl ⟨.load, by decide, by rw [if_neg hn, if_neg hsel, if_pos hlong]; rfl⟩
  by_cases hfull : cnt = e.len.toNat
  · exact .inr (.inl ⟨hsel', hpos, hfull, by rw [if_neg hn, if_neg hsel, if_neg hlong, if_pos hfull]; rfl⟩)
  · exact .inr (.inr ⟨hsel', hpos, by omega, by rw [if_neg hn, if_neg hsel, if_neg hlong, if_neg hfull]; rfl⟩)

theorem ruleCwinv_cases (sym : Byte) :
    let u := s.setEntry sym { s.entry sym with valid := false }
    ((s.lsel = true ∧ s.lsym = sym) ∧ (ruleCwinv sym s).state = u.clearLoader) ∨
    (¬(s.lsel = true ∧ s.lsym = sym) ∧ (ruleCwinv sym s).state = u) := by
  by_cases h : s.lsel = true ∧ s.lsym = sym
  · exact .inl ⟨h, by rw [ruleCwinv, if_pos h]; rfl⟩
  · exact .inr ⟨h, by rw [ruleCwinv, if_neg h]; rfl⟩

theorem ruleTailset_cases (tlen : BitVec 4) (tbits : BitVec 8) :
    (8 < tlen.toNat ∧ (ruleTailset tlen tbits s).state = s.recordError .badLen 0 (encode (.tailset tlen tbits))) ∨
    (tlen = 0 ∧ (ruleTailset tlen tbits s).state = s.clearTail) ∨
    (tlen ≠ 0 ∧ tlen.toNat ≤ 8 ∧ (ruleTailset tlen tbits s).state = s.setTail tlen (tailBits tlen tbits)) := by
  by_cases hlong : 8 < tlen.toNat
  · exact .inl ⟨hlong, by rw [ruleTailset, if_pos hlong]; rfl⟩
  by_cases hzero : tlen = 0
  · exact .inr (.inl ⟨hzero, by rw [ruleTailset, if_neg hlong, if_pos hzero]; rfl⟩)
  · exact .inr (.inr ⟨hzero, by omega, by rw [ruleTailset, if_neg hlong, if_neg hzero]; rfl⟩)

theorem ruleEnc_cases (sym : Byte) :
    ((s.entry sym).valid = false ∧ (ruleEnc sym s).state = s.recordError .miss 0 (encode (.enc sym))) ∨
    ((s.entry sym).valid = true ∧
      (ruleEnc sym s).state = packBits (s.setMode .encoding) (s.entry sym).codeword) := by
  cases h : (s.entry sym).valid with
  | false => exact .inl ⟨rfl, by rw [ruleEnc, if_pos h]; rfl⟩
  | true => exact .inr ⟨rfl, by rw [ruleEnc, if_neg (by simp [h])]; rfl⟩

/-- EFLUSH writes the tail from the pending bits, from the last full group, or not at all (R126). -/
theorem ruleEflush_cases :
    (s.pcnt ≠ 0 ∧ (ruleEflush s).state =
      closeStream { (s.emitP s.pbuf).setTail (s.pcnt.setWidth 4) s.pbuf with pbytes := s.pbytes + 1 }) ∨
    (s.pcnt = 0 ∧ s.pany = true ∧ (ruleEflush s).state = closeStream (s.setTail 8 s.plast)) ∨
    (s.pcnt = 0 ∧ s.pany = false ∧ (ruleEflush s).state = closeStream s.clearTail) := by
  by_cases hpending : s.pcnt ≠ 0
  · exact .inl ⟨hpending, by rw [ruleEflush, if_pos hpending]; rfl⟩
  have hzero : s.pcnt = 0 := not_not.mp hpending
  cases hany : s.pany with
  | true => exact .inr (.inl ⟨hzero, rfl, by rw [ruleEflush, if_neg hpending, if_pos hany]; rfl⟩)
  | false => exact .inr (.inr ⟨hzero, rfl, by rw [ruleEflush, if_neg hpending, if_neg (by simp [hany])]; rfl⟩)

theorem ruleDlast_cases (b : Byte) :
    (s.tvalid = false ∧ (ruleDlast b s).state = s.recordError .noTail 0 (encode (.dlast b))) ∨
    (s.tvalid = true ∧ (ruleDlast b s).state = (feedTail (encode (.dlast b)) (s.setMode .decDone)).state) := by
  cases h : s.tvalid with
  | false => exact .inl ⟨rfl, by rw [ruleDlast, if_pos h]; rfl⟩
  | true => exact .inr ⟨rfl, by rw [ruleDlast, if_neg (by simp [h])]⟩

/-- DEND feeds the tail, where there is one, and tests the accumulator, which the test may find not empty (R145). -/
theorem ruleDend_cases :
    (s.tvalid = true ∧ (ruleDend s).state = (feedTail (encode .dend) (s.setMode .decDone)).state) ∨
    (s.tvalid = false ∧ s.acclen = 0 ∧ (ruleDend s).state = s.setMode .decDone) ∨
    (s.tvalid = false ∧ s.acclen ≠ 0 ∧
      (ruleDend s).state = (s.setMode .decDone).recordError .dangle 0 (encode .dend)) := by
  cases h : s.tvalid with
  | true => exact .inl ⟨rfl, by rw [ruleDend, if_pos h]⟩
  | false =>
    rw [ruleDend, if_neg (by simp [h])]
    rcases endCheck_cases (encode .dend) 0 (s.setMode .decDone) with ⟨hempty, he⟩ | ⟨hleft, he⟩
    · exact .inr (.inl ⟨rfl, hempty, by rw [he]; rfl⟩)
    · exact .inr (.inr ⟨rfl, hleft, by rw [he]; rfl⟩)

end Sys2Proof.Machine
end

section
/-! SUPPORT. The loops over bits: the induction packaged once for the decoder, and what the packer and the decoder leave
unchanged and append to (spec/42_pack.md R120, R121; spec/43_decode.md R141 to R145; spec/10_state.md R36). -/

namespace Sys2Proof.Machine

/-! ## A property kept by every bit is kept by the loop -/

section

variable {P : State → Prop} {cmd : Word} {n : Nat}

/-- A property kept by appending a bit, by emitting a match, and by raising an error at a position up to `n`, is kept by
feeding bits at positions below `n`. -/
theorem feedBits_keeps (append : ∀ s b, s.acclen ≠ 255 → P s → P (appendBit s b))
    (emit : ∀ s x, P s → P (emitMatch s x))
    (raise : ∀ s e j, e ≠ ErrCode.none → j ≤ n → P s → P (s.recordError e (BitVec.ofNat 4 j) cmd))
    {i : Nat} {u : List Bool} (hn : i + u.length ≤ n) {s : State} (h : P s) : P (feedBits cmd i u s).state := by
  induction u generalizing i s with
  | nil => exact h
  | cons b u ih =>
    rw [List.length_cons] at hn
    rw [feedBits]
    rcases decodeBit_cases cmd i b s with ⟨-, hd⟩ | ⟨room, -, hd⟩ | ⟨x, room, -, hd⟩ | ⟨room, -, hd⟩ <;> rw [hd]
    · exact raise s .accOvf i (by decide) (by omega) h
    · exact ih (by omega) (append s b room h)
    · exact ih (by omega) (emit _ x (append s b room h))
    · exact raise _ .dup i (by decide) (by omega) (append s b room h)

/-- The same for the tail, with EndCheck after it. -/
theorem feedTail_keeps (append : ∀ s b, s.acclen ≠ 255 → P s → P (appendBit s b))
    (emit : ∀ s x, P s → P (emitMatch s x))
    (raise : ∀ s e j, e ≠ ErrCode.none → j ≤ n → P s → P (s.recordError e (BitVec.ofNat 4 j) cmd))
    {s : State} (hn : s.tlen.toNat ≤ n) (h : P s) : P (feedTail cmd s).state := by
  have fed : P (feedBits cmd 0 s.tailString s).state :=
    feedBits_keeps append emit raise (by simpa [State.tailString] using hn) h
  rw [feedTail]
  cases hf : feedBits cmd 0 s.tailString s with
  | ended t => rwa [hf] at fed
  | running t =>
    rw [hf] at fed
    rcases endCheck_cases cmd s.tlen.toNat t with ⟨-, he⟩ | ⟨-, he⟩ <;> rw [Flow.running_andThen, he]
    · exact fed
    · exact raise t .dangle _ (by decide) hn fed

end

/-! ## What the packer leaves unchanged -/

section

variable (s : State) (c : List Bool)

/-- Packing touches only the packer's registers, its counters and channel P, in every state. -/
theorem packBits_touches_packer :
    let t := packBits s c
    t = { s with
      chanP := t.chanP, pbuf := t.pbuf, pcnt := t.pcnt, pany := t.pany, plast := t.plast
      pbits := t.pbits, pbytes := t.pbytes } := by
  induction c generalizing s with
  | nil => rfl
  | cons b c ih =>
    have hstep : packBits s (b :: c) = packBits (packBit s b) c := rfl
    have rest := ih (packBit s b)
    by_cases full : s.pcnt.toNat = 7
    · simp only [packBit_of_eq full] at hstep rest
      simp only [hstep]
      exact rest
    · have := s.pcnt.isLt
      simp only [packBit_of_lt (by omega : s.pcnt.toNat < 7)] at hstep rest
      simp only [hstep]
      exact rest

@[simp] theorem packBits_mode : (packBits s c).mode = s.mode :=
  (congrArg State.mode (packBits_touches_packer s c) :)
@[simp] theorem packBits_chanS : (packBits s c).chanS = s.chanS :=
  (congrArg State.chanS (packBits_touches_packer s c) :)
@[simp] theorem packBits_host : (packBits s c).host = s.host :=
  (congrArg State.host (packBits_touches_packer s c) :)
@[simp] theorem packBits_reads : (packBits s c).reads = s.reads :=
  (congrArg State.reads (packBits_touches_packer s c) :)
@[simp] theorem packBits_draws : (packBits s c).draws = s.draws :=
  (congrArg State.draws (packBits_touches_packer s c) :)

theorem packBits_chanP_prefix : s.chanP <+: (packBits s c).chanP := by
  induction c generalizing s with
  | nil => exact List.prefix_rfl
  | cons b c ih =>
    refine List.IsPrefix.trans ?_ (ih (packBit s b))
    by_cases full : s.pcnt.toNat = 7
    · rw [packBit_of_eq full]
      exact List.prefix_append ..
    · have := s.pcnt.isLt
      rw [packBit_of_lt (by omega)]

end

/-! ## What the decoder leaves unchanged -/

section

variable (cmd : Word) (i : Nat) (u : List Bool) (s : State)

@[simp] theorem feedBits_mode : (feedBits cmd i u s).state.mode = s.mode :=
  (congrArg State.mode (feedBits_frame cmd i u s) :)
@[simp] theorem feedBits_chanP : (feedBits cmd i u s).state.chanP = s.chanP :=
  (congrArg State.chanP (feedBits_frame cmd i u s) :)
@[simp] theorem feedBits_host : (feedBits cmd i u s).state.host = s.host :=
  (congrArg State.host (feedBits_frame cmd i u s) :)
@[simp] theorem feedBits_reads : (feedBits cmd i u s).state.reads = s.reads :=
  (congrArg State.reads (feedBits_frame cmd i u s) :)
@[simp] theorem feedBits_draws : (feedBits cmd i u s).state.draws = s.draws :=
  (congrArg State.draws (feedBits_frame cmd i u s) :)

@[simp] theorem feedTail_mode : (feedTail cmd s).state.mode = s.mode :=
  (congrArg State.mode (feedTail_frame cmd s) :)
@[simp] theorem feedTail_chanP : (feedTail cmd s).state.chanP = s.chanP :=
  (congrArg State.chanP (feedTail_frame cmd s) :)
@[simp] theorem feedTail_host : (feedTail cmd s).state.host = s.host :=
  (congrArg State.host (feedTail_frame cmd s) :)
@[simp] theorem feedTail_reads : (feedTail cmd s).state.reads = s.reads :=
  (congrArg State.reads (feedTail_frame cmd s) :)
@[simp] theorem feedTail_draws : (feedTail cmd s).state.draws = s.draws :=
  (congrArg State.draws (feedTail_frame cmd s) :)

theorem feedBits_chanS_prefix : s.chanS <+: (feedBits cmd i u s).state.chanS :=
  feedBits_keeps (P := fun t => s.chanS <+: t.chanS) (fun _ _ _ h => h)
    (fun _ _ h => h.trans (List.prefix_append ..)) (fun _ _ _ _ _ h => h) le_rfl List.prefix_rfl

theorem feedTail_chanS_prefix : s.chanS <+: (feedTail cmd s).state.chanS :=
  feedTail_keeps (P := fun t => s.chanS <+: t.chanS) (fun _ _ _ h => h)
    (fun _ _ h => h.trans (List.prefix_append ..)) (fun _ _ _ _ _ h => h) le_rfl List.prefix_rfl

end

end Sys2Proof.Machine
end

section
/-! SUPPORT. The rules that keep a state sound, one per operation of the state (spec/10_state.md R29 to R34, R38;
spec/43_decode.md R150). A field of `Sound` that a rule does not mention speaks of registers that the operation
leaves. -/

namespace Sys2Proof.Machine

variable {s : State}

/-! ## Host side, errors, MODE -/

theorem Sound.withHost (h : Sound s) (rest : List HostAccess) : Sound { s with host := rest } := { h with }

theorem Sound.serveRead (h : Sound s) (a : ReadAddr) : Sound (serveRead a s) := { h with }

theorem Sound.recordError (h : Sound s) {e : ErrCode} (he : e ≠ .none) {p : BitVec 4} (hp : p.toNat ≤ 8) (cmd : Word) :
    Sound (s.recordError e p cmd) :=
  { h with
    noError := fun hc => by simp at hc
    someError := fun _ => ⟨he, hp⟩ }

/-- A decode begins, goes on or ends: nothing was packed in this invocation (R24). -/
theorem Sound.setMode_decode (h : Sound s) (hs : s.mode = .idle ∨ s.mode = .decoding) {m : Mode}
    (hm : m = .decoding ∨ m = .decDone) : Sound (s.setMode m) := by
  have unpacked : s.pany = false := h.decodeOnly (hs.imp_right .inl)
  have pcnt : s.pcnt = 0 := (h.nothingPacked unpacked).1
  have notEncoding : m ≠ .encoding := by rcases hm with rfl | rfl <;> decide
  have notIdle : m ≠ .idle := by rcases hm with rfl | rfl <;> decide
  exact { h with
    somePacked := fun hc => absurd hc notEncoding
    packerIdle := fun _ => pcnt
    packCount := fun hc => absurd hc notEncoding
    decodeOnly := fun _ => unpacked
    accIdle := fun hc => absurd hc notIdle }

/-! ## Table, loader and tail -/

theorem Sound.clearLoader (h : Sound s) : Sound s.clearLoader :=
  { h with
    loading := fun hc => by simp at hc
    notLoading := fun _ => ⟨rfl, rfl⟩ }

theorem Sound.selectLoader (h : Sound s) {x : Byte} {cnt : BitVec 8} (short : cnt.toNat < (s.entry x).len.toNat)
    (invalid : (s.entry x).valid = false) (bits : (s.entry x).bits.toNat < 2 ^ cnt.toNat) :
    Sound (s.selectLoader x cnt) :=
  { h with
    loading := fun _ => ⟨short, invalid, bits⟩
    notLoading := fun hc => by simp at hc }

/-- An entry that is not being loaded may be replaced by one that is sound if it is valid. -/
theorem Sound.setEntry (h : Sound s) {x : Byte} {e : CodeEntry} (free : s.lsel = true → s.lsym ≠ x)
    (he : e.valid = true → 1 ≤ e.len.toNat ∧ e.bits.toNat < 2 ^ e.len.toNat) : Sound (s.setEntry x e) :=
  { h with
    entries := fun y => by
      by_cases hy : y = x
      · subst hy
        simpa using he
      · rw [entry_setEntry_of_ne s e hy]
        exact h.entries y
    loading := fun hsel => by
      have other : (s.setEntry x e).entry s.lsym = s.entry s.lsym := entry_setEntry_of_ne s e (free hsel)
      have := h.loading hsel
      rwa [← other] at this }

theorem Sound.invalidateTable (h : Sound s) : Sound (invalidateTable s) :=
  { h with
    entries := fun y hc => by simp at hc
    loading := fun hsel => by
      obtain ⟨short, -, bits⟩ := h.loading hsel
      exact ⟨by simpa using short, by simp, by simpa using bits⟩ }

theorem Sound.clearTail (h : Sound s) : Sound s.clearTail :=
  { h with
    tailPresent := fun hc => by simp at hc
    tailAbsent := fun _ => ⟨rfl, rfl⟩ }

theorem Sound.setTail (h : Sound s) {len : BitVec 4} {bits : BitVec 8} (pos : 1 ≤ len.toNat) (le : len.toNat ≤ 8)
    (fits : bits.toNat < 2 ^ len.toNat) : Sound (s.setTail len bits) :=
  { h with
    tailPresent := fun _ => ⟨pos, le, fits⟩
    tailAbsent := fun hc => by simp at hc }

/-- No tail, absent or present, is longer than 8 bits (R30). -/
theorem Sound.tlen_le (h : Sound s) : s.tlen.toNat ≤ 8 := by
  cases htail : s.tvalid with
  | true => exact (h.tailPresent htail).2.1
  | false => simp [(h.tailAbsent htail).1]

theorem toNat_tailBits_lt (tlen : BitVec 4) (tbits : BitVec 8) : (tailBits tlen tbits).toNat < 2 ^ tlen.toNat :=
  (Nat.mod_le ..).trans_lt (Nat.mod_lt _ (by positivity))

/-- The chunk of CWBITS is appended without loss as long as the codeword fits its register (R12, R102). -/
theorem toNat_appendChunk_lt {n : BitVec 5} {bits : CodeBits} {cnt : Nat} (data : BitVec 16)
    (h : bits.toNat < 2 ^ cnt) : (appendChunk n data bits).toNat < 2 ^ (cnt + n.toNat) := by
  rw [appendChunk, BitVec.toNat_or]
  apply Nat.or_lt_two_pow
  · calc (bits <<< n.toNat).toNat ≤ bits.toNat * 2 ^ n.toNat := by
          rw [BitVec.toNat_shiftLeft, Nat.shiftLeft_eq]
          exact Nat.mod_le ..
      _ < 2 ^ cnt * 2 ^ n.toNat := Nat.mul_lt_mul_of_pos_right h (by positivity)
      _ = 2 ^ (cnt + n.toNat) := (pow_add ..).symm
  · calc (chunkBits n data).toNat ≤ data.toNat % 2 ^ n.toNat := Nat.mod_le ..
      _ < 2 ^ n.toNat := Nat.mod_lt _ (by positivity)
      _ ≤ 2 ^ (cnt + n.toNat) := Nat.pow_le_pow_right (by omega) (by omega)

/-! ## Packer -/

/-- Packing a non-empty codeword starts or continues an encode (R120, R121). -/
theorem Sound.encode (h : Sound s) (hs : s.mode = .idle ∨ s.mode = .encoding) {c : List Bool} (hc : c ≠ []) :
    Sound (packBits (s.setMode .encoding) c) := by
  have aligned : s.pbuf.toNat < 2 ^ s.pcnt.toNat := h.packer
  have count : s.pcnt.toNat = s.pbits.toNat % 8 := by
    rcases hs with idle | encoding
    · obtain ⟨hpcnt, -, hpbits, -⟩ := h.nothingPacked (h.decodeOnly (.inl idle))
      simp [hpcnt, hpbits]
    · exact h.packCount encoding
  rw [packBits_eq_packed (s := s.setMode .encoding) c aligned]
  have any : (packed (s.setMode .encoding) c).pany = true := by simp [packed, hc]
  exact { h with
    packer := packed_pbuf_lt _ c
    nothingPacked := fun hn => by simp [any] at hn
    somePacked := fun _ => any
    packerIdle := fun hm => absurd rfl hm
    packCount := fun _ => by
      simp only [packed, List.length_append, length_pendingString, State.setMode_pcnt, State.setMode_pbits,
        BitVec.toNat_ofNat, BitVec.toNat_add]
      omega
    decodeOnly := fun hm => by rcases hm with hm | hm | hm <;> cases hm
    accIdle := fun hm => by cases hm }

/-- A byte of the stream is emitted and counted: bits have been packed (R35). -/
theorem Sound.emitGroup (h : Sound s) (any : s.pany = true) (b : Byte) (n : BitVec 32) :
    Sound { s.emitP b with pbytes := n } :=
  { h with nothingPacked := fun hc => by simp [any] at hc }

theorem Sound.closeStream (h : Sound s) : Sound (closeStream s) :=
  { h with
    packer := by simp [Machine.closeStream]
    nothingPacked := fun hc => ⟨rfl, (h.nothingPacked hc).2⟩
    somePacked := fun hm => by cases hm
    packerIdle := fun _ => rfl
    packCount := fun hm => by cases hm
    decodeOnly := fun hm => by rcases hm with hm | hm | hm <;> cases hm
    accIdle := fun hm => by cases hm }

/-! ## Decoder -/

theorem Sound.appendBit (h : Sound s) (notIdle : s.mode ≠ .idle) (room : s.acclen ≠ 255) (b : Bool) :
    Sound (appendBit s b) :=
  { h with
    accumulator := (h.decoderSound.appendBit b room).accumulator
    accIdle := fun hm => absurd hm notIdle }

theorem Sound.emitMatch (h : Sound s) (x : Byte) : Sound (emitMatch s x) :=
  { h with
    accumulator := by simp [Machine.emitMatch]
    accIdle := fun _ => ⟨rfl, rfl⟩ }

/-- What a bit of a decode keeps: a sound state in a MODE in which the accumulator may be filled (R150). -/
structure SoundDecode (s : State) : Prop where
  sound : Sound s
  started : s.mode ≠ .idle

theorem SoundDecode.appendBit (s : State) (b : Bool) (room : s.acclen ≠ 255) (h : SoundDecode s) :
    SoundDecode (appendBit s b) := ⟨h.sound.appendBit h.started room b, h.started⟩

theorem SoundDecode.emitMatch (s : State) (x : Byte) (h : SoundDecode s) : SoundDecode (emitMatch s x) :=
  ⟨h.sound.emitMatch x, h.started⟩

/-- A raise inside a run of bits, at a position of R27. -/
theorem SoundDecode.recordError (cmd : Word) (s : State) (e : ErrCode) (j : Nat) (he : e ≠ .none) (hj : j ≤ 8)
    (h : SoundDecode s) : SoundDecode (s.recordError e (BitVec.ofNat 4 j) cmd) :=
  ⟨h.sound.recordError he ((Nat.mod_le ..).trans hj) cmd, h.started⟩

theorem SoundDecode.feedBits (h : SoundDecode s) (cmd : Word) {u : List Bool} (hu : u.length ≤ 8) :
    Sound (feedBits cmd 0 u s).state :=
  (feedBits_keeps SoundDecode.appendBit SoundDecode.emitMatch (SoundDecode.recordError cmd) (by omega) h).sound

theorem SoundDecode.feedTail (h : SoundDecode s) (cmd : Word) : Sound (feedTail cmd s).state :=
  (feedTail_keeps SoundDecode.appendBit SoundDecode.emitMatch (SoundDecode.recordError cmd) h.sound.tlen_le h).sound

/-! ## INIT and reset -/

theorem Sound.startInvocation (h : Sound s) : Sound (startInvocation s) where
  entries := h.entries
  tailPresent := h.tailPresent
  tailAbsent := h.tailAbsent
  loading := fun hc => by simp at hc
  notLoading := fun _ => ⟨rfl, rfl⟩
  packer := by simp
  nothingPacked := fun _ => ⟨rfl, rfl, rfl, rfl⟩
  somePacked := fun hm => by simp at hm
  packerIdle := fun _ => rfl
  packCount := fun hm => by simp at hm
  decodeOnly := fun _ => rfl
  accumulator := by simp
  accIdle := fun _ => ⟨rfl, rfl⟩
  noError := fun _ => ⟨rfl, rfl, rfl⟩
  someError := fun hc => by simp at hc

/-- The reset values of R23 are sound, whatever LEN and BITS hold. -/
theorem RegistersAtReset.sound (h : RegistersAtReset s) : Sound s := by
  obtain ⟨mode, err, ecode, epos, ecmd, invalid, tvalid, tlen, tbits, lsel, lsym, lcnt,
    pbuf, pcnt, pany, plast, acc, acclen, pbits, pbytes, -, -⟩ := h
  constructor <;> simp [*]

theorem registersAtReset_afterReset (draw : Nat) (chanP chanS : List Byte) (host : List HostAccess)
    (reads : List Word) : RegistersAtReset (State.afterReset draw chanP chanS host reads) := by
  simp [RegistersAtReset, State.afterReset, State.entry, resetTable]

theorem sound_hardReset (s : State) : Sound (hardReset s) := (registersAtReset_afterReset ..).sound

end Sys2Proof.Machine
end

section
/-! The invariant over a step: each command's rule, each command, each word, each access of the host (spec/10_state.md
R38). -/

namespace Sys2Proof.Machine

variable {s t : State}

/-! ## The rule of each command, in a MODE that allows it -/

theorem Sound.ruleInit (h : Sound s) (keep : Bool) : Sound (ruleInit keep s).state := by
  cases keep with
  | true => exact h.startInvocation
  | false => exact h.invalidateTable.clearTail.startInvocation

theorem Sound.ruleCwlen (h : Sound s) (sym : Byte) (len : BitVec 8) : Sound (ruleCwlen sym len s).state := by
  rcases ruleCwlen_cases s sym len with ⟨-, ht⟩ | ⟨hlen, ht⟩ <;> rw [ht]
  · exact h.recordError (by decide) (by simp) _
  · have begun : Sound (s.clearLoader.setEntry sym ⟨false, len, 0⟩) :=
      h.clearLoader.setEntry (by simp) (by simp)
    have pos : 0 < len.toNat := Nat.pos_of_ne_zero fun hz => hlen (BitVec.eq_of_toNat_eq hz)
    exact begun.selectLoader (by simpa using pos) (by simp) (by simp)

theorem Sound.ruleCwbits (h : Sound s) (n : BitVec 5) (data : BitVec 16) : Sound (ruleCwbits n data s).state := by
  rcases ruleCwbits_cases s n data with ⟨c, hc, ht⟩ | ⟨hsel, hn, full, ht⟩ | ⟨hsel, hn, short, ht⟩ <;> rw [ht]
  · exact h.recordError hc (by simp) _
  · have bits := toNat_appendChunk_lt (n := n) data (h.loading hsel).2.2
    rw [full] at bits
    exact h.clearLoader.setEntry (by simp) fun _ => ⟨by show 1 ≤ (s.entry s.lsym).len.toNat; omega, bits⟩
  · obtain ⟨-, invalid, loaded⟩ := h.loading hsel
    have advanced : Sound (s.clearLoader.setEntry s.lsym
        { s.entry s.lsym with bits := appendChunk n data (s.entry s.lsym).bits }) :=
      h.clearLoader.setEntry (by simp) (by simp [invalid])
    have lt := (s.entry s.lsym).len.isLt
    have cnt : (BitVec.ofNat 8 (s.lcnt.toNat + n.toNat)).toNat = s.lcnt.toNat + n.toNat :=
      Nat.mod_eq_of_lt (by omega)
    refine advanced.selectLoader ?_ ?_ ?_ <;> rw [entry_setEntry_self]
    · rwa [cnt]
    · exact invalid
    · rw [cnt]
      exact toNat_appendChunk_lt data loaded

theorem Sound.ruleCwinv (h : Sound s) (sym : Byte) : Sound (ruleCwinv sym s).state := by
  rcases ruleCwinv_cases s sym with ⟨-, ht⟩ | ⟨other, ht⟩ <;> rw [ht]
  · exact h.clearLoader.setEntry (by simp) (by simp)
  · exact h.setEntry (fun hsel hsym => other ⟨hsel, hsym⟩) (by simp)

theorem Sound.ruleTailset (h : Sound s) (tlen : BitVec 4) (tbits : BitVec 8) :
    Sound (ruleTailset tlen tbits s).state := by
  rcases ruleTailset_cases s tlen tbits with ⟨-, ht⟩ | ⟨-, ht⟩ | ⟨hne, hle, ht⟩ <;> rw [ht]
  · exact h.recordError (by decide) (by simp) _
  · exact h.clearTail
  · have pos : 1 ≤ tlen.toNat := Nat.pos_of_ne_zero fun hz => hne (BitVec.eq_of_toNat_eq hz)
    exact h.setTail pos hle (toNat_tailBits_lt tlen tbits)

theorem Sound.ruleEnc (h : Sound s) (hs : s.mode = .idle ∨ s.mode = .encoding) (sym : Byte) :
    Sound (ruleEnc sym s).state := by
  rcases ruleEnc_cases s sym with ⟨-, ht⟩ | ⟨valid, ht⟩ <;> rw [ht]
  · exact h.recordError (by decide) (by simp) _
  · refine h.encode hs fun hc => ?_
    have pos := (h.entries sym valid).1
    have len : (s.entry sym).codeword.length = (s.entry sym).len.toNat := length_str ..
    rw [hc, List.length_nil] at len
    omega

theorem Sound.ruleEflush (h : Sound s) : Sound (ruleEflush s).state := by
  rcases ruleEflush_cases s with ⟨hpending, ht⟩ | ⟨-, -, ht⟩ | ⟨-, -, ht⟩ <;> rw [ht]
  · have any : s.pany = true := by
      by_contra hno
      exact hpending (h.nothingPacked (by simpa using hno)).1
    have pos : 1 ≤ s.pcnt.toNat := Nat.pos_of_ne_zero fun hz => hpending (BitVec.eq_of_toNat_eq hz)
    have lt := s.pcnt.isLt
    have len : (s.pcnt.setWidth 4).toNat = s.pcnt.toNat := by
      rw [BitVec.toNat_setWidth]
      omega
    have emitted : Sound { s.emitP s.pbuf with pbytes := s.pbytes + 1 } := h.emitGroup any _ _
    have tailed := emitted.setTail (len := s.pcnt.setWidth 4) (bits := s.pbuf) (by omega) (by omega)
      (by rw [len]; exact h.packer)
    exact tailed.closeStream
  · exact (h.setTail (by decide) (by decide) s.plast.isLt).closeStream
  · exact h.clearTail.closeStream

theorem Sound.ruleDbyte (h : Sound s) (hs : s.mode = .idle ∨ s.mode = .decoding) (b : Byte) :
    Sound (ruleDbyte b s).state := by
  have begun : SoundDecode (s.setMode .decoding) := ⟨h.setMode_decode hs (.inl rfl), by simp⟩
  exact begun.feedBits _ (by simp [byteString])

theorem Sound.ruleDlast (h : Sound s) (hs : s.mode = .idle ∨ s.mode = .decoding) (b : Byte) :
    Sound (ruleDlast b s).state := by
  rcases ruleDlast_cases s b with ⟨-, ht⟩ | ⟨-, ht⟩ <;> rw [ht]
  · exact h.recordError (by decide) (by simp) _
  · have done : SoundDecode (s.setMode .decDone) := ⟨h.setMode_decode hs (.inr rfl), by simp⟩
    exact done.feedTail _

theorem Sound.ruleDend (h : Sound s) (hs : s.mode = .idle) : Sound (ruleDend s).state := by
  have done : SoundDecode (s.setMode .decDone) := ⟨h.setMode_decode (.inl hs) (.inr rfl), by simp⟩
  rcases ruleDend_cases s with ⟨-, ht⟩ | ⟨-, -, ht⟩ | ⟨-, -, ht⟩ <;> rw [ht]
  · exact done.feedTail _
  · exact done.sound
  · exact done.sound.recordError (by decide) (by simp) _

theorem Sound.rule (h : Sound s) {i : Instr} (hp : permitted i s.mode = true) : Sound (rule i s).state := by
  cases i with
  | nop => exact h
  | init keep => exact h.ruleInit keep
  | cwlen sym len => exact h.ruleCwlen sym len
  | cwbits n data => exact h.ruleCwbits n data
  | cwinv sym => exact h.ruleCwinv sym
  | tailset tlen tbits => exact h.ruleTailset tlen tbits
  | enc sym => exact h.ruleEnc (by simpa [permitted] using hp) sym
  | eflush => exact h.ruleEflush
  | dbyte b => exact h.ruleDbyte (by simpa [permitted] using hp) b
  | dlast b => exact h.ruleDlast (by simpa [permitted] using hp) b
  | dend => exact h.ruleDend (by simpa [permitted] using hp)

/-! ## Commands, words, accesses, steps -/

theorem Sound.exec (h : Sound s) {i : Instr} (ht : exec i s = .next t) : Sound t := by
  rcases exec_state_cases ht with rfl | rfl | ⟨hp, rfl⟩
  · exact h
  · exact h.recordError (by decide) (by simp) _
  · exact h.rule hp

theorem Sound.executeWord (h : Sound s) {w : Word} (ht : executeWord w s = .next t) : Sound t := by
  rcases executeWord_cases ht with ⟨i, -, hi⟩ | ⟨-, rfl⟩ | ⟨-, rfl⟩
  · exact h.exec hi
  · exact h
  · exact h.recordError (by decide) (by simp) _

theorem Sound.serve (h : Sound s) {a : HostAccess} (ht : serve a s = .next t) : Sound t := by
  rcases serve_cases ht with ⟨w, -, hw⟩ | ⟨addr, -, rfl⟩ | ⟨-, rfl⟩ | ⟨w, u, -, -, rfl⟩
  · exact h.executeWord hw
  · exact h.serveRead addr
  · exact sound_hardReset s
  · exact sound_hardReset _

/-- Settles O52: every access of the host keeps the invariant; a command does so because its rule does in the MODEs that
allow it. -/
theorem everyStepKeepsTheInvariant : Obligations.EveryStepKeepsTheInvariant := by
  intro s t h ht
  rcases step_cases ht with ⟨-, rfl⟩ | ⟨a, rest, -, ha⟩
  · exact h
  · exact (h.withHost rest).serve ha

/-- Settles O51: the state after the first reset has the reset values of R23, which are sound. -/
theorem resetMeetsTheInvariant : Obligations.ResetMeetsTheInvariant :=
  (registersAtReset_afterReset ..).sound

end Sys2Proof.Machine
end

section
/-! Reset, the two channels, the phases of MODE, the host's side and the way out of the error state
(spec/10_state.md R22 to R25, R36; spec/70_reset_and_hazards.md R190 to R192). -/

namespace Sys2Proof.Machine

variable {s t : State}

/-! ## Hardware reset -/

theorem registersAtReset_hardReset (s : State) : RegistersAtReset (hardReset s) := registersAtReset_afterReset ..

/-- The bytes that stand are the first of those emitted, in their order (R190). -/
theorem abortedOutput_prefix (draw : Nat) (emitted : List Byte) : abortedOutput draw emitted <+: emitted :=
  List.take_prefix ..

theorem resetInside_chanP (s u : State) :
    (resetInside s u).chanP = s.chanP ++ abortedOutput s.draws (u.chanP.drop s.chanP.length) := rfl

theorem resetInside_chanS (s u : State) :
    (resetInside s u).chanS = s.chanS ++ abortedOutput s.draws (u.chanS.drop s.chanS.length) := rfl

/-- Settles O11: a reset is `hardReset`, whose values are those of R23; one inside a command differs from it only in the
channels, which get only the first of the bytes that the command would have emitted. -/
theorem resetLeavesTheTabledValues : Obligations.ResetLeavesTheTabledValues := by
  refine ⟨registersAtReset_afterReset .., rfl, rfl, ?_, ?_⟩
  · intro s rest hhost
    exact ⟨hardReset { s with host := rest }, step_of_host hhost, registersAtReset_hardReset _, entry_hardReset _,
      rfl, rfl, rfl, rfl⟩
  · intro s w rest u p q hhost hu hp hq
    refine ⟨resetInside { s with host := rest } u, ?_, registersAtReset_hardReset _, entry_hardReset _, rfl, rfl,
      ⟨abortedOutput s.draws p, abortedOutput_prefix .., ?_⟩, ⟨abortedOutput s.draws q, abortedOutput_prefix .., ?_⟩⟩
    · rw [step_of_host hhost, serve, resetDuringWord, hu]
    · simp [resetInside_chanP, hp]
    · simp [resetInside_chanS, hq]

/-! ## What every command keeps -/

/-- What was on the channels of `s` is the beginning of what is on those of `t` (R36). -/
def Extends (s t : State) : Prop := s.chanP <+: t.chanP ∧ s.chanS <+: t.chanS

theorem Extends.refl (s : State) : Extends s s := ⟨List.prefix_rfl, List.prefix_rfl⟩

/-- The MODE that a command's rule may enter (R24). -/
def enteredMode : Instr → Option Mode
  | .nop => none
  | .init _ => some .idle
  | .cwlen _ _ => none
  | .cwbits _ _ => none
  | .cwinv _ => none
  | .tailset _ _ => none
  | .enc _ => some .encoding
  | .eflush => some .encDone
  | .dbyte _ => some .decoding
  | .dlast _ => some .decDone
  | .dend => some .decDone

/-- The bounds of what a command may do: it leaves the host's side alone (R22), only appends to the channels (R36), and
leaves MODE or enters the MODE of its own (R24). -/
structure CommandFrame (i : Instr) (s t : State) : Prop where
  hostSide : t.host = s.host ∧ t.reads = s.reads ∧ t.draws = s.draws
  channels : Extends s t
  mode : t.mode = s.mode ∨ enteredMode i = some t.mode

/-- A change of none of these keeps within the bounds, whatever it does to the table, the tail, the packer, the decoder
and the error fields. -/
theorem CommandFrame.of_eq {i : Instr} (h : t = { t with
      mode := s.mode, chanP := s.chanP, chanS := s.chanS, host := s.host, reads := s.reads, draws := s.draws }) :
    CommandFrame i s t := by
  rw [h]
  exact ⟨⟨rfl, rfl, rfl⟩, Extends.refl _, .inl rfl⟩

theorem commandFrame_feedTail {i : Instr} {m : Mode} (hm : enteredMode i = some m) (cmd : Word) (s : State) :
    CommandFrame i s (feedTail cmd (s.setMode m)).state where
  hostSide := by simp
  channels := ⟨by simp, feedTail_chanS_prefix cmd (s.setMode m)⟩
  mode := .inr (by simp [hm])

theorem commandFrame_ruleDbyte (b : Byte) (s : State) : CommandFrame (.dbyte b) s (ruleDbyte b s).state where
  hostSide := by simp [ruleDbyte]
  channels := ⟨by simp [ruleDbyte], feedBits_chanS_prefix _ _ _ (s.setMode .decoding)⟩
  mode := .inr (by simp [ruleDbyte, enteredMode])

theorem commandFrame_packBits (sym : Byte) (s : State) (c : List Bool) :
    CommandFrame (.enc sym) s (packBits (s.setMode .encoding) c) where
  hostSide := by simp
  channels := ⟨packBits_chanP_prefix (s.setMode .encoding) c, by simp⟩
  mode := .inr (by simp [enteredMode])

theorem commandFrame_rule (i : Instr) (s : State) : CommandFrame i s (rule i s).state := by
  cases i with
  | nop => exact .of_eq rfl
  | init keep => cases keep <;> exact ⟨⟨rfl, rfl, rfl⟩, Extends.refl _, .inr rfl⟩
  | cwlen sym len => rcases ruleCwlen_cases s sym len with ⟨-, ht⟩ | ⟨-, ht⟩ <;> rw [rule, ht] <;> exact .of_eq rfl
  | cwbits n data =>
    rcases ruleCwbits_cases s n data with ⟨c, -, ht⟩ | ⟨-, -, -, ht⟩ | ⟨-, -, -, ht⟩ <;> rw [rule, ht] <;>
      exact .of_eq rfl
  | cwinv sym => rcases ruleCwinv_cases s sym with ⟨-, ht⟩ | ⟨-, ht⟩ <;> rw [rule, ht] <;> exact .of_eq rfl
  | tailset tlen tbits =>
    rcases ruleTailset_cases s tlen tbits with ⟨-, ht⟩ | ⟨-, ht⟩ | ⟨-, -, ht⟩ <;> rw [rule, ht] <;> exact .of_eq rfl
  | enc sym =>
    rcases ruleEnc_cases s sym with ⟨-, ht⟩ | ⟨-, ht⟩ <;> rw [rule, ht]
    · exact .of_eq rfl
    · exact commandFrame_packBits ..
  | eflush =>
    rcases ruleEflush_cases s with ⟨-, ht⟩ | ⟨-, -, ht⟩ | ⟨-, -, ht⟩ <;> rw [rule, ht]
    · exact ⟨⟨rfl, rfl, rfl⟩, ⟨List.prefix_append .., List.prefix_rfl⟩, .inr rfl⟩
    · exact ⟨⟨rfl, rfl, rfl⟩, Extends.refl _, .inr rfl⟩
    · exact ⟨⟨rfl, rfl, rfl⟩, Extends.refl _, .inr rfl⟩
  | dbyte b => exact commandFrame_ruleDbyte b s
  | dlast b =>
    rcases ruleDlast_cases s b with ⟨-, ht⟩ | ⟨-, ht⟩ <;> rw [rule, ht]
    · exact .of_eq rfl
    · exact commandFrame_feedTail rfl ..
  | dend =>
    rcases ruleDend_cases s with ⟨-, ht⟩ | ⟨-, -, ht⟩ | ⟨-, -, ht⟩ <;> rw [rule, ht]
    · exact commandFrame_feedTail rfl ..
    · exact ⟨⟨rfl, rfl, rfl⟩, Extends.refl _, .inr rfl⟩
    · exact ⟨⟨rfl, rfl, rfl⟩, Extends.refl _, .inr rfl⟩

theorem commandFrame_exec {i : Instr} (ht : exec i s = .next t) : CommandFrame i s t := by
  rcases exec_state_cases ht with rfl | rfl | ⟨-, rfl⟩
  · exact .of_eq rfl
  · exact .of_eq rfl
  · exact commandFrame_rule i s

/-- Settles O55: the host's side is outside the bounds of every command. -/
theorem noCommandTransfersControl : Obligations.NoCommandTransfersControl :=
  fun _ _ _ ht => (commandFrame_exec ht).hostSide

/-! ## The channels -/

theorem extends_executeWord {w : Word} (ht : executeWord w s = .next t) : Extends s t := by
  rcases executeWord_cases ht with ⟨i, -, hi⟩ | ⟨-, rfl⟩ | ⟨-, rfl⟩
  · exact (commandFrame_exec hi).channels
  · exact Extends.refl _
  · exact Extends.refl _

theorem extends_serve {a : HostAccess} (ht : serve a s = .next t) : Extends s t := by
  rcases serve_cases ht with ⟨w, -, hw⟩ | ⟨addr, -, rfl⟩ | ⟨-, rfl⟩ | ⟨w, u, -, -, rfl⟩
  · exact extends_executeWord hw
  · exact Extends.refl _
  · exact Extends.refl _
  · exact ⟨List.prefix_append .., List.prefix_append ..⟩

/-- Settles O53: a command only appends, and a reset, inside a command or not, keeps what was delivered. -/
theorem channelsOnlyGrow : Obligations.ChannelsOnlyGrow := by
  intro s t ht
  rcases step_cases ht with ⟨-, rfl⟩ | ⟨a, rest, -, ha⟩
  · exact Extends.refl _
  · have grown : Extends { s with host := rest } t := extends_serve ha
    exact grown

/-! ## The phases of MODE -/

/-- A command that changes MODE was allowed in the old one and enters the MODE of its own. -/
theorem exec_changes_mode {i : Instr} (ht : exec i s = .next t) (hne : t.mode ≠ s.mode) :
    permitted i s.mode = true ∧ enteredMode i = some t.mode := by
  rcases exec_state_cases ht with rfl | rfl | ⟨hp, -⟩
  · exact absurd rfl hne
  · exact absurd rfl hne
  · exact ⟨hp, (commandFrame_exec ht).mode.resolve_left hne⟩

/-- Settles O54: the MODE that the command enters, from one of its row in R91 other than that MODE. -/
theorem modeMovesOnlyAlongItsPhases : Obligations.ModeMovesOnlyAlongItsPhases := by
  intro i s t ht hne
  obtain ⟨allowed, entered⟩ := exec_changes_mode ht hne
  cases i with
  | nop => cases entered
  | init keep => exact .inl ⟨keep, rfl, (Option.some.inj entered).symm⟩
  | cwlen sym len => cases entered
  | cwbits n data => cases entered
  | cwinv sym => cases entered
  | tailset tlen tbits => cases entered
  | enc sym =>
    have target : t.mode = .encoding := (Option.some.inj entered).symm
    have source : s.mode = .idle ∨ s.mode = .encoding := by simpa [permitted] using allowed
    exact .inr (.inl ⟨sym, rfl, source.resolve_right fun same => hne (target.trans same.symm), target⟩)
  | eflush =>
    have source : s.mode = .idle ∨ s.mode = .encoding := by simpa [permitted] using allowed
    exact .inr (.inr (.inl ⟨rfl, source, (Option.some.inj entered).symm⟩))
  | dbyte b =>
    have target : t.mode = .decoding := (Option.some.inj entered).symm
    have source : s.mode = .idle ∨ s.mode = .decoding := by simpa [permitted] using allowed
    exact .inr (.inr (.inr (.inl ⟨b, rfl, source.resolve_right fun same => hne (target.trans same.symm), target⟩)))
  | dlast b =>
    have source : s.mode = .idle ∨ s.mode = .decoding := by simpa [permitted] using allowed
    exact .inr (.inr (.inr (.inr (.inl ⟨b, rfl, source, (Option.some.inj entered).symm⟩))))
  | dend =>
    have source : s.mode = .idle := by simpa [permitted] using allowed
    exact .inr (.inr (.inr (.inr (.inr ⟨rfl, source, (Option.some.inj entered).symm⟩))))

/-! ## Leaving the error state -/

/-- The words of INIT are 0x10000000 and 0x10000001 (R92). -/
theorem word_of_decode_init {w : Word} {keep : Bool} (h : decode w = .ok (.init keep)) :
    w = 0x10000000#32 ∨ w = 0x10000001#32 := by
  rw [decode] at h
  split at h
  next r found =>
    have selected : r.selects w = true := by simpa using List.find?_some found
    have row := List.mem_of_find?_eq_some found
    have command := Except.ok.inj h
    simp only [opcodeRows, List.mem_cons, List.not_mem_nil, or_false] at row
    rcases row with rfl | rfl | rfl | rfl | rfl | rfl | rfl | rfl | rfl | rfl | rfl
    case inr.inl =>
      have fixed : w &&& 0xFFFFFFFE#32 = 0x10000000#32 := by simpa [OpcodeRow.selects] using selected
      have split : w = (w &&& 0xFFFFFFFE#32) ||| (w &&& 1#32) := by
        rw [← BitVec.and_or_distrib_left, show 0xFFFFFFFE#32 ||| 1#32 = BitVec.allOnes 32 by decide,
          BitVec.and_allOnes]
      rw [fixed, BitVec.and_one_eq_setWidth_ofBool_getLsbD] at split
      cases hk : w.getLsbD 0 with
      | false => exact .inl (by rw [split, hk]; rfl)
      | true => exact .inr (by rw [split, hk]; rfl)
    all_goals cases command
  next => cases h

/-- A command that clears ERR is INIT (R179). -/
theorem exec_clears_err {i : Instr} (he : s.err = true) (ht : exec i s = .next t) (hc : t.err = false) :
    ∃ keep, i = .init keep := by
  rcases exec_cases ht with ⟨-, -, rfl⟩ | ⟨-, runs, rfl⟩ | ⟨h0, -⟩ | ⟨h0, -⟩
  · simp [he] at hc
  · cases i with
    | nop => exact absurd (he.symm.trans hc) (by decide)
    | init keep => exact ⟨keep, rfl⟩
    | _ => cases runs
  · simp [he] at h0
  · simp [he] at h0

theorem executeWord_clears_err {w : Word} (he : s.err = true) (ht : executeWord w s = .next t) (hc : t.err = false) :
    w = 0x10000000#32 ∨ w = 0x10000001#32 := by
  rcases executeWord_cases ht with ⟨i, hdecode, hi⟩ | ⟨-, rfl⟩ | ⟨h0, -⟩
  · obtain ⟨keep, rfl⟩ := exec_clears_err he hi hc
    exact word_of_decode_init hdecode
  · simp [he] at hc
  · simp [he] at h0

/-- Settles O46: waiting and reads leave ERR, and the only words whose command clears it are those of INIT. -/
theorem onlyInitOrResetClearsErr : Obligations.OnlyInitOrResetClearsErr := by
  intro s t he ht hc
  rcases step_cases ht with ⟨-, rfl⟩ | ⟨a, rest, hhost, ha⟩
  · simp [he] at hc
  refine ⟨a, rest, hhost, ?_⟩
  rcases serve_cases ha with ⟨w, rfl, hw⟩ | ⟨addr, -, rfl⟩ | ⟨rfl, -⟩ | ⟨w, u, rfl, -, -⟩
  · rcases executeWord_clears_err (s := { s with host := rest }) he hw hc with rfl | rfl
    · exact .inl rfl
    · exact .inr (.inl rfl)
  · exact absurd (he.symm.trans hc) (by decide)
  · exact .inr (.inr (.inl rfl))
  · exact .inr (.inr (.inr ⟨w, rfl⟩))

end Sys2Proof.Machine
end

section
/-! The words of the read port (spec/10_state.md R40 to R49; spec/20_memory.md R53, R56). -/

namespace Sys2Proof.Machine

variable (s : State)

/-! ## Fields of a word -/

/-- A field is read back from its place. -/
theorem extract_place {n lo : Nat} (v : BitVec n) (h : n + lo ≤ 32) : (place lo v).extractLsb' lo n = v := by
  apply BitVec.eq_of_getLsbD_eq
  intro i hi
  have inside : lo + i < 32 := by omega
  simp [place, hi, inside]

/-- Beside its place a field leaves 0. -/
theorem extract_place_disjoint {n lo lo' n' : Nat} (v : BitVec n) (h : lo' + n' ≤ lo ∨ lo + n ≤ lo') :
    (place lo v).extractLsb' lo' n' = 0 := by
  apply BitVec.eq_of_getLsbD_eq
  intro i hi
  rcases h with below | above
  · have : lo' + i < lo := by omega
    simp [place, this]
  · have : v.getLsbD (lo' + i - lo) = false := BitVec.getLsbD_of_ge _ _ (by omega)
    simp [place, this]

theorem toNat_codeWord32 (r : CodeBits) (k : Nat) : (codeWord32 r k).toNat = r.toNat / 2 ^ (32 * k) % 2 ^ 32 := by
  rw [codeWord32, BitVec.extractLsb'_toNat, Nat.shiftRight_eq_div_pow]

theorem toNat_place_zero {n : Nat} (v : BitVec n) (h : n ≤ 32) : (place 0 v).toNat = v.toNat := by
  rw [toNat_place _ _ h, pow_zero, mul_one]

/-- A field placed above the fields that make up `w` adds to their sum `b`. -/
theorem toNat_place_or {n lo b : Nat} (v : BitVec n) {w : Word} (h : n + lo ≤ 32) (hw : w.toNat = b) (hb : b < 2 ^ lo) :
    (place lo v ||| w).toNat = v.toNat * 2 ^ lo + b := by
  rw [BitVec.toNat_or, toNat_place _ _ h, hw, mul_pow_or hb]

/-! ## The register words -/

theorem toNat_tailWord :
    (tailWord s).toNat = s.tvalid.toNat * 2 ^ 31 + s.tlen.toNat * 2 ^ 8 + s.tbits.toNat := by
  have := s.tlen.isLt
  have := s.tbits.isLt
  have len := toNat_place_or (lo := 8) s.tlen (by omega) (toNat_place_zero s.tbits (by omega)) (by omega)
  have valid := toNat_place_or (lo := 31) (BitVec.ofBool s.tvalid) (by omega) len (by omega)
  rw [tailWord, BitVec.or_assoc, valid, BitVec.toNat_ofBool, Nat.add_assoc]

theorem toNat_loaderWord :
    (loaderWord s).toNat = s.lsel.toNat * 2 ^ 31 + s.lsym.toNat * 2 ^ 16 + s.lcnt.toNat := by
  have := s.lsym.isLt
  have := s.lcnt.isLt
  have sym := toNat_place_or (lo := 16) s.lsym (by omega) (toNat_place_zero s.lcnt (by omega)) (by omega)
  have sel := toNat_place_or (lo := 31) (BitVec.ofBool s.lsel) (by omega) sym (by omega)
  rw [loaderWord, BitVec.or_assoc, sel, BitVec.toNat_ofBool, Nat.add_assoc]

theorem toNat_pstateWord :
    (pstateWord s).toNat =
      s.pany.toNat * 2 ^ 31 + s.pcnt.toNat * 2 ^ 16 + s.plast.toNat * 2 ^ 8 + s.pbuf.toNat := by
  have := s.pcnt.isLt
  have := s.plast.isLt
  have := s.pbuf.isLt
  have last := toNat_place_or (lo := 8) s.plast (by omega) (toNat_place_zero s.pbuf (by omega)) (by omega)
  have cnt := toNat_place_or (lo := 16) s.pcnt (by omega) last (by omega)
  have any := toNat_place_or (lo := 31) (BitVec.ofBool s.pany) (by omega) cnt (by omega)
  rw [pstateWord, BitVec.or_assoc, BitVec.or_assoc, any, BitVec.toNat_ofBool, Nat.add_assoc, Nat.add_assoc]

theorem toNat_dstateWord : (dstateWord s).toNat = s.acclen.toNat := toNat_place_zero s.acclen (by omega)

theorem toNat_ctlenWord (e : CodeEntry) : (ctlenWord e).toNat = e.valid.toNat * 2 ^ 31 + e.len.toNat := by
  have := e.len.isLt
  have valid := toNat_place_or (lo := 31) (BitVec.ofBool e.valid) (by omega) (toNat_place_zero e.len (by omega))
    (by omega)
  rw [ctlenWord, valid, BitVec.toNat_ofBool]

/-- ACC[k] is at 0x010 + k (R46). -/
theorem readPort_acc {k : Nat} (hk : k < 8) : readPort s (BitVec.ofNat 12 (0x010 + k)) = codeWord32 s.acc k := by
  have address : (BitVec.ofNat 12 (0x010 + k)).toNat = 0x010 + k := Nat.mod_eq_of_lt (by omega)
  have register : ∀ j < 0x010, 0x010 + k ≠ j := by omega
  have accWord : 0x010 + k ≤ 0x017 := by omega
  simp [readPort, address, register, accWord]

/-- The two gaps among the register words (R53). -/
theorem readPort_gap {a : ReadAddr} (h : (0x00B ≤ a.toNat ∧ a.toNat ≤ 0x00F) ∨ (0x018 ≤ a.toNat ∧ a.toNat ≤ 0x0FF)) :
    readPort s a = 0 := by
  have register : ∀ j < 0x00B, a.toNat ≠ j := by omega
  have accWord : ¬(0x010 ≤ a.toNat ∧ a.toNat ≤ 0x017) := by omega
  have ctlen : ¬(0x100 ≤ a.toNat ∧ a.toNat ≤ 0x1FF) := by omega
  have ctbits : ¬(0x200 ≤ a.toNat ∧ a.toNat ≤ 0x9FF) := by omega
  simp [readPort, register, accWord, ctlen, ctbits]

/-- Settles O48: each word by its own lemma, at its address in the read map R56. -/
theorem registerWords : Obligations.RegisterWords := by
  intro s
  refine ⟨rfl, toNat_tailWord s, toNat_loaderWord s, toNat_pstateWord s, toNat_dstateWord s, rfl, rfl, rfl,
    rfl, rfl, ?_⟩
  intro k hk
  rw [readPort_acc s hk, toNat_codeWord32]

/-- Settles O49: the CTLEN and CTBITS words by the addresses of their entries, and the three unassigned ranges. -/
theorem codeTableWordsAndUnassignedAddresses : Obligations.CodeTableWordsAndUnassignedAddresses := by
  intro s
  refine ⟨fun x => ?_, fun x k hk => ?_, fun a ha => ?_⟩
  · rw [readPort_ctlen, toNat_ctlenWord]
  · rw [readPort_ctbits s x hk, toNat_codeWord32]
  · rcases ha with gap | gap | above
    · exact readPort_gap s (.inl gap)
    · exact readPort_gap s (.inr gap)
    · rw [readPort_from_0x100 s (by omega), if_neg (by omega), if_neg (by omega)]

/-! ## STATUS -/

/-- What a range of bits of STATUS holds, field by field. -/
theorem extract_statusWord (lo n : Nat) :
    (statusWord s).extractLsb' lo n =
      (place 0 (BitVec.ofBool s.err)).extractLsb' lo n ||| (place 4 s.ecode.code).extractLsb' lo n |||
      (place 8 s.epos).extractLsb' lo n ||| (place 12 s.mode.code).extractLsb' lo n |||
      (place 15 (BitVec.ofBool s.lsel)).extractLsb' lo n ||| (place 16 (BitVec.ofBool s.tvalid)).extractLsb' lo n := by
  simp only [statusWord, BitVec.extractLsb'_or]

/-- A bit is a range of one. -/
theorem getLsbD_of_extract {w : Word} {i : Nat} {b : Bool} (h : w.extractLsb' i 1 = BitVec.ofBool b) :
    w.getLsbD i = b := by
  have := congrArg (BitVec.getLsbD · 0) h
  simpa using this

theorem statusWord_err : (statusWord s).extractLsb' 0 1 = BitVec.ofBool s.err := by
  simp (disch := omega) [extract_statusWord, extract_place, extract_place_disjoint]

theorem statusWord_reserved_low : (statusWord s).extractLsb' 1 3 = 0 := by
  simp (disch := omega) [extract_statusWord, extract_place_disjoint]

theorem statusWord_ecode : (statusWord s).extractLsb' 4 4 = s.ecode.code := by
  simp (disch := omega) [extract_statusWord, extract_place, extract_place_disjoint]

theorem statusWord_epos : (statusWord s).extractLsb' 8 4 = s.epos := by
  simp (disch := omega) [extract_statusWord, extract_place, extract_place_disjoint]

theorem statusWord_mode : (statusWord s).extractLsb' 12 3 = s.mode.code := by
  simp (disch := omega) [extract_statusWord, extract_place, extract_place_disjoint]

theorem statusWord_lsel : (statusWord s).extractLsb' 15 1 = BitVec.ofBool s.lsel := by
  simp (disch := omega) [extract_statusWord, extract_place, extract_place_disjoint]

theorem statusWord_tvalid : (statusWord s).extractLsb' 16 1 = BitVec.ofBool s.tvalid := by
  simp (disch := omega) [extract_statusWord, extract_place, extract_place_disjoint]

theorem statusWord_reserved_high : (statusWord s).extractLsb' 17 15 = 0 := by
  simp (disch := omega) [extract_statusWord, extract_place_disjoint]

/-- Settles O47: STATUS is at address 0, and each of its fields is read back from its place. -/
theorem statusWordFields : Obligations.StatusWordFields := by
  intro s w
  have status : w = statusWord s := rfl
  refine ⟨getLsbD_of_extract (statusWord_err s), rfl, statusWord_reserved_low s, ?_, statusWord_epos s, ?_,
    getLsbD_of_extract (statusWord_lsel s), getLsbD_of_extract (statusWord_tvalid s), statusWord_reserved_high s⟩
  · rw [status, statusWord_ecode]
    cases s.ecode <;> rfl
  · rw [status, statusWord_mode]
    cases s.mode <;> rfl

end Sys2Proof.Machine
end

section
/-! SUPPORT. The decoder gives back the command whose word it reads (spec/30_encoding.md R70 to R77). -/

namespace Sys2Proof.Machine

open Laws.EncodeOpcode (opcode)

theorem field_and (v w : Word) (lo n : Nat) : field (v &&& w) lo n = field v lo n &&& field w lo n :=
  BitVec.extractLsb'_and

/-- A field vanishes under a mask that is 0 at its place. -/
theorem place_and_eq_zero {n lo : Nat} (v : BitVec n) {m : Word} (h : field m lo n = 0) : place lo v &&& m = 0 := by
  apply BitVec.eq_of_getLsbD_eq
  intro j hj
  by_cases inside : lo ≤ j ∧ j < lo + n
  · have bit : j - lo < n := by omega
    have free : m.getLsbD j = false := by
      simpa [field, bit, inside.1] using congrArg (BitVec.getLsbD · (j - lo)) h
    simp [free]
  · by_cases below : j < lo
    · simp [place, below]
    · have above : v.getLsbD (j - lo) = false := BitVec.getLsbD_of_ge _ _ (by omega)
      simp [place, above]

/-- Every mask covers OP, so a row selects only words of its own opcode (R74). -/
theorem opcode_of_selects {r : OpcodeRow} (hr : r ∈ opcodeRows) {w : Word} (h : r.selects w = true) :
    field w 28 4 = field r.pattern 28 4 := by
  have covers : ∀ r ∈ opcodeRows, field r.mask 28 4 = BitVec.allOnes 4 := by decide
  have fixed : w &&& r.mask = r.pattern := by simpa [OpcodeRow.selects] using h
  rw [← fixed, field_and, covers r hr, BitVec.and_allOnes]

/-- The rows of R74 are numbered by their opcodes, so no row before a selecting one selects the word too. -/
theorem decode_of_selects {w : Word} {k : Nat} (hk : k < opcodeRows.length) (h : opcodeRows[k].selects w = true) :
    decode w = .ok (opcodeRows[k].ofWord w) := by
  have numbered : ∀ j (hj : j < opcodeRows.length), (field opcodeRows[j].pattern 28 4).toNat = j := by decide
  have found : opcodeRows.find? (fun r => r.selects w) = some opcodeRows[k] := by
    rw [List.find?_eq_some_iff_getElem]
    refine ⟨h, k, hk, rfl, fun j hj => ?_⟩
    rw [Bool.not_eq_true', Bool.eq_false_iff]
    intro earlier
    have same : field opcodeRows[j].pattern 28 4 = field opcodeRows[k].pattern 28 4 :=
      (opcode_of_selects (List.getElem_mem _) earlier).symm.trans (opcode_of_selects (List.getElem_mem _) h)
    have := congrArg BitVec.toNat same
    rw [numbered, numbered] at this
    omega
  rw [decode, found]

theorem opcode_lt (i : Instr) : (opcode i).toNat < opcodeRows.length := by
  cases i <;> simp [opcode, opcodeRows]

/-- The mask of a command's row clears the command's fields and leaves the pattern. -/
theorem selects_encode (i : Instr) : (opcodeRows[(opcode i).toNat]'(opcode_lt i)).selects (encode i) = true := by
  cases i <;>
    simp (disch := decide) [opcode, opcodeRows, OpcodeRow.selects, encode, BitVec.and_or_distrib_right,
      place_and_eq_zero]

/-- Each field of a command is read back from its place; the fields beside it and the pattern are 0 there. -/
theorem ofWord_encode (i : Instr) : (opcodeRows[(opcode i).toNat]'(opcode_lt i)).ofWord (encode i) = i := by
  cases i with
  | init keep => simp [opcode, opcodeRows, encode, place]
  | _ =>
    simp (disch := omega) [opcode, opcodeRows, encode, field, BitVec.extractLsb'_or, extract_place,
      extract_place_disjoint]

theorem decode_encode (i : Instr) : decode (encode i) = .ok i := by
  rw [decode_of_selects (opcode_lt i) (selects_encode i), ofWord_encode]

end Sys2Proof.Machine
end

section
/-! SUPPORT. No command looks at the host's accesses still to come (spec/10_state.md R20, R22): with another list there,
every operation, rule and command does the same and leaves that list. -/

namespace Sys2Proof.Machine

/-- `s` with another list of accesses to come. -/
def State.withHost (rest : List HostAccess) (s : State) : State := { s with host := rest }

/-- The same for the state of a command that is running or has ended. -/
def Flow.withHost (rest : List HostAccess) : Flow → Flow
  | .running s => .running (s.withHost rest)
  | .ended s => .ended (s.withHost rest)

variable (rest : List HostAccess)

theorem State.withHost_ite (c : Prop) [Decidable c] (s t : State) :
    (if c then s else t).withHost rest = if c then s.withHost rest else t.withHost rest := apply_ite ..

theorem Flow.withHost_ite (c : Prop) [Decidable c] (f g : Flow) :
    (if c then f else g).withHost rest = if c then f.withHost rest else g.withHost rest := apply_ite ..

theorem Flow.withHost_running (s : State) : (Flow.running s).withHost rest = .running (s.withHost rest) := rfl

theorem Flow.state_withHost (f : Flow) : (f.withHost rest).state = f.state.withHost rest := by
  cases f <;> rfl

theorem Flow.andThen_withHost {f : Flow} {k : State → Flow}
    (hk : ∀ s : State, k (s.withHost rest) = (k s).withHost rest) :
    (f.withHost rest).andThen k = (f.andThen k).withHost rest := by
  cases f with
  | running s => exact hk s
  | ended s => rfl

/-! ## The packer -/

theorem packBit_withHost (s : State) (b : Bool) : packBit (s.withHost rest) b = (packBit s b).withHost rest := by
  simp only [packBit, State.withHost_ite]
  rfl

theorem packBits_withHost (s : State) (c : List Bool) :
    packBits (s.withHost rest) c = (packBits s c).withHost rest := by
  induction c generalizing s with
  | nil => rfl
  | cons b c ih => exact (congrArg (packBits · c) (packBit_withHost rest s b)).trans (ih (packBit s b))

/-- EFLUSH before it ends the stream: the last group is emitted and the tail written (R126). -/
def writeTail (s : State) : State :=
  if s.pcnt ≠ 0 then { (s.emitP s.pbuf).setTail (s.pcnt.setWidth 4) s.pbuf with pbytes := s.pbytes + 1 }
  else if s.pany then s.setTail 8 s.plast
  else s.clearTail

theorem ruleEflush_eq (s : State) : ruleEflush s = .running (closeStream (writeTail s)) := rfl

theorem writeTail_withHost (s : State) : writeTail (s.withHost rest) = (writeTail s).withHost rest := by
  simp only [writeTail, State.withHost_ite]
  rfl

theorem closeStream_withHost (s : State) : closeStream (s.withHost rest) = (closeStream s).withHost rest := rfl

/-! ## The decoder -/

/-- DecodeBit after the bit is appended, by the symbols that Match has found (R141). -/
def afterMatch (cmd : Word) (i : Nat) (s : State) : List Byte → Flow
  | [] => .running s
  | [x] => .running (emitMatch s x)
  | _ :: _ :: _ => raiseError .dup i cmd s

theorem decodeBit_eq (cmd : Word) (i : Nat) (b : Bool) (s : State) :
    decodeBit cmd i b s =
      if s.acclen = 255 then raiseError .accOvf i cmd s
      else afterMatch cmd i (appendBit s b) (matchSet (appendBit s b)) := rfl

theorem afterMatch_withHost (cmd : Word) (i : Nat) (s : State) (found : List Byte) :
    afterMatch cmd i (s.withHost rest) found = (afterMatch cmd i s found).withHost rest := by
  match found with
  | [] => rfl
  | [_] => rfl
  | _ :: _ :: _ => rfl

theorem decodeBit_withHost (cmd : Word) (i : Nat) (b : Bool) (s : State) :
    decodeBit cmd i b (s.withHost rest) = (decodeBit cmd i b s).withHost rest := by
  simp only [decodeBit_eq, Flow.withHost_ite, ← afterMatch_withHost]
  rfl

theorem feedBits_withHost (cmd : Word) (i : Nat) (u : List Bool) (s : State) :
    feedBits cmd i u (s.withHost rest) = (feedBits cmd i u s).withHost rest := by
  induction u generalizing i s with
  | nil => rfl
  | cons b u ih => rw [feedBits, feedBits, decodeBit_withHost, Flow.andThen_withHost rest (ih (i + 1))]

theorem endCheck_withHost (cmd : Word) (n : Nat) (s : State) :
    endCheck cmd n (s.withHost rest) = (endCheck cmd n s).withHost rest := by
  simp only [endCheck, Flow.withHost_ite]
  rfl

theorem feedTail_withHost (cmd : Word) (s : State) :
    feedTail cmd (s.withHost rest) = (feedTail cmd s).withHost rest := by
  rw [feedTail, feedTail, ← Flow.andThen_withHost rest (endCheck_withHost rest cmd _), ← feedBits_withHost]
  rfl

/-! ## The commands -/

theorem rule_withHost (i : Instr) (s : State) : rule i (s.withHost rest) = (rule i s).withHost rest := by
  cases i with
  | nop => rfl
  | init keep => cases keep <;> rfl
  | cwlen sym len =>
    simp only [rule, ruleCwlen, Flow.withHost_ite]
    rfl
  | cwbits n data =>
    simp only [rule, ruleCwbits, Flow.withHost_ite]
    rfl
  | cwinv sym =>
    simp only [rule, ruleCwinv, Flow.withHost_running, State.withHost_ite]
    rfl
  | tailset tlen tbits =>
    simp only [rule, ruleTailset, Flow.withHost_ite, Flow.withHost_running, State.withHost_ite]
    rfl
  | enc sym =>
    simp only [rule, ruleEnc, Flow.withHost_ite, Flow.withHost_running, ← packBits_withHost]
    rfl
  | eflush => simp only [rule, ruleEflush_eq, Flow.withHost_running, closeStream_withHost, writeTail_withHost]
  | dbyte b => exact feedBits_withHost rest _ 0 _ (s.setMode .decoding)
  | dlast b =>
    simp only [rule, ruleDlast, Flow.withHost_ite, ← feedTail_withHost]
    rfl
  | dend =>
    simp only [rule, ruleDend, Flow.withHost_ite, ← feedTail_withHost, ← endCheck_withHost]
    rfl

theorem exec_withHost {i : Instr} {s t : State} (ht : exec i s = .next t) :
    exec i (s.withHost rest) = .next (t.withHost rest) := by
  rw [exec_eq_perform] at ht ⊢
  rw [← Host.Outcome.next.inj ht, perform, rule_withHost, Flow.state_withHost]
  simp only [State.withHost_ite]
  rfl

end Sys2Proof.Machine
end

section
/-! The two ports and the code table between commands (spec/20_memory.md R52, R61, R64). -/

namespace Sys2Proof.Machine

/-! ## The order of commands -/

/-- The word of a command is executed as that command (R51, R90). -/
theorem step_command {i : Instr} {s : State} {rest : List HostAccess} (h : s.host = .command (encode i) :: rest) :
    step s = exec i (s.withHost rest) := by
  rw [step_of_host h, serve, executeWord, decode_encode]
  rfl

theorem run_succ_of_step {M : Host.Core} {s u : M.State} (hs : M.step s = .next u) (n : Nat) :
    M.run (n + 1) s = M.run n u := by
  rw [Host.Core.run, hs]

/-- Settles O9, by induction on the commands: the first step leads where the first command does, with the words of the
other commands still waiting, and no command looks at them. -/
theorem commandsTakeEffectInHostOrder : Obligations.CommandsTakeEffectInHostOrder := by
  intro is
  induction is with
  | nil =>
    intro rest s t hhost ht
    obtain rfl : rest = s.host := hhost.symm
    exact ht
  | cons i is ih =>
    intro rest s t hhost ht
    rw [execAll] at ht
    split at ht
    next u hu =>
      have first : step s = .next (u.withHost (is.map (fun i => HostAccess.command (encode i)) ++ rest)) :=
        (step_command hhost).trans (exec_withHost (s := { s with host := rest }) _ hu)
      obtain rfl : u.host = rest := (noCommandTransfersControl _ _ _ hu).1
      exact (run_succ_of_step first is.length).trans (ih u.host (u.withHost _) t rfl ht)
    next => cases ht
    next => cases ht

/-! ## The table of a stream -/

/-- The code table and the loader of `t` are those of `s`, and so is the tail unless the command is EFLUSH: what R64 asks
of a command other than INIT outside IDLE. -/
structure StableTable (i : Instr) (s t : State) : Prop where
  table : t.ct = s.ct
  loader : t.lsel = s.lsel ∧ t.lsym = s.lsym ∧ t.lcnt = s.lcnt
  tail : i ≠ .eflush → t.tvalid = s.tvalid ∧ t.tlen = s.tlen ∧ t.tbits = s.tbits

theorem StableTable.of_eq {i : Instr} {s t : State} (h : t = { t with
      ct := s.ct, lsel := s.lsel, lsym := s.lsym, lcnt := s.lcnt
      tvalid := s.tvalid, tlen := s.tlen, tbits := s.tbits }) : StableTable i s t := by
  rw [h]
  exact ⟨rfl, ⟨rfl, rfl, rfl⟩, fun _ => ⟨rfl, rfl, rfl⟩⟩

/-- The four table commands and DEND are allowed in IDLE only (R91); of the others, ENC and EFLUSH touch the packer,
DBYTE and DLAST the decoder, and only EFLUSH the tail. -/
theorem stableTable_rule {i : Instr} {s : State} (hm : s.mode ≠ .idle) (hi : ∀ keep, i ≠ .init keep)
    (hp : permitted i s.mode = true) : StableTable i s (rule i s).state := by
  cases i with
  | nop => exact .of_eq rfl
  | init keep => exact absurd rfl (hi keep)
  | cwlen sym len => exact absurd (eq_of_beq hp) hm
  | cwbits n data => exact absurd (eq_of_beq hp) hm
  | cwinv sym => exact absurd (eq_of_beq hp) hm
  | tailset tlen tbits => exact absurd (eq_of_beq hp) hm
  | enc sym =>
    rcases ruleEnc_cases s sym with ⟨-, ht⟩ | ⟨-, ht⟩ <;> rw [rule, ht]
    · exact .of_eq rfl
    · rw [packBits_touches_packer]
      exact .of_eq rfl
  | eflush =>
    rcases ruleEflush_cases s with ⟨-, ht⟩ | ⟨-, -, ht⟩ | ⟨-, -, ht⟩ <;> rw [rule, ht] <;>
      exact ⟨rfl, ⟨rfl, rfl, rfl⟩, fun other => absurd rfl other⟩
  | dbyte b =>
    rw [rule, ruleDbyte, feedBits_frame]
    exact .of_eq rfl
  | dlast b =>
    rcases ruleDlast_cases s b with ⟨-, ht⟩ | ⟨-, ht⟩ <;> rw [rule, ht]
    · exact .of_eq rfl
    · rw [feedTail_frame]
      exact .of_eq rfl
  | dend => exact absurd (eq_of_beq hp) hm

/-- Settles O24: a command that is dropped or not allowed touches only the error fields, and one that is allowed leaves
the table by its rule. -/
theorem tableIsStableOutsideIdle : Obligations.TableIsStableOutsideIdle := by
  intro i s t hm hi ht
  have stable : StableTable i s t := by
    rcases exec_state_cases ht with rfl | rfl | ⟨hp, rfl⟩
    · exact .of_eq rfl
    · exact .of_eq rfl
    · exact stableTable_rule hm hi hp
  obtain ⟨table, ⟨lsel, lsym, lcnt⟩, tail⟩ := stable
  exact ⟨table, lsel, lsym, lcnt, tail⟩

/-! ## Reads -/

/-- Settles O50: the step serves the read, which is `serveRead` on the state with that access taken. -/
theorem readHasNoSideEffect : Obligations.ReadHasNoSideEffect :=
  fun _ _ _ hhost => step_of_host hhost

end Sys2Proof.Machine
end

section
/-! The opcode map and the words it leaves out (spec/30_encoding.md R70 to R78). -/

namespace Sys2Proof.Machine

/-! ## A word is its opcode and its fields -/

theorem selects_iff_and {r : OpcodeRow} {w : Word} : r.selects w = true ↔ w &&& r.mask = r.pattern :=
  beq_iff_eq

/-- A field read from a word and put back at its place is the word under the field's mask. -/
theorem place_field (w : Word) (lo n : Nat) : place lo (field w lo n) = w &&& place lo (BitVec.allOnes n) := by
  apply BitVec.eq_of_getLsbD_eq
  intro j hj
  by_cases below : j < lo
  · simp [place, below]
  · have within : lo + (j - lo) = j := by omega
    simp [place, field, hj, below, within, Bool.and_comm]

theorem toNat_opcode (w : Word) : (field w 28 4).toNat = w.toNat / 2 ^ 28 := by
  have := w.isLt
  rw [field, BitVec.extractLsb'_toNat, Nat.shiftRight_eq_div_pow, Nat.mod_eq_of_lt (by omega)]

/-- A row's mask is OP with the bits its format marks 0, and its pattern is its number in OP with 0 in those bits: so it
selects the words of its opcode in which no reserved bit is set (R71, R73, R74). -/
theorem selects_iff {w : Word} {k : Nat} (hk : k < opcodeRows.length) :
    opcodeRows[k].selects w = true ↔ w.toNat / 2 ^ 28 = k ∧ w &&& reservedMask k = 0 := by
  have mask : ∀ j (hj : j < opcodeRows.length),
      opcodeRows[j].mask = place 28 (BitVec.allOnes 4) ||| reservedMask j := by decide
  have pattern : ∀ j (hj : j < opcodeRows.length), opcodeRows[j].pattern = place 28 (BitVec.ofNat 4 j) := by decide
  have covered : ∀ j (hj : j < opcodeRows.length), opcodeRows[j].mask &&& reservedMask j = reservedMask j := by decide
  have apart : ∀ j (hj : j < opcodeRows.length), opcodeRows[j].pattern &&& reservedMask j = 0 := by decide
  have number : ∀ j (hj : j < opcodeRows.length), (field opcodeRows[j].pattern 28 4).toNat = j := by decide
  constructor
  · intro selected
    constructor
    · rw [← toNat_opcode, opcode_of_selects (List.getElem_mem hk) selected, number k hk]
    · rw [← covered k hk, ← BitVec.and_assoc, selects_iff_and.mp selected, apart k hk]
  · rintro ⟨rfl, unreserved⟩
    have opcode : BitVec.ofNat 4 (w.toNat / 2 ^ 28) = field w 28 4 := by
      rw [← toNat_opcode, BitVec.ofNat_toNat, BitVec.setWidth_eq]
    rw [selects_iff_and, mask _ hk, pattern _ hk, BitVec.and_or_distrib_left, unreserved, ← place_field, opcode]
    exact BitVec.or_zero

/-- A reserved opcode, or a reserved bit set, is what no row selects (R73, R75). -/
theorem no_row_selects_iff {w : Word} :
    (∀ r ∈ opcodeRows, r.selects w = false) ↔
      0xB ≤ w.toNat / 2 ^ 28 ∨ w &&& reservedMask (w.toNat / 2 ^ 28) ≠ 0 := by
  constructor
  · intro none_selects
    by_contra legal
    push Not at legal
    obtain ⟨assigned, unreserved⟩ := legal
    have selected := (selects_iff assigned).mpr ⟨rfl, unreserved⟩
    exact absurd selected (Bool.eq_false_iff.mp (none_selects _ (List.getElem_mem assigned)))
  · intro illegal r hr
    obtain ⟨k, hk, rfl⟩ := List.getElem_of_mem hr
    rw [Bool.eq_false_iff]
    intro selected
    obtain ⟨rfl, unreserved⟩ := (selects_iff hk).mp selected
    rcases illegal with reserved | bit
    · exact absurd reserved (Nat.not_le.mpr hk)
    · exact bit unreserved

/-! ## What the decoder answers -/

/-- Everything the decoder can answer: the command of a row that selects the word, or ILLEGAL where none does (R77). -/
theorem decode_cases (w : Word) :
    (∃ r ∈ opcodeRows, r.selects w = true ∧ decode w = .ok (r.ofWord w)) ∨
    ((∀ r ∈ opcodeRows, r.selects w = false) ∧ decode w = .error (illegalKind w)) := by
  cases found : opcodeRows.find? fun r => r.selects w with
  | some r =>
    exact .inl ⟨r, List.mem_of_find?_eq_some found, by simpa using List.find?_some found, by rw [decode, found]⟩
  | none =>
    exact .inr ⟨fun r hr => by simpa using List.find?_eq_none.mp found r hr, by rw [decode, found]⟩

theorem decode_error_iff {w : Word} :
    (∃ e, decode w = .error e) ↔ 0xB ≤ w.toNat / 2 ^ 28 ∨ w &&& reservedMask (w.toNat / 2 ^ 28) ≠ 0 := by
  rw [← no_row_selects_iff]
  rcases decode_cases w with ⟨r, hr, selected, command⟩ | ⟨unselected, illegal⟩
  · simp only [command, reduceCtorEq, exists_false, false_iff]
    exact fun none_selects => by simp [none_selects r hr] at selected
  · exact iff_of_true ⟨_, illegal⟩ unselected

theorem mnemonic_ofWord {r : OpcodeRow} (hr : r ∈ opcodeRows) (w : Word) : (r.ofWord w).mnemonic = r.mnemonic := by
  simp only [opcodeRows, List.mem_cons, List.not_mem_nil, or_false] at hr
  rcases hr with rfl | rfl | rfl | rfl | rfl | rfl | rfl | rfl | rfl | rfl | rfl <;> rfl

theorem mnemonic_eq_of_selects {r r' : OpcodeRow} (hr : r ∈ opcodeRows) (hr' : r' ∈ opcodeRows) {w : Word}
    (h : r.selects w = true) (h' : r'.selects w = true) : r'.mnemonic = r.mnemonic := by
  obtain ⟨k, hk, rfl⟩ := List.getElem_of_mem hr
  obtain ⟨k', hk', rfl⟩ := List.getElem_of_mem hr'
  obtain ⟨rfl, -⟩ := (selects_iff hk).mp h
  obtain ⟨rfl, -⟩ := (selects_iff hk').mp h'
  rfl

/-! ## A word from the row that selects it -/

/-- A row without fields selects its pattern only. -/
theorem pattern_of_selects {r : OpcodeRow} {w : Word} (h : r.selects w = true) (cover : r.mask = BitVec.allOnes 32) :
    r.pattern = w := by
  rw [← selects_iff_and.mp h, cover, BitVec.and_allOnes]

/-- Where the mask and a field cover every bit, the pattern and the field at its place make up the word. -/
theorem pattern_or_field_of_selects {r : OpcodeRow} {w : Word} {lo n : Nat} (h : r.selects w = true)
    (cover : r.mask ||| place lo (BitVec.allOnes n) = BitVec.allOnes 32) :
    r.pattern ||| place lo (field w lo n) = w := by
  rw [← selects_iff_and.mp h, place_field, ← BitVec.and_or_distrib_left, cover, BitVec.and_allOnes]

theorem pattern_or_fields_of_selects {r : OpcodeRow} {w : Word} {lo n m : Nat} (h : r.selects w = true)
    (cover : r.mask ||| place lo (BitVec.allOnes n) ||| place 0 (BitVec.allOnes m) = BitVec.allOnes 32) :
    r.pattern ||| place lo (field w lo n) ||| place 0 (field w 0 m) = w := by
  rw [← selects_iff_and.mp h, place_field, place_field, ← BitVec.and_or_distrib_left, ← BitVec.and_or_distrib_left,
    cover, BitVec.and_allOnes]

theorem encode_ofWord {r : OpcodeRow} (hr : r ∈ opcodeRows) {w : Word} (h : r.selects w = true) :
    encode (r.ofWord w) = w := by
  have keep : BitVec.ofBool (w.getLsbD 0) = field w 0 1 := by
    apply BitVec.eq_of_getLsbD_eq
    intro j hj
    obtain rfl : j = 0 := by omega
    simp [field]
  simp only [opcodeRows, List.mem_cons, List.not_mem_nil, or_false] at hr
  rcases hr with rfl | rfl | rfl | rfl | rfl | rfl | rfl | rfl | rfl | rfl | rfl
  · exact pattern_of_selects h (by decide)
  · simp only [encode, keep]
    exact pattern_or_field_of_selects h (by decide)
  · exact pattern_or_fields_of_selects h (by decide)
  · exact pattern_or_fields_of_selects h (by decide)
  · exact pattern_or_field_of_selects h (by decide)
  · exact pattern_or_fields_of_selects h (by decide)
  · exact pattern_or_field_of_selects h (by decide)
  · exact pattern_of_selects h (by decide)
  · exact pattern_or_field_of_selects h (by decide)
  · exact pattern_or_field_of_selects h (by decide)
  · exact pattern_of_selects h (by decide)

/-! ## The statements on words -/

/-- Settles O1: the row of the command's opcode selects its word, and gives back its fields. -/
theorem decodeOfEncodeIsTheCommand : Obligations.DecodeOfEncodeIsTheCommand :=
  decode_encode

/-- Settles O2: the command is a row's command, and its word is made up of the row's pattern and fields. -/
theorem encodeOfDecodeIsTheWord : Obligations.EncodeOfDecodeIsTheWord := by
  intro w i command
  rcases decode_cases w with ⟨r, hr, selected, ofRow⟩ | ⟨-, illegal⟩
  · cases ofRow.symm.trans command
    exact encode_ofWord hr selected
  · cases illegal.symm.trans command

/-- Settles O3, by the two answers of the decoder; two rows that select one word have the same number. -/
theorem everyWordSelectsOneRowOrNone : Obligations.EveryWordSelectsOneRowOrNone := by
  intro w op
  rcases decode_cases w with ⟨r, hr, selected, command⟩ | ⟨unselected, illegal⟩
  · exact .inl ⟨r, hr, selected, command, mnemonic_ofWord hr w,
      fun _ hr' selected' => mnemonic_eq_of_selects hr hr' selected selected'⟩
  · exact .inr ⟨unselected, no_row_selects_iff.mp unselected, _, illegal⟩

/-- An ILLEGAL word raises EILLEGAL where no error is recorded (R90, R172). -/
theorem executeWord_illegal {w : Word} {e : Illegal} {s : State} (h : decode w = .error e) (he : s.err = false) :
    executeWord w s = .next (s.recordError .illegal 0 w) := by
  rw [executeWord, h]
  simp [executeIllegal, he, raiseError_eq]

/-- Settles O4: the words the decoder refuses, and what the dispatch rule does with one. -/
theorem reservedOpcodeOrBitRaisesEillegal : Obligations.ReservedOpcodeOrBitRaisesEillegal := by
  intro w s op
  refine ⟨decode_error_iff, fun he reserved => ?_⟩
  obtain ⟨e, illegal⟩ := decode_error_iff.mpr reserved
  exact executeWord_illegal illegal he

/-- Settles O5: each word is the word of its command. -/
theorem writtenOutWordsDecode : Obligations.WrittenOutWordsDecode :=
  ⟨decode_encode .nop, decode_encode (.init true), decode_encode (.cwlen 65 1), decode_encode (.cwbits 2 2),
    decode_encode (.cwinv 67), decode_encode (.tailset 6 0x0B), decode_encode (.enc 66), decode_encode .eflush,
    decode_encode (.dbyte 0x2C), decode_encode (.dlast 0x0B), decode_encode .dend⟩

end Sys2Proof.Machine
end

section
/-! The assembler's words (spec/30_encoding.md R78). -/

namespace Sys2Proof.Machine

/-- The word of a command with two fields, as a sum. -/
theorem opcode_or_fields (op : BitVec 4) {n lo m x y : Nat} (hn : n + lo ≤ 28) (hm : m ≤ lo) (hx : x < 2 ^ n)
    (hy : y < 2 ^ m) : place 28 op ||| place lo (BitVec.ofNat n x) ||| place 0 (BitVec.ofNat m y) =
      BitVec.ofNat 32 (op.toNat * 2 ^ 28 + x * 2 ^ lo + y) := by
  have low : y < 2 ^ lo := hy.trans_le (Nat.pow_le_pow_right (by omega) hm)
  have second : (place 0 (BitVec.ofNat m y)).toNat = y := by
    rw [toNat_place_zero _ (by omega), BitVec.toNat_ofNat, Nat.mod_eq_of_lt hy]
  have fields : (place lo (BitVec.ofNat n x) ||| place 0 (BitVec.ofNat m y)).toNat = x * 2 ^ lo + y := by
    rw [toNat_place_or _ (by omega) second low, BitVec.toNat_ofNat, Nat.mod_eq_of_lt hx]
  have fit : x * 2 ^ lo + y < 2 ^ 28 :=
    calc x * 2 ^ lo + y < (x + 1) * 2 ^ lo := by linarith
      _ ≤ 2 ^ n * 2 ^ lo := Nat.mul_le_mul_right _ hx
      _ = 2 ^ (n + lo) := (pow_add ..).symm
      _ ≤ 2 ^ 28 := Nat.pow_le_pow_right (by omega) hn
  have word := toNat_place_or op (by omega) fields fit
  rw [BitVec.or_assoc, Nat.add_assoc, ← word, BitVec.ofNat_toNat, BitVec.setWidth_eq]

/-- The word of a command with one field, as a sum. -/
theorem opcode_or_field (op : BitVec 4) {n lo x : Nat} (hn : n + lo ≤ 28) (hx : x < 2 ^ n) :
    place 28 op ||| place lo (BitVec.ofNat n x) = BitVec.ofNat 32 (op.toNat * 2 ^ 28 + x * 2 ^ lo) := by
  have word := opcode_or_fields op (m := 0) (y := 0) hn (by omega) hx (by omega)
  simpa [place] using word

theorem opcode_or_byte (op : BitVec 4) {b : Nat} (hb : b < 2 ^ 8) :
    place 28 op ||| place 0 (BitVec.ofNat 8 b) = BitVec.ofNat 32 (op.toNat * 2 ^ 28 + b) := by
  rw [opcode_or_field op (by omega) hb, pow_zero, mul_one]

/-- A line of one command: its word where the operands fit, refused where they do not (R78). -/
theorem assemble_of_fits {src : Source} {i : Instr} {fits : Prop} [Decidable fits] {w : Word}
    (accepted : src.wellFormed = decide fits) (command : expand src = [i]) (word : fits → encode i = w) :
    assemble src = if fits then some [w] else none := by
  rw [assemble, accepted, command]
  by_cases h : fits
  · simp [h, word h]
  · simp [h]

theorem assemble_init (keep : Nat) : assemble (.init keep) =
    if keep ≤ 1 then some [BitVec.ofNat 32 (0x10000000 + keep)] else none := by
  refine assemble_of_fits rfl rfl fun fits => ?_
  obtain rfl | rfl : keep = 0 ∨ keep = 1 := by omega
  · rfl
  · rfl

/-- Settles O6: each line is one command, and its word is the opcode and the fields added up. -/
theorem assemblerWritesOperandsAsGiven : Obligations.AssemblerWritesOperandsAsGiven := by
  refine ⟨⟨rfl, rfl, rfl⟩, assemble_init, fun sym len => ?_, fun n data => ?_, fun sym => ?_, fun tlen tbits => ?_,
    fun b => ?_, fun b => ?_, fun b => ?_⟩
  · exact assemble_of_fits (Bool.decide_and ..).symm rfl fun ⟨hs, hl⟩ =>
      opcode_or_fields 0x2 (by omega) (by omega) (by omega) (by omega)
  · exact assemble_of_fits (Bool.decide_and ..).symm rfl fun ⟨hn, hd⟩ =>
      opcode_or_fields 0x3 (by omega) (by omega) (by omega) (by omega)
  · exact assemble_of_fits rfl rfl fun hs => opcode_or_field 0x4 (by omega) (by omega)
  · exact assemble_of_fits (Bool.decide_and ..).symm rfl fun ⟨hl, hb⟩ =>
      opcode_or_fields 0x5 (by omega) (by omega) (by omega) (by omega)
  · exact assemble_of_fits rfl rfl fun hb => opcode_or_byte 0x6 (by omega)
  · exact assemble_of_fits rfl rfl fun hb => opcode_or_byte 0x8 (by omega)
  · exact assemble_of_fits rfl rfl fun hb => opcode_or_byte 0x9 (by omega)

end Sys2Proof.Machine
end

section
/-! The pseudo-commands CW and TAIL (spec/30_encoding.md R79, R80; spec/41_table.md R101, R102, R106). -/

namespace Sys2Proof.Machine

/-! ## The chunks of a codeword -/

/-- Pieces of `k` cut from the left give back what they were cut from. -/
theorem flatMap_take_drop {α : Type*} (c : List α) (k m : Nat) :
    ((List.range m).flatMap fun j => (c.drop (k * j)).take k) = c.take (k * m) := by
  induction m with
  | zero => simp
  | succ m ih => rw [List.range_succ, List.flatMap_append, ih, List.flatMap_singleton, Nat.mul_succ, List.take_add]

theorem flatten_chunks16 (c : List Bool) : (chunks16 c).flatten = c := by
  rw [chunks16, ← List.flatMap_def, flatMap_take_drop, List.take_of_length_le (by omega)]

/-- No chunk is empty or longer than sixteen bits. -/
theorem length_of_mem_chunks16 {c d : List Bool} (h : d ∈ chunks16 c) : 1 ≤ d.length ∧ d.length ≤ 16 := by
  simp only [chunks16, List.mem_map, List.mem_range] at h
  obtain ⟨j, hj, rfl⟩ := h
  rw [List.length_take, List.length_drop]
  omega

/-- Settles O7, from the chunks' definition: the counts, and the pieces put together. -/
theorem cwExpandsIntoSixteenBitChunks : Obligations.CwExpandsIntoSixteenBitChunks := by
  intro sym c hpos hlen m chunk
  refine ⟨?_, rfl, fun j hj => ?_, fun j hj => ?_, ?_, ?_⟩
  · simp [loadCodeword, chunks16, m]
  · simp [loadCodeword, chunks16, chunkCommand, chunk, m, List.getElem?_range hj]
  · simp only [chunk, List.length_take, List.length_drop]
    omega
  · simp only [chunk, List.length_take, List.length_drop]
    omega
  · rw [flatMap_take_drop, List.take_of_length_le (by omega)]

/-! ## Loading a codeword -/

/-- The state while the codeword of `sym`, `len` bits long, is being loaded, with its bits `p` in place (R101, R102). -/
def loadingCodeword (sym : Byte) (len : Nat) (p : List Bool) (s : State) : State :=
  (s.setEntry sym ⟨false, BitVec.ofNat 8 len, BitVec.ofNat 255 (val p)⟩).selectLoader sym (BitVec.ofNat 8 p.length)

/-- The state with the codeword `c` of `sym` loaded (R57, R102). -/
def codewordLoaded (sym : Byte) (c : List Bool) (s : State) : State :=
  (s.setEntry sym ⟨true, BitVec.ofNat 8 c.length, BitVec.ofNat 255 (val c)⟩).clearLoader

variable {s : State} {sym : Byte}

@[simp] theorem setEntry_setEntry (s : State) (x : Byte) (e f : CodeEntry) :
    (s.setEntry x e).setEntry x f = s.setEntry x f := by
  simp [State.setEntry]

theorem val_lt_of_length_le {d : List Bool} {n : Nat} (h : d.length ≤ n) : val d < 2 ^ n :=
  (val_lt d).trans_le (Nat.pow_le_pow_right (by omega) h)

/-- The chunk of a string's own CWBITS is the string's value. -/
theorem chunkBits_chunk {d : List Bool} (h : d.length ≤ 16) :
    chunkBits (BitVec.ofNat 5 d.length) (BitVec.ofNat 16 (val d)) = BitVec.ofNat 255 (val d) := by
  rw [chunkBits, BitVec.toNat_ofNat, BitVec.toNat_ofNat, Nat.mod_eq_of_lt (val_lt_of_length_le h),
    Nat.mod_eq_of_lt (show d.length < 2 ^ 5 by omega), Nat.mod_eq_of_lt (val_lt d)]

/-- CWBITS appends its chunk to the bits loaded so far. -/
theorem appendChunk_chunk (p : List Bool) {d : List Bool} (h : d.length ≤ 16) :
    appendChunk (BitVec.ofNat 5 d.length) (BitVec.ofNat 16 (val d)) (BitVec.ofNat 255 (val p)) =
      BitVec.ofNat 255 (val (p ++ d)) := by
  apply BitVec.eq_of_toNat_eq
  rw [appendChunk, chunkBits_chunk h, BitVec.toNat_or, BitVec.toNat_shiftLeft, Nat.shiftLeft_eq]
  simp only [BitVec.toNat_ofNat]
  rw [Nat.mod_eq_of_lt (show d.length < 2 ^ 5 by omega), Nat.mod_mul_mod, ← Nat.or_mod_two_pow,
    mul_pow_or (val_lt d), val_append]

theorem exec_cwlen (h : Ready s) {len : Nat} (hpos : 1 ≤ len) (hlen : len ≤ 255) :
    exec (.cwlen sym (BitVec.ofNat 8 len)) s = .next (loadingCodeword sym len [] s) := by
  obtain ⟨idle, noError⟩ := h
  have nonzero : BitVec.ofNat 8 len ≠ 0 := by
    rw [BitVec.toNat_ne, BitVec.toNat_ofNat, Nat.mod_eq_of_lt (by omega)]
    exact Nat.ne_of_gt hpos
  have allowed : permitted (.cwlen sym (BitVec.ofNat 8 len)) s.mode = true := beq_iff_eq.mpr idle
  rw [exec_allowed noError allowed]
  rcases ruleCwlen_cases s sym (BitVec.ofNat 8 len) with ⟨zero, -⟩ | ⟨-, ht⟩
  · exact absurd zero nonzero
  · rw [rule, ht]
    rfl

/-- CWBITS with a chunk that fits the entry being loaded raises no error: it completes the entry or makes progress in it
(R102). -/
theorem ruleCwbits_of_fits {n : BitVec 5} {e : CodeEntry} {cnt : Nat} (data : BitVec 16) (hsel : s.lsel = true)
    (hsym : s.lsym = sym) (he : s.entry sym = e) (hcnt : s.lcnt.toNat + n.toNat = cnt) (hpos : 1 ≤ n.toNat)
    (hn : n.toNat ≤ 16) (fits : cnt ≤ e.len.toNat) :
    (ruleCwbits n data s).state =
      if cnt = e.len.toNat then (s.setEntry sym ⟨true, e.len, appendChunk n data e.bits⟩).clearLoader
      else (s.setEntry sym { e with bits := appendChunk n data e.bits }).selectLoader sym (BitVec.ofNat 8 cnt) := by
  subst hsym he hcnt
  have legal : ¬(n = 0 ∨ 16 < n.toNat) := by
    rintro (rfl | long)
    · simp at hpos
    · omega
  rw [ruleCwbits, if_neg legal, if_neg (by simp [hsel]), if_neg (Nat.not_lt.mpr fits)]
  by_cases full : s.lcnt.toNat + n.toNat = (s.entry s.lsym).len.toNat
  · rw [if_pos full, if_pos full]
    rfl
  · rw [if_neg full, if_neg full]
    rfl

theorem entry_loadingCodeword (len : Nat) (p : List Bool) :
    (loadingCodeword sym len p s).entry sym = ⟨false, BitVec.ofNat 8 len, BitVec.ofNat 255 (val p)⟩ :=
  entry_setEntry_self s sym _

theorem setEntry_loadingCodeword (len : Nat) (p : List Bool) (e : CodeEntry) :
    (loadingCodeword sym len p s).setEntry sym e = (s.setEntry sym e).selectLoader sym (BitVec.ofNat 8 p.length) :=
  congrArg (State.selectLoader sym _) (setEntry_setEntry s sym _ e)

/-- CWBITS with the next chunk `d` of a codeword of `len` bits, the bits `p` being in place (R102). -/
theorem exec_chunkCommand (h : Ready s) {len : Nat} (hlen : len ≤ 255) {p d : List Bool} (hpos : 1 ≤ d.length)
    (hd : d.length ≤ 16) (fits : (p ++ d).length ≤ len) :
    exec (chunkCommand d) (loadingCodeword sym len p s) = .next
      (if (p ++ d).length = len then codewordLoaded sym (p ++ d) s else loadingCodeword sym len (p ++ d) s) := by
  obtain ⟨idle, noError⟩ := h
  have clear : (loadingCodeword sym len p s).err = false := noError
  have allowed : permitted (chunkCommand d) (loadingCodeword sym len p s).mode = true := beq_iff_eq.mpr idle
  have n : (BitVec.ofNat 5 d.length).toNat = d.length := Nat.mod_eq_of_lt (by omega)
  have total : (BitVec.ofNat 8 len).toNat = len := Nat.mod_eq_of_lt (by omega)
  have cnt : (loadingCodeword sym len p s).lcnt.toNat + (BitVec.ofNat 5 d.length).toNat = (p ++ d).length := by
    rw [List.length_append] at fits ⊢
    rw [n]
    exact congrArg (· + d.length) (Nat.mod_eq_of_lt (by omega))
  have appended := ruleCwbits_of_fits (sym := sym) (BitVec.ofNat 16 (val d)) rfl rfl (entry_loadingCodeword len p) cnt
    (by rwa [n]) (by rwa [n]) (by rwa [total])
  rw [exec_allowed clear allowed, chunkCommand, rule, appended, total, setEntry_loadingCodeword,
    setEntry_loadingCodeword, appendChunk_chunk p hd]
  by_cases full : (p ++ d).length = len
  · rw [if_pos full, if_pos full, codewordLoaded, full]
    rfl
  · rw [if_neg full, if_neg full]
    rfl

/-- The CWBITS of all chunks still to come complete the codeword, by induction on the chunks: only the last one reaches
its length. -/
theorem execAll_chunkCommands (h : Ready s) {ds : List (List Bool)} {p : List Bool} (hne : ds ≠ [])
    (hds : ∀ d ∈ ds, 1 ≤ d.length ∧ d.length ≤ 16) (hlen : (p ++ ds.flatten).length ≤ 255) :
    execAll (ds.map chunkCommand) (loadingCodeword sym (p ++ ds.flatten).length p s) =
      .next (codewordLoaded sym (p ++ ds.flatten) s) := by
  induction ds generalizing p with
  | nil => exact absurd rfl hne
  | cons d ds ih =>
    obtain ⟨hpos, hd⟩ := hds d (List.mem_cons_self ..)
    rw [List.flatten_cons, ← List.append_assoc] at hlen ⊢
    have first := exec_chunkCommand (sym := sym) h hlen hpos hd (p := p) (by simp)
    rw [List.map_cons, execAll, first]
    cases ds with
    | nil => simp [execAll]
    | cons d' ds =>
      have more := (hds d' (by simp)).1
      rw [if_neg (by simp only [List.length_append, List.flatten_cons]; omega)]
      exact ih (by simp) (fun x hx => hds x (List.mem_cons_of_mem _ hx)) hlen

theorem chunks16_ne_nil {c : List Bool} (h : 1 ≤ c.length) : chunks16 c ≠ [] := by
  intro empty
  have := flatten_chunks16 c
  rw [empty, List.flatten_nil] at this
  simp [← this] at h

/-- The commands of `CW sym, "c"`, from any state in which the table may be written (R79). -/
theorem execAll_loadCodeword (h : Ready s) {c : List Bool} (hpos : 1 ≤ c.length) (hlen : c.length ≤ 255) :
    execAll (loadCodeword sym c) s = .next (codewordLoaded sym c s) := by
  have chunks := execAll_chunkCommands (sym := sym) h (p := []) (chunks16_ne_nil hpos)
    (fun _ => length_of_mem_chunks16) (by rwa [flatten_chunks16])
  rw [flatten_chunks16, List.nil_append] at chunks
  rw [loadCodeword, execAll, exec_cwlen h hpos hlen]
  exact chunks

theorem codewordOf_codewordLoaded {c : List Bool} (hlen : c.length ≤ 255) :
    (codewordLoaded sym c s).codewordOf sym = c := by
  rw [State.codewordOf, codewordLoaded, State.clearLoader_entry, entry_setEntry_self, CodeEntry.codeword,
    BitVec.toNat_ofNat, BitVec.toNat_ofNat, Nat.mod_eq_of_lt (val_lt_of_length_le hlen),
    Nat.mod_eq_of_lt (by omega), str_val]

/-- Settles O20: the state with the codeword loaded differs in one entry, and the loader is idle there. -/
theorem cwPseudoCommandLoadsTheCodeword : Obligations.CwPseudoCommandLoadsTheCodeword := by
  intro sym c s _ ready hpos hlen
  exact ⟨codewordLoaded sym c s, execAll_loadCodeword ready hpos hlen, entry_setEntry_self s sym _,
    codewordOf_codewordLoaded hlen, fun _ hx => entry_setEntry_of_ne s _ hx, rfl⟩

/-! ## Setting the tail -/

theorem tailBits_string {t : List Bool} (h : t.length ≤ 8) :
    tailBits (BitVec.ofNat 4 t.length) (BitVec.ofNat 8 (val t)) = BitVec.ofNat 8 (val t) := by
  rw [tailBits, BitVec.toNat_ofNat, BitVec.toNat_ofNat, Nat.mod_eq_of_lt (val_lt_of_length_le h),
    Nat.mod_eq_of_lt (show t.length < 2 ^ 4 by omega), Nat.mod_eq_of_lt (val_lt t)]

theorem tailString_setTail {t : List Bool} (h : t.length ≤ 8) :
    (s.setTail (BitVec.ofNat 4 t.length) (BitVec.ofNat 8 (val t))).tailString = t := by
  rw [State.tailString, State.setTail_tlen, State.setTail_tbits, BitVec.toNat_ofNat, BitVec.toNat_ofNat,
    Nat.mod_eq_of_lt (val_lt_of_length_le h), Nat.mod_eq_of_lt (by omega), str_val]

/-- The command of `TAIL "t"` writes the tail, or removes it when `t` is empty (R80, R106). -/
theorem exec_loadTail (h : Ready s) {t : List Bool} (ht : t.length ≤ 8) :
    exec (loadTail t) s = .next
      (if t = [] then s.clearTail else s.setTail (BitVec.ofNat 4 t.length) (BitVec.ofNat 8 (val t))) := by
  obtain ⟨idle, noError⟩ := h
  have len : (BitVec.ofNat 4 t.length).toNat = t.length := Nat.mod_eq_of_lt (by omega)
  have empty : BitVec.ofNat 4 t.length = 0 ↔ t = [] := by
    rw [BitVec.toNat_eq, len, ← List.length_eq_zero_iff]
    rfl
  have allowed : permitted (loadTail t) s.mode = true := beq_iff_eq.mpr idle
  rw [exec_allowed noError allowed, loadTail, rule]
  rcases ruleTailset_cases s (BitVec.ofNat 4 t.length) (BitVec.ofNat 8 (val t)) with
    ⟨long, -⟩ | ⟨zero, done⟩ | ⟨nonzero, -, done⟩
  · omega
  · rw [done, if_pos (empty.mp zero)]
  · rw [done, if_neg (mt empty.mpr nonzero), tailBits_string ht]

/-- Settles O22, by the two cases of the command. -/
theorem tailPseudoCommandSetsTheTail : Obligations.TailPseudoCommandSetsTheTail := by
  intro t s ready ht
  have done := exec_loadTail ready ht
  by_cases empty : t = []
  · subst empty
    exact ⟨s.clearTail, done, rfl, rfl, rfl⟩
  · rw [if_neg empty] at done
    exact ⟨_, done, tailString_setTail ht, (decide_eq_true empty).symm, rfl⟩

end Sys2Proof.Machine
end

section
/-! The control commands and the dispatch rule around every command (spec/40_control.md; spec/20_memory.md R51;
spec/60_exceptions.md R173). -/

namespace Sys2Proof.Machine

open Laws.EncodeOpcode (opcode)

variable {s : State}

/-! ## The branches of the dispatch rule (R90, R91) -/

/-- While ERR = 1 a command is dropped, unless it is NOP or INIT. -/
theorem exec_dropped {i : Instr} (he : s.err = true) (hr : runsInError i = false) : exec i s = .next s := by
  rw [exec_eq_perform, perform_dropped he hr]

theorem exec_refused {i : Instr} (he : s.err = false) (hp : permitted i s.mode = false) :
    exec i s = .next (s.recordError .seq 0 (encode i)) := by
  rw [exec_eq_perform, perform_refused he hp]

theorem executeWord_command {w : Word} {i : Instr} (h : decode w = .ok i) (s : State) : executeWord w s = exec i s := by
  rw [executeWord, h]

/-- An ILLEGAL word is dropped while ERR = 1 (R90, R173). -/
theorem executeWord_illegal_dropped {w : Word} {e : Illegal} (h : decode w = .error e) (he : s.err = true) :
    executeWord w s = .next s := by
  rw [executeWord, h]
  simp [executeIllegal, he]

/-- Settles O8: the step executes the word it takes from the list, by the branches for a command, for an ILLEGAL word
that is dropped, and for one that raises. -/
theorem stepRunsTheDecodedCommand : Obligations.StepRunsTheDecodedCommand := by
  intro s
  refine ⟨fun waiting => by rw [step, stepHost, waiting], fun w rest hhost => ?_⟩
  have taken : step s = executeWord w { s with host := rest } := step_of_host hhost
  rw [taken]
  exact ⟨fun i command => executeWord_command command _,
    fun e illegal => ⟨fun he => executeWord_illegal_dropped illegal he, fun he => executeWord_illegal illegal he⟩⟩

/-! ## The words of a command -/

/-- A word that is no command's word is ILLEGAL; only the commands with its opcode need a look (R74, R77). -/
theorem illegal_of_ne_encode {w : Word} (h : ∀ i, (opcode i).toNat = w.toNat / 2 ^ 28 → w ≠ encode i) :
    ∃ e, decode w = .error e := by
  cases hd : decode w with
  | error e => exact ⟨e, rfl⟩
  | ok i =>
    have word : encode i = w := encodeOfDecodeIsTheWord w i hd
    have number := ((selects_iff (opcode_lt i)).mp (selects_encode i)).1
    rw [word] at number
    exact absurd word.symm (h i number.symm)

/-- Settles O12: an ILLEGAL word is dropped, and so is a command that is not NOP or INIT, whose three words are left
out. -/
theorem errorStateDropsCommands : Obligations.ErrorStateDropsCommands := by
  intro w s he notNop notInit notInitKeep
  cases hd : decode w with
  | error e => exact executeWord_illegal_dropped hd he
  | ok i =>
    have word : encode i = w := encodeOfDecodeIsTheWord w i hd
    rw [executeWord_command hd]
    cases i with
    | nop => exact absurd word.symm notNop
    | init keep =>
      cases keep with
      | false => exact absurd word.symm notInit
      | true => exact absurd word.symm notInitKeep
    | _ => exact exec_dropped he rfl

/-! ## ESEQ is raised by the dispatch rule only (R91) -/

section

variable (s)

@[simp] theorem packBits_ecode (c : List Bool) : (packBits s c).ecode = s.ecode :=
  (congrArg State.ecode (packBits_touches_packer s c) :)

theorem ruleCwbits_ecode (n : BitVec 5) (data : BitVec 16) :
    let t := (ruleCwbits n data s).state
    t.ecode = s.ecode ∨ t.ecode = .badLen ∨ t.ecode = .load := by
  rw [ruleCwbits]
  dsimp only
  split_ifs
  · exact .inr (.inl rfl)
  · exact .inr (.inr rfl)
  · exact .inr (.inr rfl)
  · exact .inl rfl
  · exact .inl rfl

theorem feedBits_ecode (cmd : Word) (i : Nat) (u : List Bool) :
    let t := (feedBits cmd i u s).state
    t.ecode = s.ecode ∨ t.ecode = .accOvf ∨ t.ecode = .dup := by
  rcases feedBits_errors cmd i u s with ⟨t, ht, -, same, -⟩ | ⟨t, ht, -, raised, -⟩ <;> rw [ht]
  · exact .inl same
  · exact .inr raised

theorem feedTail_ecode (cmd : Word) :
    let t := (feedTail cmd s).state
    t.ecode = s.ecode ∨ t.ecode = .accOvf ∨ t.ecode = .dup ∨ t.ecode = .dangle := by
  rw [feedTail]
  rcases feedBits_errors cmd 0 s.tailString s with ⟨t, ht, -, same, -⟩ | ⟨t, ht, -, raised, -⟩ <;> rw [ht]
  · rcases endCheck_cases cmd s.tlen.toNat t with ⟨-, he⟩ | ⟨-, he⟩ <;> rw [Flow.running_andThen, he]
    · exact .inl same
    · exact .inr (.inr (.inr rfl))
  · exact .inr (raised.imp_right .inl)

end

/-- No command's own rule raises ESEQ: it leaves ECODE, clears it, or records an error of its own (R171). -/
theorem rule_ecode_ne_seq (h : s.ecode ≠ .seq) (i : Instr) : (rule i s).state.ecode ≠ .seq := by
  cases i with
  | nop => exact h
  | init keep => simp [rule, ruleInit]
  | cwlen sym len => rcases ruleCwlen_cases s sym len with ⟨-, ht⟩ | ⟨-, ht⟩ <;> simp [rule, ht, h]
  | cwbits n data => rcases ruleCwbits_ecode s n data with ht | ht | ht <;> simp [rule, ht, h]
  | cwinv sym => rcases ruleCwinv_cases s sym with ⟨-, ht⟩ | ⟨-, ht⟩ <;> simp [rule, ht, h]
  | tailset tlen tbits =>
    rcases ruleTailset_cases s tlen tbits with ⟨-, ht⟩ | ⟨-, ht⟩ | ⟨-, -, ht⟩ <;> simp [rule, ht, h]
  | enc sym => rcases ruleEnc_cases s sym with ⟨-, ht⟩ | ⟨-, ht⟩ <;> simp [rule, ht, h]
  | eflush =>
    rcases ruleEflush_cases s with ⟨-, ht⟩ | ⟨-, -, ht⟩ | ⟨-, -, ht⟩ <;> simp [rule, ht, closeStream, h]
  | dbyte b =>
    rcases feedBits_ecode (s.setMode .decoding) (encode (.dbyte b)) 0 (byteString b) with ht | ht | ht <;>
      simp [rule, ruleDbyte, ht, h]
  | dlast b =>
    rcases ruleDlast_cases s b with ⟨-, ht⟩ | ⟨-, ht⟩ <;> rw [rule, ht]
    · simp
    · rcases feedTail_ecode (s.setMode .decDone) (encode (.dlast b)) with he | he | he | he <;> simp [he, h]
  | dend =>
    rcases ruleDend_cases s with ⟨-, ht⟩ | ⟨-, -, ht⟩ | ⟨-, -, ht⟩ <;> rw [rule, ht]
    · rcases feedTail_ecode (s.setMode .decDone) (encode .dend) with he | he | he | he <;> simp [he, h]
    · exact h
    · simp

/-- Where `allowed` is the command's row of R91, a MODE outside it raises ESEQ and one inside it does not. -/
theorem exec_eseq {i : Instr} {allowed : List Mode} (row : permitted i s.mode = true ↔ s.mode ∈ allowed)
    (he : s.err = false) :
    (s.mode ∉ allowed → exec i s = .next (s.recordError .seq 0 (encode i))) ∧
    (s.mode ∈ allowed → s.ecode ≠ .seq → ∀ t, exec i s = .next t → t.ecode ≠ .seq) := by
  rw [← row]
  constructor
  · intro outside
    exact exec_refused he (Bool.eq_false_iff.mpr outside)
  · intro inside notSeq t ht
    cases (exec_allowed he inside).symm.trans ht
    exact rule_ecode_ne_seq notSeq i

/-- Settles O13: `permitted` is the table row by row, and only the dispatch rule raises ESEQ. -/
theorem disallowedModeRaisesEseq : Obligations.DisallowedModeRaisesEseq := by
  intro i s he allowed
  refine exec_eseq ?_ he
  cases i with
  | nop => cases s.mode <;> simp [permitted, allowed]
  | init keep => cases s.mode <;> simp [permitted, allowed]
  | _ => simp [permitted, allowed]

/-! ## NOP and INIT -/

/-- NOP is performed in every MODE and while ERR = 1, and its rule does nothing (R93). -/
theorem exec_nop (s : State) : exec .nop s = .next s := by
  rw [exec_eq_perform, perform_always rfl fun _ => rfl]
  rfl

/-- Settles O14: NOP is its equation, and no other command has opcode 0. -/
theorem nopChangesNothing : Obligations.NopChangesNothing := by
  refine ⟨exec_nop, decode_encode .nop, fun w small notNop => illegal_of_ne_encode fun i number => ?_⟩
  rw [Nat.div_eq_of_lt small] at number
  cases i with
  | nop => exact notNop
  | _ => simp [opcode] at number

/-- INIT 0 invalidates every entry, INIT 1 keeps the table; LEN and BITS stand either way (R92). -/
theorem ruleInit_entry (keep : Bool) (s : State) (x : Byte) :
    (ruleInit keep s).state.entry x = { s.entry x with valid := keep && (s.entry x).valid } := by
  cases keep with
  | true => rfl
  | false => exact entry_invalidateTable s x

/-- Settles O15: the words of opcode 1 are those of INIT, and INIT is its equation, field by field. -/
theorem initStartsAnInvocation : Obligations.InitStartsAnInvocation := by
  constructor
  · refine ⟨decode_encode (.init false), decode_encode (.init true), fun w one notInit notInitKeep => ?_⟩
    refine illegal_of_ne_encode fun i number => ?_
    rw [one] at number
    cases i with
    | init keep =>
      cases keep with
      | false => exact notInit
      | true => exact notInitKeep
    | _ => simp [opcode] at number
  · intro keep s
    refine ⟨(ruleInit keep s).state, exec_init keep s, ruleInit_entry keep s, ?_⟩
    cases keep with
    | true => rfl
    | false => rfl

end Sys2Proof.Machine
end

section
/-! The code-table commands (spec/41_table.md R100 to R103, R106). -/

namespace Sys2Proof.Machine

variable {s : State}

/-! ## Commands that run in IDLE only (R91) -/

theorem exec_in_idle {i : Instr} {t : State} (row : permitted i s.mode = (s.mode == .idle)) (he : s.err = false)
    (idle : s.mode = .idle) (done : (rule i s).state = t) : exec i s = .next t := by
  rw [exec_allowed he (row.trans (beq_iff_eq.mpr idle)), done]

theorem exec_outside_idle {i : Instr} (row : permitted i s.mode = (s.mode == .idle)) (he : s.err = false)
    (outside : s.mode ≠ .idle) : exec i s = .next (s.recordError .seq 0 (encode i)) :=
  exec_refused he (row.trans (beq_false_of_ne outside))

/-- A field at bit 0 is not shifted. -/
theorem place_zero {n : Nat} (v : BitVec n) : place 0 v = v.setWidth 32 := BitVec.shiftLeft_zero ..

/-! ## CWLEN, CWINV and TAILSET -/

/-- Settles O16, by the two cases of the command's rule; outside IDLE the rule does not run. -/
theorem cwlenBeginsLoadingAnEntry : Obligations.CwlenBeginsLoadingAnEntry := by
  intro sym len s he cmd
  have word : encode (.cwlen sym len) = cmd := by
    rw [encode, place_zero]
    rfl
  rw [← word]
  refine ⟨rfl, fun idle nonzero => ?_, fun idle zero => ?_, exec_outside_idle rfl he⟩
  · obtain ⟨-, done⟩ := (ruleCwlen_cases s sym len).resolve_left fun raised => nonzero raised.1
    exact ⟨_, exec_in_idle rfl he idle done, entry_setEntry_self s sym _, fun _ hx => entry_setEntry_of_ne s _ hx, rfl⟩
  · obtain ⟨-, done⟩ := (ruleCwlen_cases s sym len).resolve_right fun begun => begun.1 zero
    exact exec_in_idle rfl he idle done

/-- Settles O18, by whether the entry is the one being loaded. -/
theorem cwinvRemovesAnEntry : Obligations.CwinvRemovesAnEntry := by
  intro sym s he cmd
  refine ⟨rfl, fun idle => ?_, exec_outside_idle rfl he⟩
  rcases ruleCwinv_cases s sym with ⟨⟨selected, same⟩, done⟩ | ⟨other, done⟩
  · refine ⟨_, exec_in_idle rfl he idle done, entry_setEntry_self s sym _, fun _ hx => entry_setEntry_of_ne s _ hx,
      fun _ _ => rfl, ?_⟩
    rintro (free | differs)
    · exact absurd selected (Bool.eq_false_iff.mp free)
    · exact absurd same differs
  · exact ⟨_, exec_in_idle rfl he idle done, entry_setEntry_self s sym _, fun _ hx => entry_setEntry_of_ne s _ hx,
      fun selected same => absurd ⟨selected, same⟩ other, fun _ => rfl⟩

/-- Settles O19, by the three cases of the command's rule. -/
theorem tailsetWritesTheTail : Obligations.TailsetWritesTheTail := by
  intro tlen tbits s he cmd
  have word : encode (.tailset tlen tbits) = cmd := by
    rw [encode, place_zero]
    rfl
  have zero_iff : tlen = 0 ↔ tlen.toNat = 0 := BitVec.toNat_eq
  rw [← word]
  rcases ruleTailset_cases s tlen tbits with ⟨long, done⟩ | ⟨zero, done⟩ | ⟨nonzero, short, done⟩
  · exact ⟨rfl, by omega, by omega, fun idle _ => exec_in_idle rfl he idle done, exec_outside_idle rfl he⟩
  · rw [zero_iff] at zero
    exact ⟨rfl, by omega, fun idle _ => exec_in_idle rfl he idle done, by omega, exec_outside_idle rfl he⟩
  · rw [Ne, zero_iff] at nonzero
    exact ⟨rfl, fun idle _ _ => exec_in_idle rfl he idle done, by omega, by omega, exec_outside_idle rfl he⟩

/-! ## CWBITS -/

theorem toNat_chunkBits (n : BitVec 5) (data : BitVec 16) :
    (chunkBits n data).toNat = data.toNat % 2 ^ n.toNat := by
  have fits : data.toNat % 2 ^ n.toNat < 2 ^ 255 :=
    (Nat.mod_le ..).trans_lt (data.isLt.trans (Nat.pow_lt_pow_right (by omega) (by omega)))
  rw [chunkBits, BitVec.toNat_ofNat, Nat.mod_eq_of_lt fits]

/-- The chunk goes below the bits in place, and none of them is lost as long as the codeword fits its register
(R12, R102). -/
theorem toNat_appendChunk {n : BitVec 5} {bits : CodeBits} {cnt : Nat} (data : BitVec 16) (h : bits.toNat < 2 ^ cnt)
    (fits : cnt + n.toNat ≤ 255) :
    (appendChunk n data bits).toNat = bits.toNat * 2 ^ n.toNat + data.toNat % 2 ^ n.toNat := by
  have shifted : bits.toNat * 2 ^ n.toNat < 2 ^ 255 :=
    calc bits.toNat * 2 ^ n.toNat < 2 ^ cnt * 2 ^ n.toNat := Nat.mul_lt_mul_of_pos_right h (by positivity)
      _ = 2 ^ (cnt + n.toNat) := (pow_add ..).symm
      _ ≤ 2 ^ 255 := Nat.pow_le_pow_right (by omega) fits
  rw [appendChunk, BitVec.toNat_or, BitVec.toNat_shiftLeft, Nat.shiftLeft_eq, Nat.mod_eq_of_lt shifted,
    toNat_chunkBits, mul_pow_or (Nat.mod_lt _ (by positivity))]

theorem ruleCwbits_badLen {n : BitVec 5} (data : BitVec 16) (h : n.toNat = 0 ∨ 16 < n.toNat) :
    (ruleCwbits n data s).state = s.recordError .badLen 0 (encode (.cwbits n data)) := by
  have illegal : n = 0 ∨ 16 < n.toNat := h.imp_left BitVec.eq_of_toNat_eq
  rw [ruleCwbits, if_pos illegal]
  rfl

theorem ruleCwbits_load {n : BitVec 5} (data : BitVec 16) (hpos : 1 ≤ n.toNat) (hn : n.toNat ≤ 16)
    (h : s.lsel = false ∨ (s.entry s.lsym).len.toNat < s.lcnt.toNat + n.toNat) :
    (ruleCwbits n data s).state = s.recordError .load 0 (encode (.cwbits n data)) := by
  have nonzero : n ≠ 0 := by
    rintro rfl
    simp at hpos
  have legal : ¬(n = 0 ∨ 16 < n.toNat) := not_or.mpr ⟨nonzero, Nat.not_lt.mpr hn⟩
  rw [ruleCwbits, if_neg legal]
  by_cases unselected : s.lsel = false
  · rw [if_pos unselected]
    rfl
  · rw [if_neg unselected, if_pos (h.resolve_left unselected)]
    rfl

/-- The state after CWBITS with a chunk that fits: the entry is valid, and the loader idle, once LCNT has reached LEN
(R102). -/
def chunkAppended (n : BitVec 5) (data : BitVec 16) (s : State) : State :=
  let e := s.entry s.lsym
  let cnt := s.lcnt.toNat + n.toNat
  { s.setEntry s.lsym ⟨decide (cnt = e.len.toNat), e.len, appendChunk n data e.bits⟩ with
    lsel := decide (cnt < e.len.toNat)
    lsym := if cnt < e.len.toNat then s.lsym else 0
    lcnt := BitVec.ofNat 8 (if cnt < e.len.toNat then cnt else 0) }

theorem entry_chunkAppended (n : BitVec 5) (data : BitVec 16) (s : State) :
    (chunkAppended n data s).entry s.lsym =
      ⟨decide (s.lcnt.toNat + n.toNat = (s.entry s.lsym).len.toNat), (s.entry s.lsym).len,
        appendChunk n data (s.entry s.lsym).bits⟩ :=
  entry_setEntry_self s s.lsym _

theorem ruleCwbits_eq_chunkAppended {n : BitVec 5} (data : BitVec 16) (selected : s.lsel = true)
    (invalid : (s.entry s.lsym).valid = false) (hpos : 1 ≤ n.toNat) (hn : n.toNat ≤ 16)
    (fits : s.lcnt.toNat + n.toNat ≤ (s.entry s.lsym).len.toNat) :
    (ruleCwbits n data s).state = chunkAppended n data s := by
  rw [ruleCwbits_of_fits (sym := s.lsym) data selected rfl rfl rfl hpos hn fits]
  by_cases full : s.lcnt.toNat + n.toNat = (s.entry s.lsym).len.toNat
  · simp [chunkAppended, State.clearLoader, full]
  · have short : s.lcnt.toNat + n.toNat < (s.entry s.lsym).len.toNat := Nat.lt_of_le_of_ne fits full
    simp [chunkAppended, State.selectLoader, full, short, invalid]

/-- Settles O17: a chunk that fits is appended, and `Sound` says that the bits in place leave it room; every other chunk
raises. -/
theorem cwbitsAppendsToTheSelectedEntry : Obligations.CwbitsAppendsToTheSelectedEntry := by
  intro n data s sound he cmd e cnt
  have word : encode (.cwbits n data) = cmd := by
    rw [encode, place_zero]
    rfl
  rw [← word]
  refine ⟨rfl, fun idle hpos hn selected fits => ?_, fun idle illegal => ?_, fun idle hpos hn refused => ?_,
    exec_outside_idle rfl he⟩
  · obtain ⟨-, invalid, loaded⟩ := sound.loading selected
    have room : cnt ≤ 255 := fits.trans (Nat.le_of_lt_succ e.len.isLt)
    have counted : (if cnt < e.len.toNat then cnt else 0) < 2 ^ 8 := by
      split <;> omega
    have done := ruleCwbits_eq_chunkAppended data selected invalid hpos hn fits
    have entry := entry_chunkAppended n data s
    exact ⟨_, exec_in_idle rfl he idle done, congrArg (·.valid) entry, congrArg (·.len) entry,
      (congrArg (·.bits.toNat) entry).trans (toNat_appendChunk data loaded room),
      fun _ hx => entry_setEntry_of_ne s _ hx, rfl, rfl, Nat.mod_eq_of_lt counted, rfl⟩
  · exact exec_in_idle rfl he idle (ruleCwbits_badLen data illegal)
  · exact exec_in_idle rfl he idle (ruleCwbits_load data hpos hn refused)

/-! ## The frame of the family (R100) -/

/-- The commands of spec/41_table.md. -/
def TableCommand (i : Instr) : Prop :=
  (∃ sym len, i = .cwlen sym len) ∨ (∃ n data, i = .cwbits n data) ∨ (∃ sym, i = .cwinv sym) ∨
    ∃ tlen tbits, i = .tailset tlen tbits

/-- `t` is `s` but for the code table, the tail, the loader and the error fields. -/
def TableFrame (s t : State) : Prop :=
  t = { s with
    ct := t.ct, tvalid := t.tvalid, tlen := t.tlen, tbits := t.tbits
    lsel := t.lsel, lsym := t.lsym, lcnt := t.lcnt
    err := t.err, ecode := t.ecode, epos := t.epos, ecmd := t.ecmd }

theorem TableCommand.ne {i : Instr} (h : TableCommand i) : (∀ keep, i ≠ .init keep) ∧ i ≠ .eflush := by
  rcases h with ⟨sym, len, rfl⟩ | ⟨n, data, rfl⟩ | ⟨sym, rfl⟩ | ⟨tlen, tbits, rfl⟩ <;> simp

theorem tableFrame_rule {i : Instr} (h : TableCommand i) (s : State) : TableFrame s (rule i s).state := by
  rcases h with ⟨sym, len, rfl⟩ | ⟨n, data, rfl⟩ | ⟨sym, rfl⟩ | ⟨tlen, tbits, rfl⟩
  · rcases ruleCwlen_cases s sym len with ⟨-, ht⟩ | ⟨-, ht⟩ <;> rw [rule, ht] <;> exact rfl
  · rcases ruleCwbits_cases s n data with ⟨c, -, ht⟩ | ⟨-, -, -, ht⟩ | ⟨-, -, -, ht⟩ <;> rw [rule, ht] <;> exact rfl
  · rcases ruleCwinv_cases s sym with ⟨-, ht⟩ | ⟨-, ht⟩ <;> rw [rule, ht] <;> exact rfl
  · rcases ruleTailset_cases s tlen tbits with ⟨-, ht⟩ | ⟨-, ht⟩ | ⟨-, -, ht⟩ <;> rw [rule, ht] <;> exact rfl

/-- Settles O23: a command that is dropped or refused changes at most the error fields, and one that runs stays within
the frame of its rule; outside IDLE the table and the tail are stable. -/
theorem tableCommandsTouchOnlyTheTable : Obligations.TableCommandsTouchOnlyTheTable := by
  intro i s t table ht
  constructor
  · rcases exec_state_cases ht with rfl | rfl | ⟨-, rfl⟩
    · rfl
    · rfl
    · exact tableFrame_rule table s
  · intro outside
    obtain ⟨notInit, notEflush⟩ := TableCommand.ne table
    obtain ⟨ct, -, -, -, tail⟩ := tableIsStableOutsideIdle i s t outside notInit ht
    exact ⟨ct, tail notEflush⟩

end Sys2Proof.Machine
end

section
/-! PackBit, ENC and EFLUSH (spec/42_pack.md R120, R121, R126). -/

namespace Sys2Proof.Machine

variable {s : State}

/-! ## PackBit -/

theorem shiftIn_eq_ofNat {w : Nat} (r : BitVec w) (b : Bool) (hw : 0 < w) :
    shiftIn r b = BitVec.ofNat w (2 * r.toNat + b.toNat) :=
  BitVec.eq_of_toNat_eq ((toNat_shiftIn r b hw).trans (BitVec.toNat_ofNat ..).symm)

/-- Settles O25, by whether the bit completes its group. -/
theorem packBitEmitsEveryEighthBit : Obligations.PackBitEmitsEveryEighthBit := by
  intro b s aligned v
  have shifted : shiftIn s.pbuf b = BitVec.ofNat 8 v := shiftIn_eq_ofNat s.pbuf b (by omega)
  have lt := s.pcnt.isLt
  refine ⟨?_, fun full => ?_, fun notFull => ?_⟩
  · have bit := Bool.toNat_le b
    rw [pow_succ]
    omega
  · rw [packBit_of_eq full, shifted]
  · rw [packBit_of_lt (by omega), shifted]

/-! ## Commands that run in IDLE and ENCODING only (R91) -/

theorem exec_in_encode {i : Instr} {t : State} (row : permitted i s.mode = (s.mode == .idle || s.mode == .encoding))
    (he : s.err = false) (hm : s.mode = .idle ∨ s.mode = .encoding) (done : (rule i s).state = t) :
    exec i s = .next t := by
  rw [exec_allowed he (row.trans (by simpa using hm)), done]

theorem exec_outside_encode {i : Instr} (row : permitted i s.mode = (s.mode == .idle || s.mode == .encoding))
    (he : s.err = false) (notIdle : s.mode ≠ .idle) (notEncoding : s.mode ≠ .encoding) :
    exec i s = .next (s.recordError .seq 0 (encode i)) :=
  exec_refused he (row.trans (by simp [notIdle, notEncoding]))

/-! ## ENC -/

/-- ENC of a symbol that has a codeword packs it (R121). -/
theorem exec_enc {sym : Byte} (he : s.err = false) (hm : s.mode = .idle ∨ s.mode = .encoding)
    (valid : (s.entry sym).valid = true) :
    exec (.enc sym) s = .next (packBits (s.setMode .encoding) (s.codewordOf sym)) := by
  rcases ruleEnc_cases s sym with ⟨invalid, -⟩ | ⟨-, done⟩
  · simp [valid] at invalid
  · exact exec_in_encode rfl he hm done

theorem exec_enc_miss {sym : Byte} (he : s.err = false) (hm : s.mode = .idle ∨ s.mode = .encoding)
    (invalid : (s.entry sym).valid = false) :
    exec (.enc sym) s = .next (s.recordError .miss 0 (encode (.enc sym))) := by
  rcases ruleEnc_cases s sym with ⟨-, done⟩ | ⟨valid, -⟩
  · exact exec_in_encode rfl he hm done
  · simp [invalid] at valid

theorem Sound.codewordOf_ne_nil (h : Sound s) {sym : Byte} (valid : (s.entry sym).valid = true) :
    s.codewordOf sym ≠ [] := by
  have pos := (h.entries sym valid).1
  rw [← length_codewordOf] at pos
  exact List.length_pos_iff.mp pos

/-- Settles O26: a valid codeword is packed as the source's split of the pending bits followed by it, and it has a bit,
so PANY is set. -/
theorem encPacksTheCodeword : Obligations.EncPacksTheCodeword := by
  intro sym s sound he cmd S
  have word : encode (.enc sym) = cmd := by rw [encode, place_zero]
  rw [← word]
  refine ⟨rfl, fun hm valid => ?_, fun hm invalid => exec_enc_miss he hm invalid, exec_outside_encode rfl he⟩
  have nonempty : (s.codewordOf sym).isEmpty = false := by simp [sound.codewordOf_ne_nil valid]
  have length : (s.codewordOf sym).length = (s.entry sym).len.toNat := length_codewordOf s sym
  have split := packBits_eq_packed (s := s.setMode .encoding) (s.codewordOf sym) sound.packer
  rw [exec_enc he hm valid, split, packed, nonempty, length, Bool.not_false, Bool.or_true]
  rfl

/-! ## EFLUSH -/

/-- Settles O27, by the three branches of the command's rule. -/
theorem eflushEndsTheStream : Obligations.EflushEndsTheStream := by
  intro s he
  refine ⟨rfl, fun hm => ?_, exec_outside_encode rfl he⟩
  rcases ruleEflush_cases s with ⟨pending, done⟩ | ⟨aligned, any, done⟩ | ⟨aligned, nothing, done⟩
  · refine ⟨fun _ => ?_, fun aligned => absurd aligned pending, fun aligned => absurd aligned pending⟩
    rw [BitVec.ofNat_toNat]
    exact exec_in_encode rfl he hm done
  · exact ⟨fun pending => absurd aligned pending, fun _ _ => exec_in_encode rfl he hm done, by simp [any]⟩
  · exact ⟨fun pending => absurd aligned pending, by simp [nothing], fun _ _ => exec_in_encode rfl he hm done⟩

end Sys2Proof.Machine
end

section
/-! One ENC after the other, and EFLUSH after them: the payload and the tail of a stream (spec/42_pack.md R122, R127,
R128). -/

namespace Sys2Proof.Machine

variable {s : State} {S : List Bool}

/-! ## The last group of a stream -/

theorem tailOf_of_lastPart_ne (h : lastPart S ≠ []) : tailOf S = lastPart S := if_neg h

theorem payloadOf_of_lastPart_ne (h : lastPart S ≠ []) :
    payloadOf S = (fullGroups S).map groupByte ++ [groupByte (lastPart S)] := by
  rw [payloadOf, if_neg h]

theorem payloadOf_of_lastPart_eq (h : lastPart S = []) : payloadOf S = (fullGroups S).map groupByte := by
  rw [payloadOf, if_pos h, List.append_nil]

/-- Where nothing is left over, the tail is the last full group. -/
theorem fullGroups_eq_concat_tailOf (hS : S ≠ []) (h : lastPart S = []) :
    ∃ gs, fullGroups S = gs ++ [tailOf S] := by
  have whole := flatten_fullGroups S
  rw [h, List.append_nil] at whole
  rcases List.eq_nil_or_concat' (fullGroups S) with empty | ⟨gs, g, split⟩
  · exact absurd (by rw [← whole, empty, List.flatten_nil]) hS
  · have eight : g.length = 8 := length_of_mem_fullGroups (S := S) (by simp [split])
    have parts : S = gs.flatten ++ g := by simpa [split] using whole.symm
    have tail : tailOf S = g := by
      rw [tailOf, if_pos h, parts, List.length_append, eight, Nat.add_sub_cancel, List.drop_left]
    exact ⟨gs, by rw [split, tail]⟩

/-- A stream is groups of eight bits and its tail, and its payload the bytes of those groups and of the tail (R128). -/
theorem payloadOf_split (hS : S ≠ []) :
    ∃ gs : List (List Bool), (∀ g ∈ gs, g.length = 8) ∧ gs.flatten ++ tailOf S = S ∧
      payloadOf S = gs.map groupByte ++ [groupByte (tailOf S)] ∧ 1 ≤ (tailOf S).length ∧ (tailOf S).length ≤ 8 := by
  have whole := flatten_fullGroups S
  by_cases h : lastPart S = []
  · obtain ⟨gs, split⟩ := fullGroups_eq_concat_tailOf hS h
    have eight : ∀ g ∈ gs ++ [tailOf S], g.length = 8 := fun _ hg => length_of_mem_fullGroups (split ▸ hg)
    have last := eight (tailOf S) (by simp)
    refine ⟨gs, fun g hg => eight g (List.mem_append_left _ hg), ?_, ?_, by omega, by omega⟩
    · simpa [split, h] using whole
    · rw [payloadOf_of_lastPart_eq h, split, List.map_append, List.map_singleton]
  · have pos := List.length_pos_iff.mpr h
    have short := length_lastPart S
    rw [tailOf_of_lastPart_ne h]
    exact ⟨fullGroups S, fun _ => length_of_mem_fullGroups, whole, payloadOf_of_lastPart_ne h, by omega, by omega⟩

theorem length_tailOf_pos (hS : S ≠ []) : 1 ≤ (tailOf S).length := by
  obtain ⟨-, -, -, -, pos, -⟩ := payloadOf_split hS
  exact pos

theorem length_tailOf_le (S : List Bool) : (tailOf S).length ≤ 8 := by
  by_cases hS : S = []
  · simp [hS, tailOf]
  · obtain ⟨-, -, -, -, -, le⟩ := payloadOf_split hS
    exact le

theorem length_payloadOf (S : List Bool) : (payloadOf S).length = (S.length + 7) / 8 := by
  have rest := length_lastPart S
  by_cases h : lastPart S = []
  · rw [h, List.length_nil] at rest
    rw [payloadOf_of_lastPart_eq h, List.length_map, length_fullGroups]
    omega
  · have pos := List.length_pos_iff.mpr h
    rw [payloadOf_of_lastPart_ne h, List.length_append, List.length_map, length_fullGroups, List.length_singleton]
    omega

/-- Eight bits to a group: the payload's length from the stream's, with the tail's length (R127). -/
theorem length_eq_of_payloadOf (hS : S ≠ []) : S.length = 8 * ((payloadOf S).length - 1) + (tailOf S).length := by
  obtain ⟨gs, eight, whole, payload, -, -⟩ := payloadOf_split hS
  have groups : gs.flatten.length = gs.length * 8 := by
    rw [List.length_flatten, List.map_congr_left eight, List.map_const', List.sum_replicate, smul_eq_mul]
  have total := congrArg List.length whole
  simp only [List.length_append, groups] at total
  simp only [payload, List.length_append, List.length_map, List.length_singleton]
  omega

/-- The unpacker's view of a payload: all bytes but the last, then the tail (R128, R146). -/
theorem unpack_payloadOf (hS : S ≠ []) : unpack (payloadOf S) (tailOf S) = S := by
  obtain ⟨gs, eight, whole, payload, -, -⟩ := payloadOf_split hS
  have groups : (gs.map groupByte).flatMap byteString = gs.flatten := by
    rw [List.flatMap_map, List.flatMap_def, List.map_congr_left fun g hg => byteString_groupByte (eight g hg),
      List.map_id']
  rw [unpack, payload, List.dropLast_concat, groups, whole]

theorem getLast?_payloadOf (hS : S ≠ []) : (payloadOf S).getLast? = some (groupByte (tailOf S)) := by
  obtain ⟨gs, -, -, payload, -, -⟩ := payloadOf_split hS
  rw [payload, List.getLast?_concat]

/-! ## One ENC after the other -/

theorem packBits_append (s : State) (c d : List Bool) : packBits s (c ++ d) = packBits (packBits s c) d :=
  List.foldl_append

/-- The table does not change while a stream is packed. -/
theorem stream_packBits (s : State) (c : List Bool) (syms : List Byte) :
    (packBits s c).stream syms = s.stream syms := by
  rw [packBits_touches_packer]
  rfl

@[simp] theorem entry_packBits (s : State) (c : List Bool) (x : Byte) : (packBits s c).entry x = s.entry x := by
  rw [packBits_touches_packer]
  rfl

@[simp] theorem packBits_err (s : State) (c : List Bool) : (packBits s c).err = s.err :=
  (congrArg State.err (packBits_touches_packer s c) :)

theorem stream_cons (s : State) (x : Byte) (syms : List Byte) :
    s.stream (x :: syms) = s.codewordOf x ++ s.stream syms := List.flatMap_cons

theorem setMode_of_mode {m : Mode} (h : s.mode = m) : s.setMode m = s := by
  subst h
  rfl

/-- Within a stream the ENCs pack the rest of it, by induction on the symbols. -/
theorem execAll_encs_encoding {syms : List Byte} (he : s.err = false) (hm : s.mode = .encoding)
    (valid : ∀ x ∈ syms, (s.entry x).valid = true) :
    execAll (syms.map .enc) s = .next (packBits s (s.stream syms)) := by
  induction syms generalizing s with
  | nil => rfl
  | cons x syms ih =>
    have first := exec_enc he (.inr hm) (valid x (List.mem_cons_self ..))
    rw [setMode_of_mode hm] at first
    have rest := ih (s := packBits s (s.codewordOf x)) (by rwa [packBits_err]) (by rwa [packBits_mode])
      fun y hy => by simpa using valid y (List.mem_cons_of_mem _ hy)
    rw [List.map_cons, execAll, first, stream_cons, packBits_append]
    rwa [stream_packBits] at rest

/-- The ENCs of an invocation pack the stream; only those of an empty stream leave MODE at IDLE. -/
theorem execAll_encs {syms : List Byte} (ready : Ready s) (valid : ∀ x ∈ syms, (s.entry x).valid = true) :
    ∃ m, (m = .idle ∨ m = .encoding) ∧
      execAll (syms.map .enc) s = .next (packBits (s.setMode m) (s.stream syms)) := by
  obtain ⟨idle, noError⟩ := ready
  cases syms with
  | nil => exact ⟨.idle, .inl rfl, by rw [setMode_of_mode idle]; rfl⟩
  | cons x syms =>
    have hx := valid x (List.mem_cons_self ..)
    have first : exec (.enc x) s = exec (.enc x) (s.setMode .encoding) :=
      (exec_enc noError (.inl idle) hx).trans (exec_enc (s := s.setMode .encoding) noError (.inr rfl) hx).symm
    have entered := execAll_encs_encoding (s := s.setMode .encoding) (syms := x :: syms) noError rfl valid
    refine ⟨.encoding, .inr rfl, ?_⟩
    rw [List.map_cons, execAll, first]
    exact entered

/-- `s`, IDLE, after the stream `S` has been packed in MODE `m`, as the source's split of `S` (R122). -/
def streamPacked (m : Mode) (S : List Bool) (s : State) : State :=
  { s with
    mode := m
    chanP := s.chanP ++ (fullGroups S).map groupByte
    pbuf := groupByte (lastPart S)
    pcnt := BitVec.ofNat 3 (S.length % 8)
    pany := !S.isEmpty
    plast := (((fullGroups S).map groupByte).getLast?).getD 0
    pbits := BitVec.ofNat 32 S.length
    pbytes := BitVec.ofNat 32 (S.length / 8) }

/-- A stream starts with an empty packer (R24, R33, R35). -/
theorem packBits_eq_streamPacked (sound : Sound s) (idle : s.mode = .idle) (m : Mode) (S : List Bool) :
    packBits (s.setMode m) S = streamPacked m S s := by
  have unpacked := sound.decodeOnly (.inl idle)
  obtain ⟨pcnt, plast, pbits, pbytes⟩ := sound.nothingPacked unpacked
  have empty : (s.setMode m).pendingString = [] := by simp [State.pendingString, pcnt]
  rw [packBits_eq_packed (s := s.setMode m) S sound.packer, packed, empty]
  simp [streamPacked, unpacked, plast, pbits, pbytes, State.setMode]

theorem pendingString_streamPacked (m : Mode) (S : List Bool) (s : State) :
    (streamPacked m S s).pendingString = lastPart S := by
  have short := length_lastPart S
  have pcnt : (BitVec.ofNat 3 (S.length % 8)).toNat = (lastPart S).length := by
    rw [short, BitVec.toNat_ofNat]
    omega
  rw [State.pendingString, streamPacked, pcnt, toNat_groupByte (by omega), str_val]

/-- Settles O28: the ENCs pack the stream, and packing is the source's split. -/
theorem packerEqualsWholeBufferSplit : Obligations.PackerEqualsWholeBufferSplit := by
  intro syms s sound ready valid S
  obtain ⟨m, -, done⟩ := execAll_encs ready valid
  obtain ⟨idle, noError⟩ := ready
  rw [packBits_eq_streamPacked sound idle] at done
  exact ⟨_, done, noError, rfl, pendingString_streamPacked m S s, rfl, rfl, rfl, rfl⟩

/-! ## ENCODE -/

/-- `s`, IDLE, after ENCODE of symbols whose codewords make up the stream `S` (R81, R127, R128). -/
def streamEncoded (S : List Bool) (s : State) : State :=
  { s with
    mode := .encDone
    chanP := s.chanP ++ payloadOf S
    tvalid := !S.isEmpty
    tlen := BitVec.ofNat 4 (tailOf S).length
    tbits := groupByte (tailOf S)
    pbuf := 0
    pcnt := 0
    pany := !S.isEmpty
    plast := (((fullGroups S).map groupByte).getLast?).getD 0
    pbits := BitVec.ofNat 32 S.length
    pbytes := BitVec.ofNat 32 (payloadOf S).length }

theorem pcnt_streamPacked_eq_zero {m : Mode} : (streamPacked m S s).pcnt = 0 ↔ lastPart S = [] := by
  rw [← pendingString_streamPacked m S s, ← List.length_eq_zero_iff, length_pendingString, BitVec.toNat_eq]
  rfl

/-- EFLUSH makes the last group the last payload byte and the tail, whichever branch it takes (R126, R128). -/
theorem ruleEflush_streamPacked (m : Mode) (S : List Bool) (s : State) :
    (ruleEflush (streamPacked m S s)).state = streamEncoded S s := by
  rcases ruleEflush_cases (streamPacked m S s) with ⟨pending, done⟩ | ⟨aligned, any, done⟩ | ⟨-, nothing, done⟩ <;>
    rw [done]
  · have left : lastPart S ≠ [] := mt pcnt_streamPacked_eq_zero.mpr pending
    have nonempty : S ≠ [] := fun h => left (by rw [h, lastPart_nil])
    have tlen : (BitVec.ofNat 3 (S.length % 8)).setWidth 4 = BitVec.ofNat 4 (lastPart S).length := by
      apply BitVec.eq_of_toNat_eq
      simp only [BitVec.toNat_setWidth, BitVec.toNat_ofNat, length_lastPart]
      omega
    simp [closeStream, streamPacked, streamEncoded, State.setTail, State.emitP, tlen, nonempty, BitVec.ofNat_add,
      tailOf_of_lastPart_ne left, payloadOf_of_lastPart_ne left]
  · have whole := pcnt_streamPacked_eq_zero.mp aligned
    have nonempty : S ≠ [] := by simpa [streamPacked] using any
    obtain ⟨gs, split⟩ := fullGroups_eq_concat_tailOf nonempty whole
    have eight : (tailOf S).length = 8 := length_of_mem_fullGroups (S := S) (by simp [split])
    have groups : gs.length + 1 = S.length / 8 := by
      rw [← length_fullGroups, split, List.length_append, List.length_singleton]
    simp [closeStream, streamPacked, streamEncoded, State.setTail, nonempty, split, eight, groups,
      payloadOf_of_lastPart_eq whole]
  · have empty : S = [] := by simpa [streamPacked] using nothing
    subst empty
    simp [closeStream, streamPacked, streamEncoded, State.clearTail, payloadOf, tailOf, groupByte]

theorem execAll_encodeSequence {syms : List Byte} (sound : Sound s) (ready : Ready s)
    (valid : ∀ x ∈ syms, (s.entry x).valid = true) :
    execAll (encodeSequence syms) s = .next (streamEncoded (s.stream syms) s) := by
  obtain ⟨m, phase, packs⟩ := execAll_encs ready valid
  obtain ⟨idle, noError⟩ := ready
  rw [packBits_eq_streamPacked sound idle] at packs
  have flush : exec .eflush (streamPacked m (s.stream syms) s) = .next (streamEncoded (s.stream syms) s) :=
    exec_in_encode rfl noError phase (ruleEflush_streamPacked m (s.stream syms) s)
  rw [encodeSequence, execAll_append packs, execAll, flush]
  rfl

theorem tailString_streamEncoded (S : List Bool) (s : State) : (streamEncoded S s).tailString = tailOf S := by
  have le := length_tailOf_le S
  have tlen : (BitVec.ofNat 4 (tailOf S).length).toNat = (tailOf S).length := Nat.mod_eq_of_lt (by omega)
  rw [State.tailString, streamEncoded, tlen, toNat_groupByte le, str_val]

/-- Settles O29: the payload and the tail that ENCODE leaves are the source's. -/
theorem packingBitCountLaw : Obligations.PackingBitCountLaw := by
  intro syms s sound ready valid S
  have tail := tailString_streamEncoded S s
  refine ⟨_, payloadOf S, execAll_encodeSequence sound ready valid, ready.2, rfl, rfl, length_payloadOf S, rfl,
    fun zero => ?_, fun pos => ?_⟩
  · simp [streamEncoded, S, List.length_eq_zero_iff.mp zero]
  · have nonempty : S ≠ [] := List.length_pos_iff.mp pos
    have tlen : (streamEncoded S s).tlen.toNat = (tailOf S).length := by rw [← tail, State.tailString, length_str]
    rw [tail, tlen]
    exact ⟨by simp [streamEncoded, S, nonempty], length_tailOf_pos nonempty, length_tailOf_le S,
      length_eq_of_payloadOf nonempty, unpack_payloadOf nonempty, getLast?_payloadOf nonempty⟩

end Sys2Proof.Machine
end

section
/-! How many bytes one command can put on each channel (spec/42_pack.md R123; spec/43_decode.md R143 to R145). -/

namespace Sys2Proof.Machine

variable {s t : State}

/-- The most bytes that the command puts on channel P (R123). -/
def maxEmittedP : Instr → Nat
  | .enc _ => 32
  | .eflush => 1
  | _ => 0

/-- The most bytes that the command puts on channel S: one for each bit fed (R141, R143 to R145). -/
def maxEmittedS : Instr → Nat
  | .dbyte _ => 8
  | .dlast _ => 8
  | .dend => 8
  | _ => 0

theorem maxEmittedP_le (i : Instr) : maxEmittedP i ≤ 32 := by
  cases i <;> simp [maxEmittedP]

theorem maxEmittedS_le (i : Instr) : maxEmittedS i ≤ 8 := by
  cases i <;> simp [maxEmittedS]

theorem maxEmittedP_eq_zero {i : Instr} (notEnc : ∀ sym, i ≠ .enc sym) (notEflush : i ≠ .eflush) :
    maxEmittedP i = 0 := by
  cases i with
  | enc sym => exact absurd rfl (notEnc sym)
  | eflush => exact absurd rfl notEflush
  | _ => rfl

theorem maxEmittedS_eq_zero {i : Instr} (notDbyte : ∀ b, i ≠ .dbyte b) (notDlast : ∀ b, i ≠ .dlast b)
    (notDend : i ≠ .dend) : maxEmittedS i = 0 := by
  cases i with
  | dbyte b => exact absurd rfl (notDbyte b)
  | dlast b => exact absurd rfl (notDlast b)
  | dend => exact absurd rfl notDend
  | _ => rfl

/-! ## The loops over bits -/

/-- Packing emits a byte for every full group (R120). -/
theorem length_chanP_packBits (c : List Bool) (h : s.pbuf.toNat < 2 ^ s.pcnt.toNat) :
    (packBits s c).chanP.length = s.chanP.length + (s.pcnt.toNat + c.length) / 8 := by
  rw [packBits_eq_packed c h]
  simp [packed]

/-- A bit emits at most one byte (R141). -/
theorem length_chanS_feedBits (cmd : Word) (i : Nat) (u : List Bool) (s : State) :
    (feedBits cmd i u s).state.chanS.length ≤ s.chanS.length + u.length := by
  induction u generalizing i s with
  | nil => exact Nat.le_refl _
  | cons b u ih =>
    rw [feedBits, List.length_cons]
    rcases decodeBit_cases cmd i b s with ⟨-, hd⟩ | ⟨-, -, hd⟩ | ⟨x, -, -, hd⟩ | ⟨-, -, hd⟩ <;> rw [hd]
    · exact Nat.le_add_right ..
    · exact (ih (i + 1) (appendBit s b)).trans (Nat.add_le_add_left (Nat.le_succ _) _)
    · have rest := ih (i + 1) (emitMatch (appendBit s b) x)
      have emitted : (emitMatch (appendBit s b) x).chanS.length = s.chanS.length + 1 := List.length_append
      rw [Flow.running_andThen]
      omega
    · exact Nat.le_add_right ..

/-- EndCheck emits nothing (R142). -/
theorem chanS_feedTail (cmd : Word) (s : State) :
    (feedTail cmd s).state.chanS = (feedBits cmd 0 s.tailString s).state.chanS := by
  rw [feedTail]
  cases feedBits cmd 0 s.tailString s with
  | ended t => rfl
  | running t =>
    rw [Flow.running_andThen]
    rcases endCheck_cases cmd s.tlen.toNat t with ⟨-, he⟩ | ⟨-, he⟩ <;> simp [he]

theorem length_chanS_feedTail (cmd : Word) (s : State) :
    (feedTail cmd s).state.chanS.length ≤ s.chanS.length + s.tlen.toNat := by
  have fed := length_chanS_feedBits cmd 0 s.tailString s
  rwa [← chanS_feedTail, State.tailString, length_str] at fed

/-! ## The bounds of each command -/

/-- From `s` to `t` the channels grow by no more than the command may put on them. -/
structure OutputWithin (i : Instr) (s t : State) : Prop where
  chanP : t.chanP.length ≤ s.chanP.length + maxEmittedP i
  chanS : t.chanS.length ≤ s.chanS.length + maxEmittedS i

theorem OutputWithin.of_eq {i : Instr} (hP : t.chanP = s.chanP) (hS : t.chanS = s.chanS) : OutputWithin i s t :=
  ⟨by rw [hP]; exact Nat.le_add_right .., by rw [hS]; exact Nat.le_add_right ..⟩

/-- The commands of spec/41_table.md emit nothing (R100). -/
theorem outputWithin_tableCommand {i : Instr} (h : TableCommand i) (s : State) : OutputWithin i s (rule i s).state :=
  .of_eq (congrArg State.chanP (tableFrame_rule h s) :) (congrArg State.chanS (tableFrame_rule h s) :)

theorem outputWithin_feedTail {i : Instr} (tail : maxEmittedS i = 8) (sound : Sound s) (cmd : Word) (m : Mode) :
    OutputWithin i s (feedTail cmd (s.setMode m)).state where
  chanP := by simp
  chanS := by
    rw [tail]
    exact (length_chanS_feedTail cmd (s.setMode m)).trans (Nat.add_le_add_left sound.tlen_le _)

theorem outputWithin_rule (sound : Sound s) (i : Instr) : OutputWithin i s (rule i s).state := by
  cases i with
  | nop => exact .of_eq rfl rfl
  | init keep => cases keep <;> exact .of_eq rfl rfl
  | cwlen sym len => exact outputWithin_tableCommand (.inl ⟨sym, len, rfl⟩) s
  | cwbits n data => exact outputWithin_tableCommand (.inr (.inl ⟨n, data, rfl⟩)) s
  | cwinv sym => exact outputWithin_tableCommand (.inr (.inr (.inl ⟨sym, rfl⟩))) s
  | tailset tlen tbits => exact outputWithin_tableCommand (.inr (.inr (.inr ⟨tlen, tbits, rfl⟩))) s
  | enc sym =>
    rcases ruleEnc_cases s sym with ⟨-, ht⟩ | ⟨-, ht⟩ <;> rw [rule, ht]
    · exact .of_eq rfl rfl
    · have pcnt := s.pcnt.isLt
      have len := (s.entry sym).len.isLt
      have grown := length_chanP_packBits (s := s.setMode .encoding) (s.codewordOf sym) sound.packer
      rw [length_codewordOf] at grown
      refine ⟨grown.le.trans (Nat.add_le_add_left ?_ _), by simp⟩
      show (s.pcnt.toNat + (s.entry sym).len.toNat) / 8 ≤ 32
      omega
  | eflush =>
    rcases ruleEflush_cases s with ⟨-, ht⟩ | ⟨-, -, ht⟩ | ⟨-, -, ht⟩ <;> rw [rule, ht]
    · exact ⟨List.length_append.le, Nat.le_refl _⟩
    · exact .of_eq rfl rfl
    · exact .of_eq rfl rfl
  | dbyte b =>
    have fed := length_chanS_feedBits (encode (.dbyte b)) 0 (byteString b) (s.setMode .decoding)
    rw [byteString, length_str] at fed
    exact ⟨by simp [rule, ruleDbyte], fed⟩
  | dlast b =>
    rcases ruleDlast_cases s b with ⟨-, ht⟩ | ⟨-, ht⟩ <;> rw [rule, ht]
    · exact .of_eq rfl rfl
    · exact outputWithin_feedTail rfl sound _ _
  | dend =>
    rcases ruleDend_cases s with ⟨-, ht⟩ | ⟨-, -, ht⟩ | ⟨-, -, ht⟩ <;> rw [rule, ht]
    · exact outputWithin_feedTail rfl sound _ _
    · exact .of_eq rfl rfl
    · exact .of_eq rfl rfl

theorem outputWithin_exec (sound : Sound s) {i : Instr} (ht : exec i s = .next t) : OutputWithin i s t := by
  rcases exec_state_cases ht with rfl | rfl | ⟨-, rfl⟩
  · exact .of_eq rfl rfl
  · exact .of_eq rfl rfl
  · exact outputWithin_rule sound i

/-- An ENC that ends without error was performed, and emits the full groups of the pending bits and the codeword
(R121). -/
theorem length_chanP_exec_enc (sound : Sound s) {sym : Byte} (ht : exec (.enc sym) s = .next t) (he : t.err = false) :
    t.chanP.length = s.chanP.length + (s.pcnt.toNat + (s.entry sym).len.toNat) / 8 := by
  rcases exec_cases ht with ⟨err, -, rfl⟩ | ⟨-, runs, -⟩ | ⟨-, -, rfl⟩ | ⟨-, -, rfl⟩
  · simp [err] at he
  · cases runs
  · cases he
  · rcases ruleEnc_cases s sym with ⟨-, done⟩ | ⟨-, done⟩ <;> rw [rule, done] at he ⊢
    · cases he
    · rw [← length_codewordOf]
      exact length_chanP_packBits (s := s.setMode .encoding) (s.codewordOf sym) sound.packer

/-- Settles O30: the channels are extended, and their lengths say by how much. -/
theorem outputBounds : Obligations.OutputBounds := by
  intro i s t sound ht
  obtain ⟨⟨p, hp⟩, ⟨q, hq⟩⟩ := (commandFrame_exec ht).channels
  obtain ⟨boundP, boundS⟩ := outputWithin_exec sound ht
  rw [← hp, List.length_append, Nat.add_le_add_iff_left] at boundP
  rw [← hq, List.length_append, Nat.add_le_add_iff_left] at boundS
  refine ⟨⟨p, hp.symm, boundP.trans (maxEmittedP_le i), ?_, ?_, ?_⟩, ⟨q, hq.symm, boundS.trans (maxEmittedS_le i), ?_⟩⟩
  · rintro sym rfl he
    have grown := length_chanP_exec_enc sound ht he
    rwa [← hp, List.length_append, Nat.add_left_cancel_iff] at grown
  · rintro rfl
    exact boundP
  · intro notEnc notEflush
    rw [maxEmittedP_eq_zero notEnc notEflush] at boundP
    exact List.eq_nil_of_length_eq_zero (Nat.le_zero.mp boundP)
  · intro notDbyte notDlast notDend
    rw [maxEmittedS_eq_zero notDbyte notDlast notDend] at boundS
    exact List.eq_nil_of_length_eq_zero (Nat.le_zero.mp boundS)

end Sys2Proof.Machine
end

section
/-! DecodeBit and DBYTE (spec/43_decode.md R140, R141, R143, R147). -/

namespace Sys2Proof.Machine

variable {s : State}

/-! ## Commands that run in IDLE and DECODING only (R91) -/

theorem exec_in_decode {i : Instr} {t : State} (row : permitted i s.mode = (s.mode == .idle || s.mode == .decoding))
    (he : s.err = false) (hm : s.mode = .idle ∨ s.mode = .decoding) (done : (rule i s).state = t) :
    exec i s = .next t := by
  rw [exec_allowed he (row.trans (by simpa using hm)), done]

theorem exec_outside_decode {i : Instr} (row : permitted i s.mode = (s.mode == .idle || s.mode == .decoding))
    (he : s.err = false) (notIdle : s.mode ≠ .idle) (notDecoding : s.mode ≠ .decoding) :
    exec i s = .next (s.recordError .seq 0 (encode i)) :=
  exec_refused he (row.trans (by simp [notIdle, notDecoding]))

/-! ## DecodeBit -/

theorem appendBit_eq (s : State) (b : Bool) :
    appendBit s b = { s with
      acc := BitVec.ofNat 255 (2 * s.acc.toNat + b.toNat), acclen := s.acclen + 1, dbits := s.dbits + 1 } := by
  rw [appendBit, shiftIn_eq_ofNat s.acc b (by omega)]

/-- Match after a bit finds the codewords equal to the accumulator string with that bit (R140). -/
theorem mem_matchSet_appendBit (b : Bool) (hs : DecoderSound s) (room : s.acclen ≠ 255) (x : Byte) :
    x ∈ matchSet (appendBit s b) ↔ (s.entry x).valid = true ∧ s.codewordOf x = s.accString ++ [b] := by
  rw [mem_matchSet_iff (hs.appendBit b room), accString_appendBit b hs room]
  rfl

/-- Two different symbols found are a duplicate codeword (R141). -/
theorem afterMatch_of_two (cmd : Word) (i : Nat) (s : State) {found : List Byte} {x y : Byte} (ne : x ≠ y)
    (hx : x ∈ found) (hy : y ∈ found) : afterMatch cmd i s found = raiseError .dup i cmd s := by
  match found with
  | [] => cases hx
  | [z] => exact absurd ((List.mem_singleton.mp hx).trans (List.mem_singleton.mp hy).symm) ne
  | _ :: _ :: _ => rfl

/-- Settles O31: DecodeBit raises, or appends the bit and goes by what Match finds: no symbol, one, or two. -/
theorem decodeBitMatchesGreedily : Obligations.DecodeBitMatchesGreedily := by
  intro cmd i b s entries accumulator a s1 holds
  have hs : DecoderSound s := ⟨entries, accumulator⟩
  have appended : appendBit s b = s1 := appendBit_eq s b
  refine ⟨fun full => by rw [decodeBit_eq, if_pos full]; rfl, fun room => ?_⟩
  have found : ∀ x, x ∈ matchSet s1 ↔ holds x := by
    rw [← appended]
    exact mem_matchSet_appendBit b hs room
  have goes : decodeBit cmd i b s = afterMatch cmd i s1 (matchSet s1) := by
    rw [decodeBit_eq, if_neg room, appended]
  rw [goes]
  refine ⟨?_, fun none => ?_, fun x hx unique => ?_, fun x y ne hx hy => ?_⟩
  · rw [← appended]
    exact accString_appendBit b hs room
  · have empty : matchSet s1 = [] := List.eq_nil_iff_forall_not_mem.mpr fun x hx => none x ((found x).mp hx)
    rw [empty]
    rfl
  · have one : matchSet s1 = [x] :=
      (matchSet_eq_singleton s1 x).mpr ⟨(found x).mpr hx, fun y hy => unique y ((found y).mp hy)⟩
    rw [one]
    rfl
  · rw [afterMatch_of_two cmd i s1 ne ((found x).mpr hx) ((found y).mpr hy)]
    rfl

/-! ## DBYTE -/

/-- DBYTE feeds the bits of its byte (R143). -/
theorem exec_dbyte (b : Byte) (he : s.err = false) (hm : s.mode = .idle ∨ s.mode = .decoding) :
    exec (.dbyte b) s = .next (feedBits (encode (.dbyte b)) 0 (byteString b) (s.setMode .decoding)).state :=
  exec_in_decode rfl he hm rfl

/-- The last bit of a string is fed after the others, at the position that counts them. -/
theorem feedBits_concat (cmd : Word) (i : Nat) (u : List Bool) (b : Bool) (s : State) :
    feedBits cmd i (u ++ [b]) s = (feedBits cmd i u s).andThen (decodeBit cmd (i + u.length) b) := by
  have single : feedBits cmd (i + u.length) [b] = decodeBit cmd (i + u.length) b := by
    funext t
    rw [feedBits]
    cases decodeBit cmd (i + u.length) b t <;> rfl
  rw [feedBits_append, single]

/-- A byte as a string, bit 7 first (R55). -/
theorem byteString_eq (b : Byte) :
    byteString b = [] ++ [b.getLsbD 7] ++ [b.getLsbD 6] ++ [b.getLsbD 5] ++ [b.getLsbD 4] ++ [b.getLsbD 3] ++
      [b.getLsbD 2] ++ [b.getLsbD 1] ++ [b.getLsbD 0] := rfl

/-- Settles O32: the bits of the byte are fed one after the other. -/
theorem dbyteFeedsEightBits : Obligations.DbyteFeedsEightBits := by
  intro b s he cmd
  have word : encode (.dbyte b) = cmd := by rw [encode, place_zero]
  rw [← word]
  refine ⟨rfl, fun hm => ?_, exec_outside_decode rfl he⟩
  rw [exec_dbyte b he hm, byteString_eq]
  simp only [feedBits_concat]
  rfl

/-- Settles O33: with room for eight more bits the scan goes through. -/
theorem dbyteDecodesAsTheScan : Obligations.DbyteDecodesAsTheScan := by
  intro b s sound distinct he hm room r
  have fed : feedBits (encode (.dbyte b)) 0 (byteString b) (s.setMode .decoding) =
      .running (scanned (s.setMode .decoding) (byteString b)) :=
    feedBits_running _ 0 _ (sound.decoderSound.setMode .decoding) distinct (by simpa [byteString] using room)
  rw [exec_dbyte b he hm, fed]
  rfl

end Sys2Proof.Machine
end

section
/-! DLAST and DEND (spec/43_decode.md R142, R144, R145, R147). -/

namespace Sys2Proof.Machine

variable {s u : State}

/-! ## The tail -/

/-- The tail went through: EndCheck passes on an empty accumulator and raises EDANGLE(TLEN) on any other (R142). -/
theorem feedTail_of_running {cmd : Word} (h : feedBits cmd 0 s.tailString s = .running u) :
    (u.acclen = 0 → (feedTail cmd s).state = u) ∧
    (u.acclen ≠ 0 → (feedTail cmd s).state = u.recordError .dangle s.tlen cmd) := by
  rw [feedTail, h, Flow.running_andThen]
  rcases endCheck_cases cmd s.tlen.toNat u with ⟨empty, he⟩ | ⟨left, he⟩ <;> rw [he]
  · exact ⟨fun _ => rfl, fun left => absurd empty left⟩
  · rw [BitVec.ofNat_toNat, BitVec.setWidth_eq]
    exact ⟨fun empty => absurd empty left, fun _ => rfl⟩

/-- A raise within the tail ends the command (R172). -/
theorem feedTail_of_ended {cmd : Word} (h : feedBits cmd 0 s.tailString s = .ended u) :
    (feedTail cmd s).state = u := by
  rw [feedTail, h]
  rfl

/-- The command word reaches nothing but ECMD (R172). -/
theorem feedTail_cmd (cmd cmd' : Word) (s : State) :
    (feedTail cmd' s).state = { (feedTail cmd s).state with ecmd := (feedTail cmd' s).state.ecmd } := by
  rcases feedBits_cmd cmd cmd' 0 s.tailString s with ⟨u, fed, fed'⟩ | ⟨u, fed, fed'⟩
  · by_cases empty : u.acclen = 0
    · rw [(feedTail_of_running fed).1 empty, (feedTail_of_running fed').1 empty]
    · rw [(feedTail_of_running fed).2 empty, (feedTail_of_running fed').2 empty]
      rfl
  · rw [feedTail_of_ended fed, feedTail_of_ended fed']

/-- What a command that only feeds the tail leads to, by how the feeding ends (R144, R145). -/
theorem exec_of_feedTail {i : Instr} {cmd : Word} {m : Mode}
    (h : exec i s = .next (feedTail cmd (s.setMode m)).state) :
    (∀ u, feedBits cmd 0 s.tailString (s.setMode m) = .running u →
      (u.acclen = 0 → exec i s = .next u) ∧
      (u.acclen ≠ 0 → exec i s = .next (u.recordError .dangle s.tlen cmd))) ∧
    (∀ u, feedBits cmd 0 s.tailString (s.setMode m) = .ended u → exec i s = .next u) := by
  rw [h]
  refine ⟨fun u fed => ?_, fun u fed => congrArg _ (feedTail_of_ended (s := s.setMode m) fed)⟩
  obtain ⟨done, dangles⟩ := feedTail_of_running (s := s.setMode m) fed
  exact ⟨fun empty => congrArg _ (done empty), fun left => congrArg _ (dangles left)⟩

/-- The scan loses no bit, so it leaves no more than it was given. -/
theorem length_scan_left_le (s : State) (u : List Bool) : (s.scan u).2.length ≤ s.acclen.toNat + u.length := by
  have bits := congrArg List.length (greedyScan_bits (s := s) s.accString u)
  rw [List.length_append, List.length_append, length_accString] at bits
  exact bits ▸ Nat.le_add_left ..

theorem acclen_scanned_eq_zero {u : List Bool} (short : (s.scan u).2.length ≤ 255) :
    (scanned s u).acclen = 0 ↔ (s.scan u).2 = [] := by
  have len : (scanned s u).acclen.toNat = (s.scan u).2.length := Nat.mod_eq_of_lt (by omega)
  rw [BitVec.toNat_eq, len, ← List.length_eq_zero_iff]
  rfl

/-- With distinct codewords and room in the accumulator, a command that only feeds the tail completes where the scan
leaves nothing, and raises EDANGLE where it leaves a string (R142, R147). -/
theorem exec_scans_tail {i : Instr} {cmd : Word} {m : Mode}
    (h : exec i s = .next (feedTail cmd (s.setMode m)).state) (sound : Sound s) (distinct : DistinctCodewords s)
    (room : s.acclen.toNat + s.tlen.toNat ≤ 255) :
    let r := s.scan s.tailString
    let t := { s with
      mode := m
      chanS := s.chanS ++ r.1
      acc := BitVec.ofNat 255 (val r.2)
      acclen := BitVec.ofNat 8 r.2.length
      dbits := s.dbits + BitVec.ofNat 32 s.tlen.toNat
      dsyms := s.dsyms + BitVec.ofNat 32 r.1.length }
    (r.2 = [] → exec i s = .next t) ∧ (r.2 ≠ [] → exec i s = .next (t.recordError .dangle s.tlen cmd)) := by
  intro r t
  have bits : s.tailString.length = s.tlen.toNat := length_str ..
  have fits : s.acclen.toNat + s.tailString.length ≤ 255 := by rwa [bits]
  have fed : feedBits cmd 0 s.tailString (s.setMode m) = .running t := by
    rw [feedBits_running cmd 0 s.tailString (sound.decoderSound.setMode m) distinct fits, scanned, bits]
    rfl
  have left : t.acclen = 0 ↔ r.2 = [] := acclen_scanned_eq_zero ((length_scan_left_le s s.tailString).trans fits)
  obtain ⟨goes, -⟩ := exec_of_feedTail h
  obtain ⟨completes, dangles⟩ := goes t fed
  exact ⟨fun nothing => completes (left.mpr nothing), fun something => dangles (mt left.mp something)⟩

/-! ## DLAST -/

theorem exec_dlast (b : Byte) (he : s.err = false) (hm : s.mode = .idle ∨ s.mode = .decoding)
    (present : s.tvalid = true) :
    exec (.dlast b) s = .next (feedTail (encode (.dlast b)) (s.setMode .decDone)).state := by
  rcases ruleDlast_cases s b with ⟨absent, -⟩ | ⟨-, done⟩
  · simp [present] at absent
  · exact exec_in_decode rfl he hm done

theorem exec_dlast_noTail (b : Byte) (he : s.err = false) (hm : s.mode = .idle ∨ s.mode = .decoding)
    (absent : s.tvalid = false) : exec (.dlast b) s = .next (s.recordError .noTail 0 (encode (.dlast b))) := by
  rcases ruleDlast_cases s b with ⟨-, done⟩ | ⟨present, -⟩
  · exact exec_in_decode rfl he hm done
  · simp [absent] at present

/-- The byte of DLAST reaches nothing but ECMD (R144). -/
theorem exec_dlast_byte {b b' : Byte} (he : s.err = false) {t t' : State} (ht : exec (.dlast b) s = .next t)
    (ht' : exec (.dlast b') s = .next t') : t' = { t with ecmd := t'.ecmd } := by
  by_cases hm : s.mode = .idle ∨ s.mode = .decoding
  · cases tail : s.tvalid with
    | false =>
      cases (exec_dlast_noTail b he hm tail).symm.trans ht
      cases (exec_dlast_noTail b' he hm tail).symm.trans ht'
      rfl
    | true =>
      cases (exec_dlast b he hm tail).symm.trans ht
      cases (exec_dlast b' he hm tail).symm.trans ht'
      exact feedTail_cmd ..
  · obtain ⟨notIdle, notDecoding⟩ := not_or.mp hm
    cases (exec_outside_decode rfl he notIdle notDecoding).symm.trans ht
    cases (exec_outside_decode rfl he notIdle notDecoding).symm.trans ht'
    rfl

/-- Settles O34: DLAST raises ENOTAIL or feeds the tail, and its byte is only in its word. -/
theorem dlastFeedsTheTail : Obligations.DlastFeedsTheTail := by
  intro b s he cmd
  have word : encode (.dlast b) = cmd := by rw [encode, place_zero]
  rw [← word]
  exact ⟨rfl,
    fun hm => ⟨exec_dlast_noTail b he hm, fun present => exec_of_feedTail (exec_dlast b he hm present)⟩,
    exec_outside_decode rfl he, fun _ _ _ ht ht' => exec_dlast_byte he ht ht'⟩

/-- Settles O35: DLAST feeds the tail, and there is room for it. -/
theorem dlastDecodesTheTail : Obligations.DlastDecodesTheTail := by
  intro b s sound distinct he hm present room
  exact exec_scans_tail (exec_dlast b he hm present) sound distinct room

/-! ## DEND -/

theorem exec_dend (he : s.err = false) (idle : s.mode = .idle) (present : s.tvalid = true) :
    exec .dend s = .next (feedTail (encode .dend) (s.setMode .decDone)).state := by
  rcases ruleDend_cases s with ⟨-, done⟩ | ⟨absent, -, -⟩ | ⟨absent, -, -⟩
  · exact exec_in_idle rfl he idle done
  · simp [present] at absent
  · simp [present] at absent

/-- In IDLE the accumulator is empty (R150), so DEND without a tail passes EndCheck (R145). -/
theorem exec_dend_noTail (sound : Sound s) (he : s.err = false) (idle : s.mode = .idle) (absent : s.tvalid = false) :
    exec .dend s = .next (s.setMode .decDone) := by
  rcases ruleDend_cases s with ⟨present, -⟩ | ⟨-, -, done⟩ | ⟨-, left, -⟩
  · simp [absent] at present
  · exact exec_in_idle rfl he idle done
  · exact absurd (sound.accIdle idle).2 left

/-- Settles O36: DEND without a tail only changes MODE, and with one feeds it as DLAST does. -/
theorem dendFeedsTheTailAlone : Obligations.DendFeedsTheTailAlone := by
  intro s sound he
  exact ⟨rfl,
    fun idle => ⟨exec_dend_noTail sound he idle, fun present => exec_of_feedTail (exec_dend he idle present)⟩,
    exec_outside_idle rfl he⟩

/-- In IDLE the accumulator string is empty (R150). -/
theorem Sound.accString_eq_nil (sound : Sound s) (idle : s.mode = .idle) : s.accString = [] := by
  rw [State.accString, (sound.accIdle idle).2]
  rfl

/-- Settles O37: DEND feeds the tail from an empty accumulator, which has room for it. -/
theorem dendDecodesTheTail : Obligations.DendDecodesTheTail := by
  intro s sound distinct he idle present
  have room : s.acclen.toNat + s.tlen.toNat ≤ 255 := by
    have tlen := s.tlen.isLt
    have acclen : s.acclen.toNat = 0 := congrArg BitVec.toNat (sound.accIdle idle).2
    omega
  have done := exec_scans_tail (exec_dend he idle present) sound distinct room
  rwa [State.scan, sound.accString_eq_nil idle] at done

end Sys2Proof.Machine
end

section
/-! The DECODE sequence as one run of the decoder over the unpacked string, and the laws of the decoder
(spec/43_decode.md R146 to R149). -/

namespace Sys2Proof.Machine

variable {s t : State}

/-! ## What MODE, the position and the command word reach -/

/-- The second flow is the first in MODE `m`, but for the position and the word that a raise has recorded. -/
inductive SameFeed (m : Mode) : Flow → Flow → Prop
  | running (t : State) : SameFeed m (.running t) (.running (t.setMode m))
  | ended (t : State) (p : BitVec 4) (w : Word) :
      SameFeed m (.ended t) (.ended { t with mode := m, epos := p, ecmd := w })

theorem SameFeed.andThen {m : Mode} {f f' : Flow} {k k' : State → Flow} (h : SameFeed m f f')
    (hk : ∀ t, SameFeed m (k t) (k' (t.setMode m))) : SameFeed m (f.andThen k) (f'.andThen k') := by
  cases h with
  | running t => exact hk t
  | ended t p w => exact .ended t p w

theorem sameFeed_afterMatch (m : Mode) (cmd cmd' : Word) (i i' : Nat) (s : State) (found : List Byte) :
    SameFeed m (afterMatch cmd i s found) (afterMatch cmd' i' (s.setMode m) found) := by
  match found with
  | [] => exact .running _
  | [_] => exact .running _
  | _ :: _ :: _ => exact .ended ..

theorem sameFeed_decodeBit (m : Mode) (cmd cmd' : Word) (i i' : Nat) (b : Bool) (s : State) :
    SameFeed m (decodeBit cmd i b s) (decodeBit cmd' i' b (s.setMode m)) := by
  rw [decodeBit_eq, decodeBit_eq, State.setMode_acclen]
  by_cases full : s.acclen = 255
  · rw [if_pos full, if_pos full]
    exact .ended ..
  · rw [if_neg full, if_neg full]
    exact sameFeed_afterMatch ..

/-- A bit string does the same to the decoder in every MODE, from every position and under every command word, but for
what a raise records (R172). -/
theorem sameFeed_feedBits (m : Mode) (cmd cmd' : Word) (i i' : Nat) (u : List Bool) (s : State) :
    SameFeed m (feedBits cmd i u s) (feedBits cmd' i' u (s.setMode m)) := by
  induction u generalizing i i' s with
  | nil => exact .running s
  | cons b u ih => exact (sameFeed_decodeBit m cmd cmd' i i' b s).andThen (ih (i + 1) (i' + 1))

/-! ## The DECODE sequence -/

/-- How a decode ends after its bits were fed as the flow says: complete, with EDANGLE for a left-over, or with the
raise of a bit. -/
inductive DecodeEnds : Flow → State → Prop
  | complete (u : State) (empty : u.acclen = 0) : DecodeEnds (.running u) (u.setMode .decDone)
  | dangle (u : State) (left : u.acclen ≠ 0) (m : Mode) (p : BitVec 4) (w : Word) :
      DecodeEnds (.running u) ((u.setMode m).recordError .dangle p w)
  | raised (u : State) (m : Mode) (p : BitVec 4) (w : Word) :
      DecodeEnds (.ended u) { u with mode := m, epos := p, ecmd := w }

theorem SameFeed.decodeEnds {f f' : Flow} (h : SameFeed .decDone f f') (cmd : Word) (n : Nat) :
    DecodeEnds f (f'.andThen (endCheck cmd n)).state := by
  cases h with
  | running u =>
    rw [Flow.running_andThen]
    rcases endCheck_cases cmd n (u.setMode .decDone) with ⟨empty, he⟩ | ⟨left, he⟩ <;> rw [he]
    · exact .complete u empty
    · exact .dangle u left ..
  | ended u p w => exact .raised u ..

/-- The tail, fed as the last bits of a decode. -/
theorem decodeEnds_feedTail (cmd cmd' : Word) (i : Nat) (s : State) :
    DecodeEnds (feedBits cmd i s.tailString s) (feedTail cmd' (s.setMode .decDone)).state :=
  (sameFeed_feedBits .decDone cmd cmd' i 0 s.tailString s).decodeEnds cmd' _

/-- While ERR = 1 a whole sequence is dropped, unless NOP or INIT is in it. -/
theorem execAll_dropped {is : List Instr} (he : s.err = true) (his : ∀ i ∈ is, runsInError i = false) :
    execAll is s = .next s := by
  induction is with
  | nil => rfl
  | cons i is ih =>
    rw [execAll, exec_dropped he (his i (List.mem_cons_self ..))]
    exact ih fun j hj => his j (List.mem_cons_of_mem _ hj)

theorem runsInError_decodeSequence (payload : List Byte) : ∀ i ∈ decodeSequence payload, runsInError i = false := by
  intro i hi
  fun_induction decodeSequence payload with
  | case1 => rw [List.mem_singleton.mp hi]; rfl
  | case2 p => rw [List.mem_singleton.mp hi]; rfl
  | case3 p q rest ih =>
    rcases List.mem_cons.mp hi with rfl | later
    · rfl
    · exact ih later

theorem execAll_singleton {i : Instr} (h : exec i s = .next t) : execAll [i] s = .next t := by
  rw [execAll, h]
  rfl

theorem unpack_cons_cons (p q : Byte) (rest : List Byte) (tail : List Bool) :
    unpack (p :: q :: rest) tail = byteString p ++ unpack (q :: rest) tail := by
  simp [unpack]

/-- Feeding bits leaves the tail and, as long as nothing is raised, ERR. -/
theorem feedBits_keeps_tail {cmd : Word} {i : Nat} {v : List Bool} {u : State}
    (h : feedBits cmd i v s = .running u) :
    u.err = s.err ∧ u.tvalid = s.tvalid ∧ u.tailString = s.tailString := by
  have frame := feedBits_frame cmd i v s
  rw [h] at frame
  refine ⟨?_, (congrArg State.tvalid frame :), (congrArg State.tailString frame :)⟩
  rcases feedBits_errors cmd i v s with ⟨t, ht, same, -⟩ | ⟨t, ht, -⟩
  · cases h.symm.trans ht
    exact same
  · cases h.symm.trans ht

theorem err_of_feedBits_ended {cmd : Word} {i : Nat} {v : List Bool} {u : State}
    (h : feedBits cmd i v s = .ended u) : u.err = true := by
  rcases feedBits_errors cmd i v s with ⟨t, ht, -⟩ | ⟨t, ht, raised, -⟩
  · cases h.symm.trans ht
  · cases h.symm.trans ht
    exact raised

/-- The commands of a non-empty payload, from within a stream or at its start, by induction on the payload: each byte
before the last feeds its bits, and after a raise the rest is dropped (R146, R173). -/
theorem execAll_decodeSequence_cons (cmd : Word) {p : Byte} {rest : List Byte} {m : Mode} {i : Nat}
    (he : s.err = false) (present : s.tvalid = true) (hm : m = .idle ∨ m = .decoding) :
    ∃ t, execAll (decodeSequence (p :: rest)) (s.setMode m) = .next t ∧
      DecodeEnds (feedBits cmd i (unpack (p :: rest) s.tailString) s) t := by
  induction rest generalizing p s m i with
  | nil => exact ⟨_, execAll_singleton (exec_dlast p he hm present), decodeEnds_feedTail cmd _ i s⟩
  | cons q rest ih =>
    have first : exec (.dbyte p) (s.setMode m) =
        .next (feedBits (encode (.dbyte p)) 0 (byteString p) (s.setMode .decoding)).state := exec_dbyte p he hm
    have same : SameFeed .decoding (feedBits cmd i (byteString p) s)
        (feedBits (encode (.dbyte p)) 0 (byteString p) (s.setMode .decoding)) := sameFeed_feedBits ..
    rw [decodeSequence, execAll, first, unpack_cons_cons, feedBits_append]
    generalize fed : feedBits cmd i (byteString p) s = f at same ⊢
    generalize feedBits (encode (.dbyte p)) 0 (byteString p) (s.setMode .decoding) = f' at same ⊢
    cases same with
    | running u =>
      obtain ⟨err, tvalid, tail⟩ := feedBits_keeps_tail fed
      rw [← tail]
      exact ih (err.trans he) (tvalid.trans present) (.inr rfl)
    | ended u p w =>
      have raised : u.err = true := err_of_feedBits_ended fed
      exact ⟨_, execAll_dropped raised (runsInError_decodeSequence _), .raised ..⟩

theorem execAll_decodeSequence (cmd : Word) {payload : List Byte} (sound : Sound s) (ready : Ready s)
    (tail : payload ≠ [] → s.tvalid = true) :
    ∃ t, execAll (decodeSequence payload) s = .next t ∧
      DecodeEnds (feedBits cmd 0 (unpack payload s.tailString) s) t := by
  obtain ⟨idle, he⟩ := ready
  cases payload with
  | nil =>
    cases present : s.tvalid with
    | true => exact ⟨_, execAll_singleton (exec_dend he idle present), decodeEnds_feedTail cmd _ 0 s⟩
    | false =>
      have none : s.tailString = [] := by
        rw [State.tailString, (sound.tailAbsent present).1]
        rfl
      rw [none]
      exact ⟨_, execAll_singleton (exec_dend_noTail sound he idle present), .complete s (sound.accIdle idle).2⟩
  | cons p rest =>
    have done := execAll_decodeSequence_cons (p := p) (rest := rest) (i := 0) cmd he (tail (by simp)) (.inl rfl)
    rwa [setMode_of_mode idle] at done

/-- Settles O38: the sequence ends as feeding the unpacked string does, but for MODE, EPOS and ECMD and for the test for
a left-over. -/
theorem decodeSequenceFeedsTheUnpackedString : Obligations.DecodeSequenceFeedsTheUnpackedString := by
  intro payload cmd s sound ready tail
  obtain ⟨t, ht, ends⟩ := execAll_decodeSequence cmd sound ready tail
  refine ⟨t, ht, ?_⟩
  have frame := feedBits_frame cmd 0 (unpack payload s.tailString) s
  rcases feedBits_errors cmd 0 (unpack payload s.tailString) s with
    ⟨u, fed, err, ecode, -⟩ | ⟨u, fed, err, -⟩ <;> rw [fed] at ends frame ⊢
  · rw [Flow.state_running] at frame ⊢
    have noRaise : u.err = false := err.trans ready.2
    cases ends with
    | complete _ empty =>
      exact ⟨rfl, rfl, rfl, rfl, rfl, iff_of_true noRaise ⟨noRaise, empty⟩,
        by rw [if_neg (by simp [noRaise]), if_pos empty]; exact ecode.trans (sound.noError ready.2).1,
        congrArg (State.setMode .decDone) frame⟩
    | dangle _ left m p w =>
      exact ⟨rfl, rfl, rfl, rfl, rfl, iff_of_false (by simp) fun both => left both.2,
        by rw [if_neg (by simp [noRaise]), if_neg left]; rfl,
        congrArg (fun u => (State.setMode m u).recordError .dangle p w) frame⟩
  · rw [Flow.state_ended] at frame ⊢
    cases ends with
    | raised _ m p w =>
      exact ⟨rfl, rfl, rfl, rfl, rfl, by simp [err], by rw [if_pos err],
        congrArg (fun u : State => { u with mode := m, epos := p, ecmd := w }) frame⟩

/-! ## The laws -/

/-- With distinct codewords a decode ends as the source's scan of the unpacked string says (R147). -/
theorem execAll_decodeSequence_scan {payload : List Byte} (sound : Sound s) (ready : Ready s)
    (distinct : DistinctCodewords s) (tail : payload ≠ [] → s.tvalid = true) :
    let r := greedyScan s.reverseMap [] (unpack payload s.tailString)
    ∃ t, execAll (decodeSequence payload) s = .next t ∧ t.chanS = s.chanS ++ r.1 ∧ (t.err = false ↔ r.2 = []) ∧
      t.ecode = (if r.2 = [] then .none else if r.2.length ≤ 255 then .dangle else .accOvf) ∧
      (r.2 = [] → t.mode = .decDone) := by
  intro r
  obtain ⟨t, ht, ends⟩ := execAll_decodeSequence 0 sound ready tail
  refine ⟨t, ht, ?_⟩
  have scan : s.scan (unpack payload s.tailString) = r := by rw [State.scan, sound.accString_eq_nil ready.1]
  rcases feedBits_scan 0 0 (unpack payload s.tailString) sound.decoderSound distinct with
    ⟨fed, short⟩ | ⟨u, fed, err, ecode, -, chanS, long⟩ <;> rw [fed] at ends
  · have zero := acclen_scanned_eq_zero short
    rw [scan] at zero short
    have chanS : (scanned s (unpack payload s.tailString)).chanS = s.chanS ++ r.1 := by rw [scanned, scan]
    cases ends with
    | complete _ empty =>
      have nothing := zero.mp empty
      exact ⟨chanS, iff_of_true ready.2 nothing, by rw [if_pos nothing]; exact (sound.noError ready.2).1,
        fun _ => rfl⟩
    | dangle _ left m p w =>
      have something := mt zero.mpr left
      exact ⟨chanS, iff_of_false (by simp) something, by rw [if_neg something, if_pos short]; rfl,
        fun nothing => absurd nothing something⟩
  · rw [scan] at chanS long
    have something : r.2 ≠ [] := List.ne_nil_of_length_pos (by omega)
    cases ends with
    | raised _ m p w =>
      exact ⟨chanS, iff_of_false (by simp [err]) something,
        by rw [if_neg something, if_neg (Nat.not_le.mpr long)]; exact ecode, fun nothing => absurd nothing something⟩

/-- Settles O39: the scan's end decides which error is raised. -/
theorem decoderEqualsTheGreedyScan : Obligations.DecoderEqualsTheGreedyScan := by
  intro payload s sound ready distinct tail r
  obtain ⟨t, ht, chanS, err, ecode, -⟩ := execAll_decodeSequence_scan sound ready distinct tail
  exact ⟨t, ht, chanS, err, ecode⟩

/-- Settles O41: the walk of the tree is the scan of its table. -/
theorem treeWalkEmitsTheSameBytes : Obligations.TreeWalkEmitsTheSameBytes := by
  intro root payload s sound ready distinct leaves notLeaf tail r
  obtain ⟨t, ht, chanS, err, -⟩ := execAll_decodeSequence_scan sound ready distinct tail
  cases root with
  | leaf x => exact absurd rfl (notLeaf x)
  | node z o =>
    have walk : greedyScan s.reverseMap [] (unpack payload s.tailString) = r :=
      greedyScan_eq_walk distinct leaves rfl _ rfl fun _ _ => Iff.rfl
    rw [walk] at chanS err
    exact ⟨t, ht, chanS, err⟩

/-! ## The round trip -/

/-- The unpacked string of an ENCODE's payload and tail is the stream, the empty one included. -/
theorem unpack_streamEncoded (S : List Bool) (s : State) :
    unpack (payloadOf S) (streamEncoded S s).tailString = S := by
  rw [tailString_streamEncoded]
  by_cases nonempty : S = []
  · subst nonempty
    rfl
  · exact unpack_payloadOf nonempty

theorem Sound.execAll (h : Sound s) {is : List Instr} (ht : execAll is s = .next t) : Sound t := by
  induction is generalizing s with
  | nil => cases ht; exact h
  | cons i is ih =>
    rw [Machine.execAll] at ht
    split at ht
    next u first => exact ih (h.exec first) ht
    next => cases ht
    next => cases ht

/-- Settles O40: the decoder scans the stream that was packed, and where no codeword begins another the scan of a stream
gives back its symbols. -/
theorem roundTripLaw : Obligations.RoundTripLaw := by
  intro syms s sound ready prefixFree valid
  have packed := execAll_encodeSequence sound ready valid
  have soundEncoded := sound.execAll packed
  have tail : payloadOf (s.stream syms) ≠ [] → (streamEncoded (s.stream syms) s).tvalid = true := by
    intro payload
    have nonempty : s.stream syms ≠ [] := fun empty => payload (by rw [empty]; rfl)
    simp [streamEncoded, nonempty]
  obtain ⟨u, decoded, chanS, err, -, mode⟩ :=
    execAll_decodeSequence_scan soundEncoded.startInvocation ⟨rfl, rfl⟩ prefixFree.distinct tail
  have scan : greedyScan s.reverseMap [] (unpack (payloadOf (s.stream syms))
      (streamEncoded (s.stream syms) s).tailString) = (syms, []) := by
    rw [unpack_streamEncoded]
    exact greedyScan_stream prefixFree (fun x hx => (sound.entries x hx).1) syms valid
  have left := congrArg Prod.snd scan
  refine ⟨_, payloadOf (s.stream syms), u, packed, ready.2, rfl, ?_, err.mpr left, mode left, ?_, ?_⟩
  · rw [execAll, exec_init]
    exact decoded
  · exact chanS.trans (congrArg (fun r => s.chanS ++ r.1) scan)
  · rintro rfl
    have empty : s.stream [] = [] := rfl
    rw [empty]
    exact ⟨rfl, rfl⟩

end Sys2Proof.Machine
end

section
/-! A bit string that a raise breaks off: the failing bit, and what the bits before it leave (spec/43_decode.md R141;
spec/60_exceptions.md R175, R176). -/

namespace Sys2Proof.Machine

variable {s t m : State} {cmd : Word} {i : Nat}

/-- Some bit of the string raises, and those before it are fed without a raise. -/
theorem exists_failing_bit {u : List Bool} (h : feedBits cmd i u s = .ended t) :
    ∃ k b m, u[k]? = some b ∧ feedBits cmd i (u.take k) s = .running m ∧ decodeBit cmd (i + k) b m = .ended t := by
  induction u generalizing i s with
  | nil => cases h
  | cons b u ih =>
    rw [feedBits] at h
    cases first : decodeBit cmd i b s with
    | ended r =>
      rw [first] at h
      cases h
      exact ⟨0, b, s, rfl, rfl, first⟩
    | running r =>
      rw [first] at h
      obtain ⟨k, c, m, bit, before, fails⟩ := ih h
      refine ⟨k + 1, c, m, bit, ?_, ?_⟩
      · rw [List.take_succ_cons, feedBits, first]
        exact before
      · rwa [Nat.add_right_comm, Nat.add_assoc] at fails

/-- DBITS counts the bits fed, modulo 2^32 (R35, R141). -/
theorem dbits_of_feedBits_running {u : List Bool} (h : feedBits cmd i u s = .running m) :
    m.dbits = s.dbits + BitVec.ofNat 32 u.length := by
  induction u generalizing i s with
  | nil => cases h; simp
  | cons b u ih =>
    rw [feedBits] at h
    rcases decodeBit_cases cmd i b s with ⟨-, hd⟩ | ⟨-, -, hd⟩ | ⟨x, -, -, hd⟩ | ⟨-, -, hd⟩ <;> rw [hd] at h
    · cases h
    · exact (ih h).trans (bv32_add_succ ..)
    · exact (ih h).trans (bv32_add_succ ..)
    · cases h

/-- Two hits of Match are two entries equal to the accumulator, because Match lists no symbol twice (R140). -/
theorem two_entries_of_matchSet (h : 2 ≤ (matchSet s).length) :
    ∃ x y, x ≠ y ∧ ((s.entry x).valid = true ∧ (s.entry x).len = s.acclen ∧ (s.entry x).bits = s.acc) ∧
      (s.entry y).valid = true ∧ (s.entry y).len = s.acclen ∧ (s.entry y).bits = s.acc := by
  have ne : (matchSet s)[0] ≠ (matchSet s)[1] := fun same =>
    absurd ((nodup_matchSet s).getElem_inj_iff.mp same) (by decide)
  exact ⟨_, _, ne, (mem_matchSet s _).mp (List.getElem_mem _), (mem_matchSet s _).mp (List.getElem_mem _)⟩

/-- Settles O43: the failing bit either finds the accumulator full, or is appended and matches two entries. -/
theorem failingBitIsRecorded : Obligations.FailingBitIsRecorded := by
  intro cmd u s t he h
  obtain ⟨i, b, m, bit, before, fails⟩ := exists_failing_bit h
  rw [Nat.zero_add] at fails
  have noError : m.err = false := (feedBits_keeps_tail before).1.trans he
  have counted : m.dbits = s.dbits + BitVec.ofNat 32 i := by
    obtain ⟨inside, -⟩ := List.getElem?_eq_some_iff.mp bit
    rw [dbits_of_feedBits_running before, List.length_take_of_le inside.le]
  refine ⟨i, b, m, bit, before, noError, counted, ?_⟩
  rcases decodeBit_cases cmd i b m with ⟨full, hd⟩ | ⟨-, -, hd⟩ | ⟨x, -, -, hd⟩ | ⟨room, two, hd⟩ <;>
    cases hd.symm.trans fails
  · exact .inl ⟨full, rfl⟩
  · obtain ⟨x, y, ne, ⟨validX, lenX, bitsX⟩, validY, lenY, bitsY⟩ := two_entries_of_matchSet two
    rw [entry_appendBit] at validX lenX bitsX validY lenY bitsY
    refine .inr ⟨room, x, y, ne, validX, validY, lenX, lenY, bitsX.trans bitsY.symm, ?_⟩
    rw [bitsX]
    rfl

end Sys2Proof.Machine
end

section
/-! The errors that are checked before any state change, in the order of R174, and the errors of the commands that pass
those checks (spec/60_exceptions.md R171 to R176; spec/30_encoding.md R76). -/

namespace Sys2Proof.Machine

variable {s t : State} {i : Instr}

/-! ## The checks before any state change -/

/-- With ERR = 0, the first check that the command fails, in the order of R174, is that of this error. -/
inductive RefusedWith (s : State) : Instr → ErrCode → Prop
  /-- The MODE does not allow the command (R91). -/
  | seq {i : Instr} : permitted i s.mode = false → RefusedWith s i .seq
  /-- An operand is outside its range (R76). -/
  | badLen {i : Instr} : permitted i s.mode = true → i.operandsLegal = false → RefusedWith s i .badLen
  /-- No entry is being loaded, or the chunk is longer than the bits that are missing (R102). -/
  | load {n : BitVec 5} {data : BitVec 16} : permitted (.cwbits n data) s.mode = true →
      (Instr.cwbits n data).operandsLegal = true →
      s.lsel = false ∨ (s.entry s.lsym).len.toNat < s.lcnt.toNat + n.toNat → RefusedWith s (.cwbits n data) .load
  /-- The symbol has no codeword (R121). -/
  | miss {sym : Byte} : permitted (.enc sym) s.mode = true → (s.entry sym).valid = false →
      RefusedWith s (.enc sym) .miss
  /-- There is no tail to feed (R144). -/
  | noTail {b : Byte} : permitted (.dlast b) s.mode = true → s.tvalid = false → RefusedWith s (.dlast b) .noTail

theorem operandsLegal_cwbits {n : BitVec 5} {data : BitVec 16} :
    (Instr.cwbits n data).operandsLegal = true ↔ 1 ≤ n.toNat ∧ n.toNat ≤ 16 := by
  simp [Instr.operandsLegal]

/-- A command with an operand outside its range raises EBADLEN by its own rule (R76). -/
theorem rule_of_illegal_operands (h : i.operandsLegal = false) :
    (rule i s).state = s.recordError .badLen 0 (encode i) := by
  cases i with
  | cwlen sym len =>
    have zero : len.toNat = 0 := by simpa [Instr.operandsLegal] using h
    rcases ruleCwlen_cases s sym len with ⟨-, done⟩ | ⟨nonzero, -⟩
    · exact done
    · exact absurd (BitVec.eq_of_toNat_eq zero) nonzero
  | cwbits n data =>
    have outside : ¬(1 ≤ n.toNat ∧ n.toNat ≤ 16) := mt (operandsLegal_cwbits (data := data)).mpr (by simp [h])
    exact ruleCwbits_badLen data (by omega)
  | tailset tlen tbits =>
    have long : 8 < tlen.toNat := by simpa [Instr.operandsLegal] using h
    rcases ruleTailset_cases s tlen tbits with ⟨-, done⟩ | ⟨zero, -⟩ | ⟨-, short, -⟩
    · exact done
    · simp [zero] at long
    · omega
  | _ => cases h

/-- A command that fails a check does nothing but record that check's error (R172, R176). -/
theorem RefusedWith.exec_eq {e : ErrCode} (h : RefusedWith s i e) (he : s.err = false) :
    exec i s = .next (s.recordError e 0 (encode i)) := by
  cases h with
  | seq refused => exact exec_refused he refused
  | badLen allowed illegal => rw [exec_allowed he allowed, rule_of_illegal_operands illegal]
  | load allowed legal fails =>
    obtain ⟨hpos, hn⟩ := operandsLegal_cwbits.mp legal
    rw [exec_allowed he allowed, rule, ruleCwbits_load _ hpos hn fails]
  | @miss sym allowed invalid =>
    rcases ruleEnc_cases s sym with ⟨-, done⟩ | ⟨valid, -⟩
    · rw [exec_allowed he allowed, rule, done]
    · simp [invalid] at valid
  | @noTail b allowed absent =>
    rcases ruleDlast_cases s b with ⟨-, done⟩ | ⟨present, -⟩
    · rw [exec_allowed he allowed, rule, done]
    · simp [absent] at present

/-! ## The errors of the commands that pass the checks -/

/-- The command feeds the tail (R144, R145). -/
def FeedsTail (s : State) (i : Instr) : Prop := (∃ b, i = .dlast b ∧ s.tvalid = true) ∨ i = .dend ∧ s.tvalid = true

/-- What ECODE can be after a command that passed the checks: no error, one of the bits it fed, or one of the end of
the stream (R174). -/
def AcceptedCode (s : State) (i : Instr) (c : ErrCode) : Prop :=
  c = .none ∨ (c = .accOvf ∨ c = .dup) ∧ ((∃ b, i = .dbyte b) ∨ FeedsTail s i) ∨ c = .dangle ∧ FeedsTail s i

theorem acceptedCode_feedTail (feeds : FeedsTail s i) (clean : s.ecode = .none) (cmd : Word) (m : Mode) :
    AcceptedCode s i (feedTail cmd (s.setMode m)).state.ecode := by
  rcases feedTail_ecode (s.setMode m) cmd with same | overflow | dup | dangle
  · exact .inl (same.trans clean)
  · exact .inr (.inl ⟨.inl overflow, .inr feeds⟩)
  · exact .inr (.inl ⟨.inr dup, .inr feeds⟩)
  · exact .inr (.inr ⟨dangle, feeds⟩)

/-- `Sound` is needed twice: an entry being loaded is not valid, and in IDLE the accumulator is empty, so DEND without a
tail raises nothing (R150). -/
theorem acceptedCode_rule (sound : Sound s) (clean : s.ecode = .none) (allowed : permitted i s.mode = true)
    (accepted : ∀ e, ¬RefusedWith s i e) : AcceptedCode s i (rule i s).state.ecode := by
  have legal : i.operandsLegal = true := by
    cases h : i.operandsLegal with
    | true => rfl
    | false => exact absurd (.badLen allowed h) (accepted .badLen)
  cases i with
  | nop => exact .inl clean
  | init keep => exact .inl (startInvocation_ecode _)
  | cwlen sym len =>
    rcases ruleCwlen_cases s sym len with ⟨rfl, -⟩ | ⟨-, done⟩
    · cases legal
    · exact .inl ((congrArg State.ecode done).trans clean)
  | cwbits n data =>
    obtain ⟨hpos, hn⟩ := operandsLegal_cwbits.mp legal
    have loads := mt (RefusedWith.load allowed legal) (accepted .load)
    rw [not_or, Bool.not_eq_false, Nat.not_lt] at loads
    obtain ⟨selected, fits⟩ := loads
    obtain ⟨-, invalid, -⟩ := sound.loading selected
    have done := ruleCwbits_eq_chunkAppended data selected invalid hpos hn fits
    exact .inl ((congrArg State.ecode done).trans clean)
  | cwinv sym =>
    rcases ruleCwinv_cases s sym with ⟨-, done⟩ | ⟨-, done⟩ <;>
      exact .inl ((congrArg State.ecode done).trans clean)
  | tailset tlen tbits =>
    rcases ruleTailset_cases s tlen tbits with ⟨long, -⟩ | ⟨-, done⟩ | ⟨-, -, done⟩
    · have short : tlen.toNat ≤ 8 := by simpa [Instr.operandsLegal] using legal
      omega
    · exact .inl ((congrArg State.ecode done).trans clean)
    · exact .inl ((congrArg State.ecode done).trans clean)
  | enc sym =>
    rcases ruleEnc_cases s sym with ⟨invalid, -⟩ | ⟨-, done⟩
    · exact absurd (.miss allowed invalid) (accepted .miss)
    · exact .inl ((congrArg State.ecode done).trans ((packBits_ecode ..).trans clean))
  | eflush =>
    rcases ruleEflush_cases s with ⟨-, done⟩ | ⟨-, -, done⟩ | ⟨-, -, done⟩ <;>
      exact .inl ((congrArg State.ecode done).trans clean)
  | dbyte b =>
    rcases feedBits_ecode (s.setMode .decoding) (encode (.dbyte b)) 0 (byteString b) with same | raised
    · exact .inl (same.trans clean)
    · exact .inr (.inl ⟨raised, .inl ⟨b, rfl⟩⟩)
  | dlast b =>
    rcases ruleDlast_cases s b with ⟨absent, -⟩ | ⟨present, done⟩
    · exact absurd (.noTail allowed absent) (accepted .noTail)
    · rw [rule, done]
      exact acceptedCode_feedTail (.inl ⟨b, rfl, present⟩) clean _ _
  | dend =>
    rcases ruleDend_cases s with ⟨present, done⟩ | ⟨-, -, done⟩ | ⟨-, left, -⟩
    · rw [rule, done]
      exact acceptedCode_feedTail (.inr ⟨rfl, present⟩) clean _ _
    · exact .inl ((congrArg State.ecode done).trans clean)
    · have idle : s.mode = .idle := by simpa [permitted] using allowed
      exact absurd (sound.accIdle idle).2 left

/-! ## What a command leaves in ECODE -/

/-- With no error recorded, a command fails a check and only records its error, or passes them all. -/
theorem exec_refused_or_accepted (sound : Sound s) (he : s.err = false) (ht : exec i s = .next t) :
    (∃ e, RefusedWith s i e ∧ t = s.recordError e 0 (encode i)) ∨
    (permitted i s.mode = true ∧ AcceptedCode s i t.ecode) := by
  by_cases refused : ∃ e, RefusedWith s i e
  · obtain ⟨e, h⟩ := refused
    exact .inl ⟨e, h, (Host.Outcome.next.inj ((h.exec_eq he).symm.trans ht)).symm⟩
  · rw [not_exists] at refused
    have allowed : permitted i s.mode = true := by
      cases h : permitted i s.mode with
      | true => rfl
      | false => exact absurd (.seq h) (refused .seq)
    cases (exec_allowed he allowed).symm.trans ht
    exact .inr ⟨allowed, acceptedCode_rule sound (sound.noError he).1 allowed refused⟩

/-- The codes of the checks before any state change, EILLEGAL included, are none of a command that passed them. -/
theorem AcceptedCode.not_precondition {c : ErrCode} (h : AcceptedCode s i c) :
    c ∉ [ErrCode.illegal, .seq, .badLen, .load, .miss, .noTail] := by
  rcases h with rfl | ⟨rfl | rfl, -⟩ | ⟨rfl, -⟩ <;> decide

/-- A command that passed the checks records none of their codes, so each of these codes tells of its check. -/
theorem ecode_eq_iff_refusedWith (sound : Sound s) (he : s.err = false) (ht : exec i s = .next t) {e : ErrCode}
    (precondition : e ∈ [ErrCode.illegal, .seq, .badLen, .load, .miss, .noTail]) :
    t.ecode = e ↔ RefusedWith s i e := by
  constructor
  · rintro rfl
    rcases exec_refused_or_accepted sound he ht with ⟨e, refused, rfl⟩ | ⟨-, accepted⟩
    · exact refused
    · exact absurd precondition accepted.not_precondition
  · intro refused
    cases (refused.exec_eq he).symm.trans ht
    rfl

/-- The codes of R175 and EDANGLE are recorded only by a command that passed the checks. -/
theorem acceptedCode_of_ecode (sound : Sound s) (he : s.err = false) (ht : exec i s = .next t)
    (late : t.ecode ∈ [ErrCode.dup, .accOvf] ∨ t.ecode = .dangle) :
    permitted i s.mode = true ∧ AcceptedCode s i t.ecode := by
  rcases exec_refused_or_accepted sound he ht with ⟨e, refused, rfl⟩ | accepted
  · rw [State.recordError_ecode] at late
    cases refused <;> exact absurd late (by decide)
  · exact accepted

/-- Settles O44: a command records one of these codes by failing its check, and an ILLEGAL word by EILLEGAL. -/
theorem preconditionErrorsChangeOnlyErrorFields : Obligations.PreconditionErrorsChangeOnlyErrorFields := by
  intro w s t sound he ht code
  rcases executeWord_cases ht with ⟨i, command, hi⟩ | ⟨recorded, -⟩ | ⟨-, rfl⟩
  · have refused := (ecode_eq_iff_refusedWith sound he hi code).mp rfl
    have done := Host.Outcome.next.inj (hi.symm.trans (refused.exec_eq he))
    rwa [encodeOfDecodeIsTheWord w i command] at done
  · simp [he] at recorded
  · rfl

/-! ## The checks, one by one -/

theorem refusedWith_seq : RefusedWith s i .seq ↔ permitted i s.mode = false :=
  ⟨fun | .seq refused => refused, .seq⟩

theorem refusedWith_badLen :
    RefusedWith s i .badLen ↔ permitted i s.mode = true ∧ i.operandsLegal = false :=
  ⟨fun | .badLen allowed illegal => ⟨allowed, illegal⟩, fun ⟨allowed, illegal⟩ => .badLen allowed illegal⟩

theorem refusedWith_load :
    RefusedWith s i .load ↔ permitted i s.mode = true ∧ i.operandsLegal = true ∧
      ∃ n data, i = .cwbits n data ∧
        (s.lsel = false ∨ (s.entry s.lsym).len.toNat < s.lcnt.toNat + n.toNat) := by
  constructor
  · rintro ⟨⟩
    next allowed legal fails => exact ⟨allowed, legal, _, _, rfl, fails⟩
  · rintro ⟨allowed, legal, n, data, rfl, fails⟩
    exact .load allowed legal fails

theorem refusedWith_miss :
    RefusedWith s i .miss ↔ permitted i s.mode = true ∧ ∃ sym, i = .enc sym ∧ (s.entry sym).valid = false := by
  constructor
  · rintro ⟨⟩
    next allowed invalid => exact ⟨allowed, _, rfl, invalid⟩
  · rintro ⟨allowed, sym, rfl, invalid⟩
    exact .miss allowed invalid

theorem refusedWith_noTail :
    RefusedWith s i .noTail ↔ permitted i s.mode = true ∧ ∃ b, i = .dlast b ∧ s.tvalid = false := by
  constructor
  · rintro ⟨⟩
    next allowed absent => exact ⟨allowed, _, rfl, absent⟩
  · rintro ⟨allowed, b, rfl, absent⟩
    exact .noTail allowed absent

/-- Settles O45: a code of R174's checks tells that the check is the first to fail, and the other codes are those of a
command that passed the checks. -/
theorem errorPriority : Obligations.ErrorPriority := by
  intro i s t sound he ht
  refine ⟨?_, ?_, ?_, ?_, ?_, fun code => ?_, fun code => ?_⟩
  · rw [ecode_eq_iff_refusedWith sound he ht (by decide), refusedWith_seq]
  · rw [ecode_eq_iff_refusedWith sound he ht (by decide), refusedWith_badLen]
  · rw [ecode_eq_iff_refusedWith sound he ht (by decide), refusedWith_load]
  · rw [ecode_eq_iff_refusedWith sound he ht (by decide), refusedWith_miss]
  · rw [ecode_eq_iff_refusedWith sound he ht (by decide), refusedWith_noTail]
  · obtain ⟨allowed, accepted⟩ := acceptedCode_of_ecode sound he ht (.inl code)
    refine ⟨allowed, ?_⟩
    rcases accepted with clean | ⟨-, feeds⟩ | ⟨dangle, -⟩
    · rw [clean] at code
      exact absurd code (by decide)
    · exact feeds
    · rw [dangle] at code
      exact absurd code (by decide)
  · obtain ⟨allowed, accepted⟩ := acceptedCode_of_ecode sound he ht (.inr code)
    refine ⟨allowed, ?_⟩
    rw [code] at accepted
    rcases accepted with clean | ⟨bits, -⟩ | ⟨-, feeds⟩
    · cases clean
    · exact absurd bits (by decide)
    · exact feeds

end Sys2Proof.Machine
end

section
/-! Every command and every access of the host is answered with a next state (spec/40_control.md R90;
spec/60_exceptions.md R172). -/

namespace Sys2Proof.Machine

/-- A raise is a state, so the dispatch rule answers a next state around every rule (R172). -/
theorem exec_answers (i : Instr) (s : State) : ∃ t, exec i s = .next t := ⟨_, exec_eq_perform i s⟩

theorem executeWord_answers (w : Word) (s : State) : ∃ t, executeWord w s = .next t := by
  cases h : decode w with
  | ok i =>
    rw [executeWord_command h]
    exact exec_answers i s
  | error e => exact ⟨executeIllegal w s, by rw [executeWord, h]⟩

theorem serve_answers (a : HostAccess) (s : State) : ∃ t, serve a s = .next t := by
  cases a with
  | command w => exact executeWord_answers w s
  | read addr => exact ⟨_, rfl⟩
  | reset => exact ⟨_, rfl⟩
  | resetDuring w =>
    obtain ⟨u, interrupted⟩ := executeWord_answers w s
    exact ⟨resetInside s u, by rw [serve, resetDuringWord, interrupted]⟩

/-- Settles O10: a command is answered by the dispatch rule, and a step waits or serves an access. -/
theorem everyStepAnswersANextState : Obligations.EveryStepAnswersANextState := by
  refine ⟨exec_answers, fun s => ?_⟩
  cases waiting : s.host with
  | nil => exact ⟨s, by rw [step, stepHost, waiting]⟩
  | cons a rest =>
    rw [step_of_host waiting]
    exact serve_answers a _

end Sys2Proof.Machine
end

section
/-! Loading the table and reading a group's byte (spec/70_reset_and_hazards.md R193, R196). -/

namespace Sys2Proof.Machine

variable {s : State}

/-! ## Two codewords in either order (R193) -/

theorem Ready.codewordLoaded (h : Ready s) (x : Byte) (c : List Bool) : Ready (codewordLoaded x c s) := h

theorem setEntry_comm (s : State) {x y : Byte} (ne : x ≠ y) (e f : CodeEntry) :
    (s.setEntry x e).setEntry y f = (s.setEntry y f).setEntry x e := by
  have apart : x.toNat ≠ y.toNat := fun same => ne (BitVec.eq_of_toNat_eq same)
  simp only [State.setEntry, Vector.set_comm e f apart]

theorem codewordLoaded_comm (s : State) {x y : Byte} (ne : x ≠ y) (c d : List Bool) :
    codewordLoaded y d (codewordLoaded x c s) = codewordLoaded x c (codewordLoaded y d s) :=
  congrArg State.clearLoader (congrArg State.clearLoader (setEntry_comm s ne _ _))

/-- Two CW lines lead where their two codewords are loaded one after the other. -/
theorem execAll_loadCodeword_twice (h : Ready s) (x y : Byte) {c d : List Bool} (hc : 1 ≤ c.length)
    (hc' : c.length ≤ 255) (hd : 1 ≤ d.length) (hd' : d.length ≤ 255) :
    execAll (loadCodeword x c ++ loadCodeword y d) s = .next (codewordLoaded y d (codewordLoaded x c s)) := by
  rw [execAll_append (execAll_loadCodeword h hc hc'), execAll_loadCodeword (h.codewordLoaded x c) hd hd']

/-- Settles O21: each order writes the two entries and leaves the loader idle, and writes to two entries commute. -/
theorem loadOrderDoesNotMatter : Obligations.LoadOrderDoesNotMatter := by
  intro x y c d s _ ready ne hc hc' hd hd'
  refine ⟨codewordLoaded y d (codewordLoaded x c s), execAll_loadCodeword_twice ready x y hc hc' hd hd', ?_⟩
  rw [codewordLoaded_comm s ne]
  exact execAll_loadCodeword_twice ready y x hd hd' hc hc'

/-! ## A group's byte (R196) -/

theorem str_of_zero (n : Nat) : str n 0 = List.replicate n false := by
  induction n with
  | zero => rfl
  | succ n ih => rw [str_succ, ih, Nat.zero_testBit, List.replicate_succ]

/-- A number read with more digits than its string has is the string behind zeros. -/
theorem str_add_val (n : Nat) (g : List Bool) : str (n + g.length) (val g) = List.replicate n false ++ g := by
  have split := str_append n g.length 0 (val g) (val_lt g)
  rwa [Nat.zero_mul, Nat.zero_add, str_of_zero, str_val] at split

/-- Settles O42: the byte is the group's value, read with eight digits. -/
theorem groupByteIsRightAligned : Obligations.GroupByteIsRightAligned := by
  intro g short
  have digits := str_add_val (8 - g.length) g
  rwa [Nat.sub_add_cancel short, ← toNat_groupByte short] at digits

end Sys2Proof.Machine
end

section
/-! No command reads LEN and BITS of an entry that is neither valid nor being loaded: states that differ only there are
taken to such states by every operation, rule, command and word (spec/70_reset_and_hazards.md R191). -/

namespace Sys2Proof.Machine

variable {s t : State}

/-- Two conditional values are related if the conditions agree and the values of each branch are related. -/
theorem rel_ite {α β : Sort*} {R : α → β → Prop} {c c' : Prop} [Decidable c] [Decidable c'] {a b : α} {a' b' : β}
    (same : c' ↔ c) (yes : c → R a a') (no : ¬c → R b b') : R (if c then a else b) (if c' then a' else b') := by
  by_cases hc : c
  · rw [if_pos hc, if_pos (same.mpr hc)]
    exact yes hc
  · rw [if_neg hc, if_neg (mt same.mp hc)]
    exact no hc

/-! ## What the two states agree in -/

/-- `s` with another code table and another count of resets. -/
def State.withTable (ct : Vector CodeEntry 256) (draws : Nat) (s : State) : State := { s with ct := ct, draws := draws }

theorem SameForCommands.eq_withTable (h : SameForCommands s t) : t = s.withTable t.ct t.draws := h.1

theorem SameForCommands.valid_eq (h : SameForCommands s t) (x : Byte) : (t.entry x).valid = (s.entry x).valid :=
  (h.2 x).1

/-- An entry that is valid or being loaded is the same in both states. -/
theorem SameForCommands.entry_eq (h : SameForCommands s t) {x : Byte}
    (read : (s.entry x).valid = true ∨ s.lsel = true ∧ s.lsym = x) : t.entry x = s.entry x := (h.2 x).2 read

section

variable (h : SameForCommands s t)
include h

theorem SameForCommands.mode_eq : t.mode = s.mode := (congrArg State.mode h.eq_withTable :)
theorem SameForCommands.err_eq : t.err = s.err := (congrArg State.err h.eq_withTable :)
theorem SameForCommands.tvalid_eq : t.tvalid = s.tvalid := (congrArg State.tvalid h.eq_withTable :)
theorem SameForCommands.tlen_eq : t.tlen = s.tlen := (congrArg State.tlen h.eq_withTable :)
theorem SameForCommands.tailString_eq : t.tailString = s.tailString := (congrArg State.tailString h.eq_withTable :)
theorem SameForCommands.lsel_eq : t.lsel = s.lsel := (congrArg State.lsel h.eq_withTable :)
theorem SameForCommands.lsym_eq : t.lsym = s.lsym := (congrArg State.lsym h.eq_withTable :)
theorem SameForCommands.lcnt_eq : t.lcnt = s.lcnt := (congrArg State.lcnt h.eq_withTable :)
theorem SameForCommands.pcnt_eq : t.pcnt = s.pcnt := (congrArg State.pcnt h.eq_withTable :)
theorem SameForCommands.pany_eq : t.pany = s.pany := (congrArg State.pany h.eq_withTable :)
theorem SameForCommands.acc_eq : t.acc = s.acc := (congrArg State.acc h.eq_withTable :)
theorem SameForCommands.acclen_eq : t.acclen = s.acclen := (congrArg State.acclen h.eq_withTable :)
theorem SameForCommands.chanP_eq : t.chanP = s.chanP := (congrArg State.chanP h.eq_withTable :)
theorem SameForCommands.chanS_eq : t.chanS = s.chanS := (congrArg State.chanS h.eq_withTable :)
theorem SameForCommands.host_eq : t.host = s.host := (congrArg State.host h.eq_withTable :)
theorem SameForCommands.reads_eq : t.reads = s.reads := (congrArg State.reads h.eq_withTable :)

end

/-! ## Updates of the state -/

/-- An update that does not look at the table, nor selects an entry for loading, keeps the states alike. -/
theorem SameForCommands.map {f : State → State} (h : SameForCommands s t)
    (blind : ∀ ct draws, f (s.withTable ct draws) = (f s).withTable ct draws)
    (loading : (f s).lsel = true → s.lsel = true ∧ s.lsym = (f s).lsym) : SameForCommands (f s) (f t) := by
  have image : f t = (f s).withTable t.ct t.draws := (congrArg f h.eq_withTable).trans (blind t.ct t.draws)
  have table : (f s).ct = s.ct := (congrArg State.ct (blind s.ct s.draws) :)
  have entryS (x : Byte) : (f s).entry x = s.entry x := by simp only [State.entry, table]
  have entryT (x : Byte) : (f t).entry x = t.entry x := by
    rw [image]
    rfl
  constructor
  · rw [image]
    rfl
  · intro x
    rw [entryS, entryT]
    refine ⟨h.valid_eq x, fun read => h.entry_eq (read.imp_right fun ⟨selected, symbol⟩ => ?_)⟩
    exact ⟨(loading selected).1, (loading selected).2.trans symbol⟩

/-- An entry is replaced: by the same one in both states where a command may read it. -/
theorem SameForCommands.setEntry (h : SameForCommands s t) {x : Byte} {e f : CodeEntry} (valid : f.valid = e.valid)
    (read : e.valid = true ∨ s.lsel = true ∧ s.lsym = x → f = e) :
    SameForCommands (s.setEntry x e) (t.setEntry x f) := by
  constructor
  · exact congrArg (State.setEntry x f) h.eq_withTable
  · intro y
    by_cases hy : y = x
    · subst hy
      rw [entry_setEntry_self, entry_setEntry_self]
      exact ⟨valid, read⟩
    · rw [entry_setEntry_of_ne _ _ hy, entry_setEntry_of_ne _ _ hy]
      exact h.2 y

/-- An entry may be selected for loading if it is the same in both states. -/
theorem SameForCommands.selectLoader (h : SameForCommands s t) {x : Byte} (same : t.entry x = s.entry x)
    (cnt : BitVec 8) : SameForCommands (s.selectLoader x cnt) (t.selectLoader x cnt) := by
  constructor
  · exact congrArg (State.selectLoader x cnt) h.eq_withTable
  · intro y
    refine ⟨h.valid_eq y, ?_⟩
    rintro (valid | ⟨-, rfl⟩)
    · exact h.entry_eq (.inl valid)
    · exact same

section

variable (h : SameForCommands s t)
include h

theorem SameForCommands.recordError (e : ErrCode) (p : BitVec 4) (cmd : Word) :
    SameForCommands (s.recordError e p cmd) (t.recordError e p cmd) :=
  h.map (fun _ _ => rfl) fun selected => ⟨selected, rfl⟩

theorem SameForCommands.setMode (m : Mode) : SameForCommands (s.setMode m) (t.setMode m) :=
  h.map (fun _ _ => rfl) fun selected => ⟨selected, rfl⟩

theorem SameForCommands.clearLoader : SameForCommands s.clearLoader t.clearLoader :=
  h.map (fun _ _ => rfl) fun selected => absurd selected Bool.false_ne_true

theorem SameForCommands.setTail (len : BitVec 4) (bits : BitVec 8) :
    SameForCommands (s.setTail len bits) (t.setTail len bits) :=
  h.map (fun _ _ => rfl) fun selected => ⟨selected, rfl⟩

theorem SameForCommands.clearTail : SameForCommands s.clearTail t.clearTail :=
  h.map (fun _ _ => rfl) fun selected => ⟨selected, rfl⟩

theorem SameForCommands.startInvocation : SameForCommands (startInvocation s) (startInvocation t) :=
  h.map (fun _ _ => rfl) fun selected => absurd selected Bool.false_ne_true

/-! ## The packer -/

theorem SameForCommands.packBit (b : Bool) : SameForCommands (packBit s b) (packBit t b) := by
  refine h.map (f := (Machine.packBit · b)) (fun ct draws => ?_) fun selected => ?_
  · simp only [Machine.packBit, apply_ite (State.withTable ct draws)]
    rfl
  · have touched := packBits_touches_packer s [b]
    exact ⟨(congrArg State.lsel touched :).symm.trans selected, (congrArg State.lsym touched :).symm⟩

theorem SameForCommands.packBits (c : List Bool) : SameForCommands (packBits s c) (packBits t c) := by
  induction c generalizing s t with
  | nil => exact h
  | cons b c ih => exact ih (h.packBit b)

theorem SameForCommands.writeTail : SameForCommands (writeTail s) (writeTail t) := by
  refine rel_ite (by rw [h.pcnt_eq]) (fun _ => ?_) fun _ => rel_ite (by rw [h.pany_eq]) (fun _ => ?_) fun _ => ?_
  · exact h.map (f := fun s => { (s.emitP s.pbuf).setTail (s.pcnt.setWidth 4) s.pbuf with pbytes := s.pbytes + 1 })
      (fun _ _ => rfl) fun selected => ⟨selected, rfl⟩
  · exact h.map (f := fun s => s.setTail 8 s.plast) (fun _ _ => rfl) fun selected => ⟨selected, rfl⟩
  · exact h.clearTail

theorem SameForCommands.closeStream : SameForCommands (closeStream s) (closeStream t) :=
  h.map (fun _ _ => rfl) fun selected => ⟨selected, rfl⟩

/-! ## The decoder's registers and Match -/

theorem SameForCommands.appendBit (b : Bool) : SameForCommands (appendBit s b) (appendBit t b) :=
  h.map (f := (Machine.appendBit · b)) (fun _ _ => rfl) fun selected => ⟨selected, rfl⟩

theorem SameForCommands.emitMatch (x : Byte) : SameForCommands (emitMatch s x) (emitMatch t x) :=
  h.map (f := (Machine.emitMatch · x)) (fun _ _ => rfl) fun selected => ⟨selected, rfl⟩

/-- An entry that is not valid matches nothing, and a valid one is the same in both states (R140). -/
theorem SameForCommands.hits_eq (x : Byte) (len : BitVec 8) (bits : CodeBits) :
    (t.entry x).hits len bits = (s.entry x).hits len bits := by
  cases valid : (s.entry x).valid with
  | true => rw [h.entry_eq (.inl valid)]
  | false => rw [CodeEntry.hits, CodeEntry.hits, h.valid_eq, valid, Bool.false_and, Bool.false_and]

end

/-- Match goes through the symbols in increasing order (R140). -/
theorem matchSet_eq_filter (s : State) :
    matchSet s = symbols.filter fun x => (s.entry x).hits s.acclen s.acc := by
  have table : s.ct.toList.zipIdx = symbols.map fun x => (s.entry x, x.toNat) := by
    apply List.ext_getElem
    · simp [symbols]
    · intro k hk _
      have lt : k < 256 := by simpa using hk
      simp [symbols, State.entry, Nat.mod_eq_of_lt lt]
  rw [matchSet, table, List.filter_map, List.map_map]
  simp [Function.comp_def]

theorem SameForCommands.matchSet_eq (h : SameForCommands s t) : matchSet t = matchSet s := by
  simp only [matchSet_eq_filter, h.hits_eq, h.acclen_eq, h.acc_eq]

/-! ## How far a rule has come -/

/-- Both rules are still running or both have ended, in states that agree in all that a command may read. -/
inductive SameFlow : Flow → Flow → Prop
  | running {s t : State} (h : SameForCommands s t) : SameFlow (.running s) (.running t)
  | ended {s t : State} (h : SameForCommands s t) : SameFlow (.ended s) (.ended t)

theorem SameFlow.state {f g : Flow} (h : SameFlow f g) : SameForCommands f.state g.state := by
  cases h with
  | running h => exact h
  | ended h => exact h

theorem SameFlow.andThen {f g : Flow} {k l : State → Flow} (h : SameFlow f g)
    (next : ∀ {s t}, SameForCommands s t → SameFlow (k s) (l t)) : SameFlow (f.andThen k) (g.andThen l) := by
  cases h with
  | running h => exact next h
  | ended h => exact .ended h

section

variable (h : SameForCommands s t)
include h

theorem SameForCommands.raiseError (e : ErrCode) (p : Nat) (cmd : Word) :
    SameFlow (raiseError e p cmd s) (raiseError e p cmd t) := .ended (h.recordError e _ cmd)

theorem SameForCommands.afterMatch (cmd : Word) (i : Nat) (found : List Byte) :
    SameFlow (afterMatch cmd i s found) (afterMatch cmd i t found) := by
  match found with
  | [] => exact .running h
  | [x] => exact .running (h.emitMatch x)
  | _ :: _ :: _ => exact h.raiseError .dup i cmd

theorem SameForCommands.decodeBit (cmd : Word) (i : Nat) (b : Bool) :
    SameFlow (decodeBit cmd i b s) (decodeBit cmd i b t) := by
  have appended := h.appendBit b
  rw [decodeBit_eq, decodeBit_eq, appended.matchSet_eq]
  exact rel_ite (by rw [h.acclen_eq]) (fun _ => h.raiseError .accOvf i cmd) fun _ => appended.afterMatch cmd i _

theorem SameForCommands.feedBits (cmd : Word) (i : Nat) (u : List Bool) :
    SameFlow (feedBits cmd i u s) (feedBits cmd i u t) := by
  induction u generalizing i s t with
  | nil => exact .running h
  | cons b u ih => exact (h.decodeBit cmd i b).andThen fun next => ih next (i + 1)

theorem SameForCommands.endCheck (cmd : Word) (n : Nat) : SameFlow (endCheck cmd n s) (endCheck cmd n t) :=
  rel_ite (by rw [h.acclen_eq]) (fun _ => .running h) fun _ => h.raiseError .dangle n cmd

theorem SameForCommands.feedTail (cmd : Word) : SameFlow (feedTail cmd s) (feedTail cmd t) := by
  rw [Machine.feedTail, Machine.feedTail, h.tailString_eq, h.tlen_eq]
  exact (h.feedBits cmd 0 _).andThen fun next => next.endCheck cmd _

/-! ## The rules of the commands -/

theorem SameForCommands.ruleInit (keep : Bool) : SameFlow (ruleInit keep s) (ruleInit keep t) := by
  cases keep with
  | true => exact .running h.startInvocation
  | false =>
    exact .running (startInvocation_cleared_same h.chanP_eq.symm h.chanS_eq.symm h.host_eq.symm h.reads_eq.symm)

theorem SameForCommands.ruleCwlen (sym : Byte) (len : BitVec 8) :
    SameFlow (ruleCwlen sym len s) (ruleCwlen sym len t) := by
  refine rel_ite .rfl (fun _ => h.raiseError ..) fun _ => .running ?_
  exact (h.setEntry rfl fun _ => rfl).selectLoader (by rw [entry_setEntry_self, entry_setEntry_self]) 0

/-- CWBITS reads an entry only when it is the one being loaded (R102). -/
theorem SameForCommands.ruleCwbits (n : BitVec 5) (data : BitVec 16) :
    SameFlow (ruleCwbits n data s) (ruleCwbits n data t) := by
  refine rel_ite .rfl (fun _ => h.raiseError ..) fun _ => ?_
  refine rel_ite (by rw [h.lsel_eq]) (fun _ => h.raiseError ..) fun selected => ?_
  have loaded : t.entry s.lsym = s.entry s.lsym := h.entry_eq (.inr ⟨by simpa using selected, rfl⟩)
  rw [h.lsym_eq, h.lcnt_eq, loaded]
  refine rel_ite .rfl (fun _ => h.raiseError ..) fun _ => rel_ite .rfl (fun _ => ?_) fun _ => ?_
  · exact .running (h.setEntry rfl fun _ => rfl).clearLoader
  · exact .running
      ((h.setEntry rfl fun _ => rfl).selectLoader (by rw [entry_setEntry_self, entry_setEntry_self]) _)

/-- CWINV leaves LEN and BITS of the entry as they were, and the entry neither valid nor being loaded (R103). -/
theorem SameForCommands.ruleCwinv (sym : Byte) : SameFlow (ruleCwinv sym s) (ruleCwinv sym t) := by
  have removed : SameForCommands (s.setEntry sym { s.entry sym with valid := false })
      (t.setEntry sym { t.entry sym with valid := false }) := by
    refine h.setEntry rfl ?_
    rintro (valid | loading)
    · exact absurd valid Bool.false_ne_true
    · rw [h.entry_eq (.inr loading)]
  exact .running (rel_ite (by rw [h.lsel_eq, h.lsym_eq]) (fun _ => removed.clearLoader) fun _ => removed)

theorem SameForCommands.ruleTailset (tlen : BitVec 4) (tbits : BitVec 8) :
    SameFlow (ruleTailset tlen tbits s) (ruleTailset tlen tbits t) :=
  rel_ite .rfl (fun _ => h.raiseError ..) fun _ =>
    .running (rel_ite .rfl (fun _ => h.clearTail) fun _ => h.setTail ..)

/-- ENC reads the codeword of a valid entry only (R121). -/
theorem SameForCommands.ruleEnc (sym : Byte) : SameFlow (ruleEnc sym s) (ruleEnc sym t) := by
  refine rel_ite (by rw [h.valid_eq]) (fun _ => h.raiseError ..) fun valid => ?_
  rw [h.entry_eq (.inl (by simpa using valid))]
  exact .running ((h.setMode .encoding).packBits _)

theorem SameForCommands.ruleEflush : SameFlow (ruleEflush s) (ruleEflush t) := .running h.writeTail.closeStream

theorem SameForCommands.ruleDlast (b : Byte) : SameFlow (ruleDlast b s) (ruleDlast b t) :=
  rel_ite (by rw [h.tvalid_eq]) (fun _ => h.raiseError ..) fun _ => (h.setMode .decDone).feedTail _

theorem SameForCommands.ruleDend : SameFlow (ruleDend s) (ruleDend t) :=
  rel_ite (by rw [h.tvalid_eq]) (fun _ => (h.setMode .decDone).feedTail _) fun _ => (h.setMode .decDone).endCheck _ 0

theorem SameForCommands.rule (i : Instr) : SameFlow (rule i s) (rule i t) := by
  cases i with
  | nop => exact .running h
  | init keep => exact h.ruleInit keep
  | cwlen sym len => exact h.ruleCwlen sym len
  | cwbits n data => exact h.ruleCwbits n data
  | cwinv sym => exact h.ruleCwinv sym
  | tailset tlen tbits => exact h.ruleTailset tlen tbits
  | enc sym => exact h.ruleEnc sym
  | eflush => exact h.ruleEflush
  | dbyte b => exact (h.setMode .decoding).feedBits _ 0 _
  | dlast b => exact h.ruleDlast b
  | dend => exact h.ruleDend

/-! ## Commands and words -/

/-- The dispatch rule goes by ERR and MODE, which the states agree in (R90). -/
theorem SameForCommands.exec {i : Instr} {s' t' : State} (hs : exec i s = .next s') (ht : exec i t = .next t') :
    SameForCommands s' t' := by
  rw [exec_eq_perform] at hs ht
  rw [← Host.Outcome.next.inj hs, ← Host.Outcome.next.inj ht]
  have performed := (h.rule i).state
  refine rel_ite (by rw [h.err_eq]) (fun _ => rel_ite .rfl (fun _ => performed) fun _ => h) fun _ => ?_
  exact rel_ite (by rw [h.mode_eq]) (fun _ => performed) fun _ => (h.raiseError .seq 0 _).state

theorem SameForCommands.executeIllegal (w : Word) : SameForCommands (executeIllegal w s) (executeIllegal w t) :=
  rel_ite (by rw [h.err_eq]) (fun _ => h) fun _ => (h.raiseError .illegal 0 w).state

end

/-- Settles O56: a word is a command, whose rule keeps the states alike, or ILLEGAL. -/
theorem resetDrawsNeverReachACommand : Obligations.ResetDrawsNeverReachACommand := by
  intro w s t s' t' h hs ht
  cases word : decode w with
  | ok i =>
    rw [executeWord_command word] at hs ht
    exact h.exec hs ht
  | error e =>
    rw [executeWord, word] at hs ht
    cases hs
    cases ht
    exact h.executeIllegal w

end Sys2Proof.Machine
end
